-- ==== Sys2Proof/Word.lean ====
section
/-! DEFINITION. The words of the block: a lane word or data field is a list of bits in time order
(R12, R13, R60), a command-bus row is seven bits (R24, R83). -/

namespace Sys2Proof

/-- A word whose width the configuration decides (`W = 2·R`, `R`, `2·N`, ... bits). Bit 0 is the head of the list
and is the earliest in time (R12 "bit 0 first", R60); `a ++ b` of R13 is list append, the low part written first. -/
abbrev Bits := List Bool

/-- `v[i]` of R13; a bit beyond the word's width does not exist and reads 0. -/
def bitAt (v : Bits) (i : Nat) : Bool := v.getD i false

/-- The zero word of `n` bits (R40). -/
def zeros (n : Nat) : Bits := List.replicate n false

/-- One fast tick of the command bus (R24): bit 0 is chip-select, bit `l + 1` is command/address lane `l`. -/
abbrev Row := BitVec 7

end Sys2Proof
end

