-- ==== Sys2Proof/Config.lean ====
section
/-! DEFINITION. The configuration record `Cfg` (R8, R87), the settings record `Settings` (R9, R88), the latency value
(R89, R110), and the constants that the source fixes in prose. All of it is fixed at construction (R33). -/

namespace Sys2Proof

/-- A duration as whole controller cycles plus fast ticks (R89, R110). -/
structure Latency where
  slowCycles : Nat
  fastTicks : Nat
deriving DecidableEq, Repr

/-- An exact non-negative fraction `num / den`: frequencies in hertz and periods in seconds (R121, R122). R300 forbids
floating point for the period comparison. -/
structure Ratio where
  num : Nat
  den : Nat
deriving DecidableEq, Repr

/-- One entry `(T_i, CL_i, CWL_i)` of the injected timing table (R121). -/
structure TimingEntry where
  threshold : Ratio
  cl : Nat
  cwl : Nat
deriving DecidableEq, Repr

/-- Which validity bits the arbiter's lookback sees: `ARB_HISTORY` (R8, R167). -/
inductive ArbHistory where
  | raw
  | filtered
deriving DecidableEq, Repr

/-- The configuration record (R8). A field that R8 calls OPEN is an argument of every rule: nothing below depends on
a particular value of it. -/
structure Cfg where
  /-- ratio: fast ticks per step, and number of phases -/
  R : Nat
  /-- number of data-bit lanes -/
  N : Nat
  /-- `CMD_LATENCY`, OPEN (R132) -/
  cmdLatency : Nat
  serLatency : Latency
  desLatency : Latency
  targetFreq : Ratio
  /-- the injected timing table `TBL`, OPEN (R121) -/
  table : List TimingEntry
  maskedWrite : Bool
  /-- "optional fixed command delay override": copied to `Settings` only (R133) -/
  cmdDelay : Option Nat
  /-- an opaque tag, copied to `Settings` only (R133) -/
  phyType : Nat
  /-- `ARB_ENABLE` (R174) -/
  arbEnable : Bool
  /-- `ARB_HISTORY` (R167) -/
  arbHistory : ArbHistory
  /-- `FRAME_SWAP` (R236) -/
  frameSwap : Bool
  /-- `S_RESET` (R205) -/
  sReset : Nat
  patClk : Bits
  patToggle : Bits
  patPre : Bits
  patPost : Bits
  patWlIdle : Bits
  patWlStrobe : Bits
  wrapped : Bool
  /-- `RH_SER`, in half-steps (R251) -/
  rhSer : Nat
  /-- `RH_DES`, in half-steps (R251) -/
  rhDes : Nat
deriving DecidableEq, Repr

/-- Bits per step on a double-rate lane: `W = 2·R` (R8). -/
def Cfg.W (c : Cfg) : Nat := 2 * c.R

/-- Number of byte lanes: `NB = N/8` (R8). -/
def Cfg.NB (c : Cfg) : Nat := c.N / 8

/-- Arbiter lookback in fast ticks: `LB` (R8). -/
def lookback : Nat := 3

/-- Fast ticks one command occupies: `CT = LB + 1` (R8). -/
def cmdTicks : Nat := lookback + 1

/-- `CA_LATENCY`: steps from a phase's command input to the command lanes; fixed to 1 by the structure of the
arbiter (R8, R126). -/
def caLatency : Nat := 1

/-- `BS_CYCLES`: whole steps of deskew-buffer latency counted in the read latency (R8, R126). -/
def bsCycles : Nat := 1

/-- The settings record (R88), with `wrtap` of R9. -/
structure Settings where
  cl : Nat
  cwl : Nat
  readLatency : Nat
  writeLatency : Nat
  cmdLatency : Nat
  readPhase : Nat
  writePhase : Nat
  clSys : Nat
  cwlSys : Nat
  wrtap : Nat
  phyType : Nat
  cmdDelay : Option Nat
  R : Nat
  N : Nat
deriving DecidableEq, Repr

end Sys2Proof
end

