-- ==== Sys2Proof/Syntax.lean ====
section
/-! DEFINITION. The record formats of a step's inputs (R80, R81, R84, R85) and the operations of the block, one
constructor for each row of spec/opcode_table.json (R94, R96). -/

namespace Sys2Proof

/-- The input record of one phase (R81). `ca k` of the rule is `ca0 .. ca3`, one six-bit row for each of the
`CT = 4` fast ticks of a command; bit `k` of `cs` is the chip-select value at fast tick `k`. -/
structure Phase where
  cmdValid : Bool
  cs : BitVec 4
  ca0 : BitVec 6
  ca1 : BitVec 6
  ca2 : BitVec 6
  ca3 : BitVec 6
  cke : Bool
  odt : Bool
  resetN : Bool
  /-- `2·N` bits: two sub-slots of `N` bits (R62) -/
  wrData : Bits
  /-- `2·NB` bits: two sub-slots of `NB` bits (R62) -/
  wrMask : Bits
  wrEn : Bool
  rdEn : Bool
deriving DecidableEq, Repr

/-- The control input record, ten fields (R31, R84). The two phase offsets are numbers below `R` (R32). -/
structure Ctl where
  rst : Bool
  wlevelEn : Bool
  wlevelStrobe : Bool
  rdBsRst : Bool
  rdBsInc : Bool
  wrBsRst : Bool
  wrBsInc : Bool
  rdPhase : Nat
  wrPhase : Nat
  /-- `NB` bits; bit `y` selects byte lane `y` (R269) -/
  dlySel : Bits
deriving DecidableEq, Repr

/-- One value for each pad input lane (R85): the lane's word of the step, or what the wrapper keeps of the lane. -/
structure PadInLanes (α : Type) where
  dqI : List α
  dmiI : List α
  dqsI : List α
deriving DecidableEq, Repr

/-- The input record of one step (R80). When the wrapper is present a pad word is the step's pair of half-words, the
earlier half in the low bits (R252, R256). -/
structure In where
  phases : List Phase
  ctl : Ctl
  pad : PadInLanes Bits
deriving DecidableEq, Repr

/-- The two tapped delay lines of the block (R22, R23). -/
inductive Line where
  | rdLine
  | wrLine
deriving DecidableEq, Repr

/-- A transcoder instance by its group and index (R30). -/
inductive Lane where
  | wrDq (b : Nat)
  | wrDm (y : Nat)
  | wrDqs (y : Nat)
  | rdDq (b : Nat)
deriving DecidableEq, Repr

/-- The operations of the block (R96), in the order of the table. A `FUNC` row carries the operands its rule lists; a
`STEP` row acts on the step's record and signals, which the state holds; a `CTL` row of the control surface is a
step whose control word selects it, and carries that step's input record (R94, R95). -/
inductive Instr where
  | latMake (slow fast R : Nat)
  | latAdd (a b : Latency) (R : Nat)
  | trLookup (tCK : Ratio) (tbl : List TimingEntry)
  | trPeriod (targetFreq : Ratio) (R : Nat)
  | trSyslat (x R : Nat)
  | trRawphase (cl cwl clSys0 cwlSys0 cmdLat serTicks desTicks R : Nat)
  | trBorrow (raw : Int) (sys0 R : Nat)
  | trRdlat (clSys serSlow desSlow : Nat)
  | trWrlat (cwlSys : Nat)
  | trWrtap (cwlSys : Nat)
  | trResolve (cfg : Cfg)
  | tdlStep (line : Line) (x : Bool)
  | tdlRead (line : Line) (x : Bool)
  | rdvStep
  | rdvOut
  | wrenStep
  | arbHist
  | arbAllow
  | arbSlip
  | arbOr
  | arbOut
  | arbStep
  | clkOut
  | simpleStep
  | bsOut (lane : Lane)
  | bsStep (lane : Lane) (x : Bits) (rst : Bool)
  | bsInc (lane : Lane) (inc rst : Bool)
  | bsRst (lane : Lane) (rst : Bool)
  | wrdqPath
  | wrdmPath
  | wrdqsPath
  | rddqPath
  | rdDist
  | sfDqoe
  | sfPre
  | sfPost
  | sfDqsoe
  | sfWord
  | rhWrap (cfg : Cfg)
  | rhSer
  | rhDes
  | ctlRst (inp : In)
  | ctlWlevelEn (inp : In)
  | ctlWlevelStrobe (inp : In)
  | ctlDlySel (inp : In)
  | ctlRdBsRst (inp : In)
  | ctlRdBsInc (inp : In)
  | ctlWrBsRst (inp : In)
  | ctlWrBsInc (inp : In)
  | ctlRdphase (inp : In)
  | ctlWrphase (inp : In)
  | phyConstruct (cfg : Cfg)
  | phyStep (inp : In)
deriving DecidableEq, Repr

/-- The class of an operation: the `format` field of the table (R94). -/
inductive Format where
  | func
  | step
  | ctl
deriving DecidableEq, Repr

/-- The class each row of the table records (R94). -/
def Instr.format : Instr → Format
  | .latMake .. | .latAdd .. | .trLookup .. | .trPeriod .. | .trSyslat .. | .trRawphase .. | .trBorrow ..
  | .trRdlat .. | .trWrlat .. | .trWrtap .. | .trResolve .. | .rhWrap .. | .phyConstruct .. => .func
  | .tdlStep .. | .tdlRead .. | .rdvStep | .rdvOut | .wrenStep | .arbHist | .arbAllow | .arbSlip | .arbOr
  | .arbOut | .arbStep | .clkOut | .simpleStep | .bsOut .. | .bsStep .. | .wrdqPath | .wrdmPath | .wrdqsPath
  | .rddqPath | .rdDist | .sfDqoe | .sfPre | .sfPost | .sfDqsoe | .sfWord | .rhSer | .rhDes | .phyStep .. => .step
  | .bsInc .. | .bsRst .. | .ctlRst .. | .ctlWlevelEn .. | .ctlWlevelStrobe .. | .ctlDlySel .. | .ctlRdBsRst ..
  | .ctlRdBsInc .. | .ctlWrBsRst .. | .ctlWrBsInc .. | .ctlRdphase .. | .ctlWrphase .. => .ctl

end Sys2Proof
end

