-- ==== Sys2Proof/WellFormed.lean ====
section
/-! DEFINITION. What counts as a configuration, an input record and an operation of the block: the declared ranges of
R8, R31, R81, R84, R85, R95 and R317. Values outside them are ill-typed (R317); the machine refuses them by name. -/

namespace Sys2Proof

/-- A positive fraction: R122 refuses `targetFreq ≤ 0` by typing, R121 asks for positive thresholds. -/
def Ratio.positive (r : Ratio) : Bool := decide (0 < r.num) && decide (0 < r.den)

/-- The invariant `0 ≤ fastTicks < R` of a latency (R110). -/
def Latency.canonical (R : Nat) (l : Latency) : Bool := decide (l.fastTicks < R)

/-- The table's thresholds are positive and strictly decrease: `T_0 > T_1 > ... > T_{m−1} > 0` (R121). -/
def thresholdsDecrease : List TimingEntry → Bool
  | [] => true
  | [e] => e.threshold.positive
  | e :: f :: rest =>
    e.threshold.positive
      && decide (f.threshold.num * e.threshold.den < e.threshold.num * f.threshold.den)
      && thresholdsDecrease (f :: rest)

/-- `R ≥ 4` and a power of two (R8, R317). -/
def ratioTyped (R : Nat) : Bool := decide (4 ≤ R) && decide (2 ^ Nat.log2 R = R)

/-- A word pattern of the configuration has width `W` (R8, R317). -/
def Cfg.patternsTyped (c : Cfg) : Bool :=
  [c.patClk, c.patToggle, c.patPre, c.patPost, c.patWlIdle, c.patWlStrobe].all fun p => decide (p.length = c.W)

/-- Every field of the configuration lies in its declared range (R317). `N mod 8` is not among the ranges: it is the
error `InvalidLaneWidth` (R307). -/
def Cfg.wellTyped (c : Cfg) : Bool :=
  ratioTyped c.R && decide (c.sReset < c.W) && c.serLatency.canonical c.R && c.desLatency.canonical c.R
    && c.targetFreq.positive && thresholdsDecrease c.table && c.patternsTyped

/-- The widths of a phase record (R81). -/
def Phase.shaped (N : Nat) (p : Phase) : Bool :=
  decide (p.wrData.length = 2 * N) && decide (p.wrMask.length = 2 * (N / 8))

/-- The widths of the control record (R31): `NB` selector bits, phase offsets below `R`. -/
def Ctl.shaped (R N : Nat) (c : Ctl) : Bool :=
  decide (c.rdPhase < R) && decide (c.wrPhase < R) && decide (c.dlySel.length = N / 8)

/-- `n` lane words of `W` bits. -/
def wordsShaped (n W : Nat) (ws : List Bits) : Bool :=
  decide (ws.length = n) && ws.all fun w => decide (w.length = W)

/-- The widths of the pad input record (R85). -/
def padShaped (R N : Nat) (p : PadInLanes Bits) : Bool :=
  wordsShaped N (2 * R) p.dqI && wordsShaped (N / 8) (2 * R) p.dmiI && wordsShaped (N / 8) (2 * R) p.dqsI

/-- An input record of a block with ratio `R` and `N` data lanes (R80). -/
def In.shaped (R N : Nat) (inp : In) : Bool :=
  decide (inp.phases.length = R) && inp.phases.all (Phase.shaped N) && inp.ctl.shaped R N && padShaped R N inp.pad

/-- An instance index below the group's size (R30). -/
def Lane.inRange (N : Nat) : Lane → Bool
  | .wrDq b => decide (b < N)
  | .wrDm y => decide (y < N / 8)
  | .wrDqs y => decide (y < N / 8)
  | .rdDq b => decide (b < N)

/-- The rows that a control word can name: the ten of the control surface and `PHY.STEP`, which every control word
selects (R94). -/
inductive StepRow where
  | ctlRst
  | ctlWlevelEn
  | ctlWlevelStrobe
  | ctlDlySel
  | ctlRdBsRst
  | ctlRdBsInc
  | ctlWrBsRst
  | ctlWrBsInc
  | ctlRdphase
  | ctlWrphase
  | phyStep
deriving DecidableEq, Repr

/-- The one row that names a step. Several rows of the table can be selected by one control word (R94) and every one
of them acts in the step; the name of the step is the first selected row in the order below. DESIGN CHOICE (log
entry 3): the order. The whole record stays with the name, so nothing of the step is lost. -/
def Ctl.stepRow (c : Ctl) : StepRow :=
  if c.rst then .ctlRst
  else if c.wlevelEn && c.wlevelStrobe then .ctlWlevelStrobe
  else if c.wlevelEn then .ctlWlevelEn
  else if c.rdBsRst then .ctlRdBsRst
  else if c.rdBsInc then .ctlRdBsInc
  else if c.wrBsRst then .ctlWrBsRst
  else if c.wrBsInc then .ctlWrBsInc
  else if c.dlySel.any id then .ctlDlySel
  else if c.rdPhase ≠ 0 then .ctlRdphase
  else if c.wrPhase ≠ 0 then .ctlWrphase
  else .phyStep

/-- A step named by `row`: a record of the block's shape whose control word names that row. -/
def In.names (R N : Nat) (row : StepRow) (inp : In) : Bool := inp.shaped R N && decide (inp.ctl.stepRow = row)

/-- A well-formed operation for a block with ratio `R` and `N` data lanes: every operand in the range its rule
declares. -/
def Instr.wellFormed (R N : Nat) : Instr → Bool
  | .latMake _ _ r => decide (0 < r)
  | .latAdd a b r => decide (0 < r) && a.canonical r && b.canonical r
  | .trLookup tCK tbl => tCK.positive && thresholdsDecrease tbl
  | .trPeriod f r => f.positive && decide (0 < r)
  | .trSyslat _ r => decide (0 < r)
  | .trRawphase _ _ _ _ _ serTicks desTicks r => decide (serTicks < r) && decide (desTicks < r)
  | .trBorrow _ _ r => decide (0 < r)
  | .trRdlat _ _ _ => true
  | .trWrlat _ => true
  | .trWrtap _ => true
  | .trResolve c => c.wellTyped
  | .tdlStep _ _ => true
  | .tdlRead _ _ => true
  | .rdvStep => true
  | .rdvOut => true
  | .wrenStep => true
  | .arbHist => true
  | .arbAllow => true
  | .arbSlip => true
  | .arbOr => true
  | .arbOut => true
  | .arbStep => true
  | .clkOut => true
  | .simpleStep => true
  | .bsOut lane => lane.inRange N
  | .bsStep lane x _ => lane.inRange N && decide (x.length = 2 * R)
  | .bsInc lane _ _ => lane.inRange N
  | .bsRst lane _ => lane.inRange N
  | .wrdqPath => true
  | .wrdmPath => true
  | .wrdqsPath => true
  | .rddqPath => true
  | .rdDist => true
  | .sfDqoe => true
  | .sfPre => true
  | .sfPost => true
  | .sfDqsoe => true
  | .sfWord => true
  | .rhWrap c => c.wellTyped && c.wrapped
  | .rhSer => true
  | .rhDes => true
  | .ctlRst inp => inp.names R N .ctlRst
  | .ctlWlevelEn inp => inp.names R N .ctlWlevelEn
  | .ctlWlevelStrobe inp => inp.names R N .ctlWlevelStrobe
  | .ctlDlySel inp => inp.names R N .ctlDlySel
  | .ctlRdBsRst inp => inp.names R N .ctlRdBsRst
  | .ctlRdBsInc inp => inp.names R N .ctlRdBsInc
  | .ctlWrBsRst inp => inp.names R N .ctlWrBsRst
  | .ctlWrBsInc inp => inp.names R N .ctlWrBsInc
  | .ctlRdphase inp => inp.names R N .ctlRdphase
  | .ctlWrphase inp => inp.names R N .ctlWrphase
  | .phyConstruct c => c.wellTyped
  | .phyStep inp => inp.names R N .phyStep

end Sys2Proof
end

