-- ==== Sys2Proof/Decode.lean ====
section
/-! DEFINITION. The bit form of a step: the control word of R95 and, after it, the phase and pad records of R81 and
R85 "written out field by field" (R100), lowest field first; the decoder that reads it and the encoder that writes
it. `FUNC` rows and the component rows of class `STEP` have no encoding (R94). -/

namespace Sys2Proof

/-! ### Fields -/

/-- The `n` low bits of a number, bit 0 first (R12). -/
def bitsOf : Nat → Nat → Bits
  | 0, _ => []
  | n + 1, w => decide (w % 2 = 1) :: bitsOf n (w / 2)

/-- The number whose bit `i` is bit `i` of the word (R12). -/
def natOf : Bits → Nat
  | [] => 0
  | b :: bs => b.toNat + 2 * natOf bs

/-- Writes a one-bit field below the fields already written. -/
def putBit (b : Bool) (rest : Nat) : Nat := b.toNat + 2 * rest

/-- Writes a field of known width below the fields already written. -/
def putVec {n : Nat} (v : BitVec n) (rest : Nat) : Nat := v.toNat + 2 ^ n * rest

/-- Writes an `n`-bit number below the fields already written. -/
def putNat (n v rest : Nat) : Nat := v % 2 ^ n + 2 ^ n * rest

/-- Writes a word below the fields already written. -/
def putBits (bs : Bits) (rest : Nat) : Nat := natOf bs + 2 ^ bs.length * rest

/-- Reads a one-bit field. -/
def getBit (w : Nat) : Bool := decide (w % 2 = 1)

/-! ### The control word (R95) -/

/-- Width of one phase-offset field: `log2(R)` bits (R31). -/
def phaseBits (R : Nat) : Nat := Nat.log2 R

/-- Width of the control word: `7 + 2·log2(R) + NB` bits (R95). -/
def cwBits (R N : Nat) : Nat := 7 + 2 * phaseBits R + N / 8

/-- Zero bits that fill the control word up to whole bytes. DESIGN CHOICE (log entry 4): the spec packs the control
word and gives no container for it. -/
def cwPad (R N : Nat) : Nat := (8 - cwBits R N % 8) % 8

/-- The control word `CW` of a control record, low to high: `rst`, `wlevelEn`, `wlevelStrobe`, `rdBsRst`, `rdBsInc`,
`wrBsRst`, `wrBsInc`, `rdPhase`, `wrPhase`, `dlySel` (R95). -/
def Ctl.pack (R : Nat) (c : Ctl) (rest : Nat) : Nat :=
  putBit c.rst (putBit c.wlevelEn (putBit c.wlevelStrobe (putBit c.rdBsRst (putBit c.rdBsInc (putBit c.wrBsRst
    (putBit c.wrBsInc (putNat (phaseBits R) c.rdPhase (putNat (phaseBits R) c.wrPhase (putBits c.dlySel rest)))))))))

/-- The control word as a number (R95). -/
def Ctl.toWord (R : Nat) (c : Ctl) : Nat := c.pack R 0

/-- The control record that a control word holds (R95). -/
def Ctl.ofWord (R N w : Nat) : Ctl :=
  let p := phaseBits R
  { rst := getBit w
    wlevelEn := getBit (w / 2)
    wlevelStrobe := getBit (w / 2 / 2)
    rdBsRst := getBit (w / 2 / 2 / 2)
    rdBsInc := getBit (w / 2 / 2 / 2 / 2)
    wrBsRst := getBit (w / 2 / 2 / 2 / 2 / 2)
    wrBsInc := getBit (w / 2 / 2 / 2 / 2 / 2 / 2)
    rdPhase := w / 2 / 2 / 2 / 2 / 2 / 2 / 2 % 2 ^ p
    wrPhase := w / 2 / 2 / 2 / 2 / 2 / 2 / 2 / 2 ^ p % 2 ^ p
    dlySel := bitsOf (N / 8) (w / 2 / 2 / 2 / 2 / 2 / 2 / 2 / 2 ^ p / 2 ^ p) }

/-! ### The phase and pad records -/

/-- The phase record written out in the order of the table of R81; `ca` row by row, `k = 0` first (R83). -/
def Phase.pack (p : Phase) (rest : Nat) : Nat :=
  putBit p.cmdValid (putVec p.cs (putVec p.ca0 (putVec p.ca1 (putVec p.ca2 (putVec p.ca3 (putBit p.cke (putBit p.odt
    (putBit p.resetN (putBits p.wrData (putBits p.wrMask (putBit p.wrEn (putBit p.rdEn rest))))))))))))

/-- Width of one phase record: 28 command bits, six flags, `2·N` data bits and `2·NB` mask bits (R81). -/
def phaseWidth (N : Nat) : Nat := 34 + 2 * N + 2 * (N / 8)

/-- The part of a phase record that follows the command rows. -/
def Phase.unpackTail (N : Nat) (cmdValid : Bool) (cs : BitVec 4) (ca0 ca1 ca2 ca3 : BitVec 6) (w : Nat) : Phase × Nat :=
  let d := w / 2 / 2 / 2
  let m := d / 2 ^ (2 * N)
  let e := m / 2 ^ (2 * (N / 8))
  ({ cmdValid := cmdValid, cs := cs, ca0 := ca0, ca1 := ca1, ca2 := ca2, ca3 := ca3
     cke := getBit w
     odt := getBit (w / 2)
     resetN := getBit (w / 2 / 2)
     wrData := bitsOf (2 * N) d
     wrMask := bitsOf (2 * (N / 8)) m
     wrEn := getBit e
     rdEn := getBit (e / 2) }, e / 2 / 2)

/-- Reads one phase record and answers what lies above it. -/
def Phase.unpack (N w : Nat) : Phase × Nat :=
  let a := w / 2
  let b := a / 2 ^ 4
  let c := b / 2 ^ 6
  let d := c / 2 ^ 6
  let e := d / 2 ^ 6
  Phase.unpackTail N (getBit w) (BitVec.ofNat 4 a) (BitVec.ofNat 6 b) (BitVec.ofNat 6 c) (BitVec.ofNat 6 d)
    (BitVec.ofNat 6 e) (e / 2 ^ 6)

/-- The phase records in order, phase 0 lowest. -/
def packPhases : List Phase → Nat → Nat
  | [], rest => rest
  | p :: ps, rest => p.pack (packPhases ps rest)

/-- Reads `n` phase records. -/
def unpackPhases (N : Nat) : Nat → Nat → List Phase × Nat
  | 0, w => ([], w)
  | n + 1, w =>
    let (p, w1) := Phase.unpack N w
    let (ps, w2) := unpackPhases N n w1
    (p :: ps, w2)

/-- Lane words in index order, lane 0 lowest. -/
def packWords : List Bits → Nat → Nat
  | [], rest => rest
  | v :: vs, rest => putBits v (packWords vs rest)

/-- Reads `n` lane words of `W` bits. -/
def unpackWords (W : Nat) : Nat → Nat → List Bits × Nat
  | 0, w => ([], w)
  | n + 1, w =>
    let (vs, w2) := unpackWords W n (w / 2 ^ W)
    (bitsOf W w :: vs, w2)

/-! ### The record of a step -/

/-- Width of the record of a step. -/
def recordBits (R N : Nat) : Nat :=
  cwBits R N + cwPad R N + R * phaseWidth N + (N + 2 * (N / 8)) * (2 * R)

/-- Why a number is no record of a step. -/
inductive DecodeError where
  /-- It has a 1 above the record's last bit: no such field exists (R95, R97). -/
  | beyondRecord
  /-- A bit between the control word and the next whole byte is 1; "in `CW` form they must be 0" (U21). -/
  | reservedBits
deriving DecidableEq, Repr

/-- The record of a step as a number: control word, fill bits, phases, pad words (R95, R100). -/
def encodeIn (R N : Nat) (inp : In) : Nat :=
  inp.ctl.pack R (putNat (cwPad R N) 0 (packPhases inp.phases
    (packWords inp.pad.dqI (packWords inp.pad.dmiI (packWords inp.pad.dqsI 0)))))

/-- The record of a step that a number holds, or why it holds none. -/
def decodeIn (R N w : Nat) : Except DecodeError In :=
  let above := w / 2 ^ cwBits R N
  let (phases, w1) := unpackPhases N R (above / 2 ^ cwPad R N)
  let (dqI, w2) := unpackWords (2 * R) N w1
  let (dmiI, w3) := unpackWords (2 * R) (N / 8) w2
  let (dqsI, w4) := unpackWords (2 * R) (N / 8) w3
  if w4 ≠ 0 then .error .beyondRecord
  else if above % 2 ^ cwPad R N ≠ 0 then .error .reservedBits
  else .ok { phases := phases, ctl := Ctl.ofWord R N w, pad := { dqI := dqI, dmiI := dmiI, dqsI := dqsI } }

/-! ### Operations -/

/-- The operation that a step's record names. -/
def Instr.ofIn (inp : In) : Instr :=
  match inp.ctl.stepRow with
  | .ctlRst => .ctlRst inp
  | .ctlWlevelEn => .ctlWlevelEn inp
  | .ctlWlevelStrobe => .ctlWlevelStrobe inp
  | .ctlDlySel => .ctlDlySel inp
  | .ctlRdBsRst => .ctlRdBsRst inp
  | .ctlRdBsInc => .ctlRdBsInc inp
  | .ctlWrBsRst => .ctlWrBsRst inp
  | .ctlWrBsInc => .ctlWrBsInc inp
  | .ctlRdphase => .ctlRdphase inp
  | .ctlWrphase => .ctlWrphase inp
  | .phyStep => .phyStep inp

/-- The decoder: total on every number, for a block with ratio `R` and `N` data lanes. -/
def decode (R N w : Nat) : Except DecodeError Instr :=
  match decodeIn R N w with
  | .ok inp => .ok (Instr.ofIn inp)
  | .error e => .error e

/-- The input record an operation carries, for the rows that name a step. -/
def Instr.record : Instr → Option In
  | .latMake .. | .latAdd .. | .trLookup .. | .trPeriod .. | .trSyslat .. | .trRawphase .. | .trBorrow ..
  | .trRdlat .. | .trWrlat .. | .trWrtap .. | .trResolve .. | .rhWrap .. | .phyConstruct ..
  | .tdlStep .. | .tdlRead .. | .rdvStep | .rdvOut | .wrenStep | .arbHist | .arbAllow | .arbSlip | .arbOr
  | .arbOut | .arbStep | .clkOut | .simpleStep | .bsOut .. | .bsStep .. | .wrdqPath | .wrdmPath | .wrdqsPath
  | .rddqPath | .rdDist | .sfDqoe | .sfPre | .sfPost | .sfDqsoe | .sfWord | .rhSer | .rhDes
  | .bsInc .. | .bsRst .. => none
  | .ctlRst inp | .ctlWlevelEn inp | .ctlWlevelStrobe inp | .ctlDlySel inp | .ctlRdBsRst inp | .ctlRdBsInc inp
  | .ctlWrBsRst inp | .ctlWrBsInc inp | .ctlRdphase inp | .ctlWrphase inp | .phyStep inp => some inp

/-- The encoder. "Encoding: none" for the construction-time rows, and no word of their own for the component rows,
which every control word selects (R94). -/
def encode (R N : Nat) (i : Instr) : Option Nat := i.record.map (encodeIn R N)

/-- The operation the decoder of the base design (`R = 8`, `N = 16`, R8) reads from a record whose low `nbits` bits
are those of `w` and whose other bits are 0. -/
def decodeTableWord (nbits w : Nat) : Option Instr :=
  match decode 8 16 (w % 2 ^ nbits) with
  | .ok i => some i
  | .error _ => none

end Sys2Proof
end

