-- ==== Sys2Proof/Machine/State.lean ====
section
/-! DEFINITION. Everything the block holds (R20, R36), the step's records and internal signals, and the machine right
after reset (R40, R331). -/

namespace Sys2Proof.Machine

/-- One value for each pad output lane and each output-enable, in the order of the table of R86: the words of a step,
the wrapper's pairs of half-words, or the wrapper's queues. -/
structure PadLanes (α β : Type) where
  clk : α
  cke : α
  odt : α
  resetN : α
  cs : α
  ca : List α
  dqO : List α
  dqOe : β
  dmiO : List α
  dmiOe : β
  dqsO : List α
  dqsOe : β
deriving DecidableEq, Repr

/-- What one lane or enable of the wrapped block carries in one step: one value per half-step (R252). -/
structure Halves (α : Type) where
  first : α
  second : α
deriving DecidableEq, Repr

/-- One Bit Lane Transcoder instance (R29): the buffer of `2·W` bits, older word in the low half, and the rotation
`S`. -/
structure Transcoder where
  buf : Bits
  rot : Nat
deriving DecidableEq, Repr

/-- The command arbiter's registers (R24): `vh j` is the history bit of the slot `j + 1` ticks before fast tick 0,
`spill j` what earlier steps have placed on fast tick `j`, `outw` the finished window of `R` rows. -/
structure Arbiter where
  vh0 : Bool
  vh1 : Bool
  vh2 : Bool
  spill0 : Row
  spill1 : Row
  spill2 : Row
  outw : List Row
deriving DecidableEq, Repr

/-- The state of the block (R20). -/
structure Regs where
  /-- taps of the read-valid line, index 0 newest (R22) -/
  rdLine : List Bool
  /-- taps of the write-enable line, index 0 newest (R23) -/
  wrLine : List Bool
  arb : Arbiter
  /-- chip-enable lane register (R28) -/
  ckeReg : Bits
  /-- on-die-termination lane register (R28) -/
  odtReg : Bits
  /-- reset lane register (R28) -/
  rstnReg : Bits
  /-- write-data transcoders, one per data lane (R30) -/
  wrDq : List Transcoder
  /-- write-mask transcoders, one per byte lane, none without `maskedWrite` (R30) -/
  wrDm : List Transcoder
  /-- write-strobe transcoders, one per byte lane (R30) -/
  wrDqs : List Transcoder
  /-- read-data transcoders, one per data lane (R30) -/
  rdDq : List Transcoder
deriving DecidableEq, Repr

/-- The state of the rate-halving wrapper (R36, R253): the last `RH_SER` half-words of every output lane and bits of
every enable, the last `RH_DES` half-words of every input lane, oldest first. -/
structure WrapQueues where
  serq : PadLanes (List Bits) (List Bool)
  desq : PadInLanes (List Bits)
deriving DecidableEq, Repr

/-- The output record of a step (R80, R82, R86). `rdData[p]` and `rdValid[p]` are the two fields of
`out.phase[p]`. -/
structure Out where
  rdData : List Bits
  rdValid : List Bool
  pad : PadLanes Bits Bool
deriving DecidableEq, Repr

/-- The internal signals that the rules of a step name. The block holds none of them in a register (R26); the state
keeps the values of the last step in which they were computed. -/
structure Wires where
  /-- `H[0 .. R+LB−1]`, the history window, oldest slot first (R167, R172) -/
  hist : List Bool
  /-- `allowed(p)` (R168) -/
  allowed : List Bool
  /-- `contrib` of each phase on the `R + LB` fast ticks of the window (R169) -/
  contrib : List (List Row)
  /-- the bus window of `R + LB` fast ticks (R170, R172) -/
  bus : List Row
  preamble : Bool
  postamble : Bool
  /-- the strobe word `sw` (R235) -/
  strobeWord : Bits
  /-- `rdWord(b)` of each data lane (R211) -/
  rdWord : List Bits
  /-- the inner block's pad inputs when the wrapper is present (R255) -/
  padIn : PadInLanes Bits
deriving DecidableEq, Repr

/-- The value an operation returned, for the operations that return one and write no register: the construction-time
functions, `TDL.READ` and `BS.OUT`. -/
inductive Ret where
  | nothing
  | latency (l : Latency)
  | period (t : Ratio)
  | casPair (cl cwl : Nat)
  | steps (n : Nat)
  | rawPhases (rd wr : Int)
  | borrowed (phase sys : Nat)
  | settings (st : Settings)
  | taps (input : Bool) (taps : List Bool) (output : Bool)
  | word (w : Bits)
deriving DecidableEq, Repr

/-- What the parties outside the block have asked for and the machine has not yet taken (R17): a call of a
construction-time function, which has no encoding, or the record of one step as a number. -/
inductive Stimulus where
  | call (i : Instr)
  | step (record : Nat)
deriving DecidableEq, Repr

/-- The machine. `cfg` and `settings` are the constants that construction fixes (R33); `regs` and `wrap` are the
state of the spec (R20, R36); `inp` and `out` are the records of the step (R80). `wires`, `outer`, `ret` and
`pending` are the model's own. -/
structure State where
  cfg : Cfg
  settings : Settings
  regs : Regs
  wrap : WrapQueues
  inp : In
  out : Out
  /-- the pad outputs of the wrapped block, in half-steps (R252); read only when `WRAPPED` -/
  outer : PadLanes (Halves Bits) (Halves Bool)
  wires : Wires
  ret : Ret
  pending : List Stimulus
deriving DecidableEq, Repr

/-- Why the machine stops: the closed taxonomy of R305. Each is "fatal at construction": no instance exists
afterwards (R309). Safe: the spec gives the same stop. -/
inductive Fault where
  /-- Code 1. Raised by `TR.LOOKUP`, and by `TR.RESOLVE`, `RH.WRAP` and `PHY.CONSTRUCT` through it, when no table entry
  is reached by the period (R306). Safe. -/
  | unsupportedTiming
  /-- Code 2. Raised by `PHY.CONSTRUCT`, and `RH.WRAP` through it, when `N mod 8 ≠ 0` (R307). Safe. -/
  | invalidLaneWidth
  /-- Code 3. Raised by `TR.WRTAP`, and by `TR.RESOLVE`, `RH.WRAP` and `PHY.CONSTRUCT` through it, when
  `wrtap < 0` (R308). Safe. -/
  | negativeTapIndex
deriving DecidableEq, Repr

/-- Why the machine does not accept what it was given: terms that no field of the block can hold (R317, U20, U21
"refuse"). None is raised for a well-formed operation on the block it is well-formed for. -/
inductive Refusal where
  /-- An operation without a meaning in this model; no arm of `exec` answers with it. Safe. -/
  | notModelled (mnemonic : String)
  /-- A configuration with a field outside its declared range, given to `TR.RESOLVE`, `RH.WRAP` or `PHY.CONSTRUCT`, or
  one without `WRAPPED` given to `RH.WRAP` (R317, R251). Safe. -/
  | illTypedConfig
  /-- An operand outside its declared range: a ratio 0, a latency that is not canonical, thresholds that do not
  decrease, a frequency that is not positive, a lane word that has not `W` bits (R110, R121, R122, R317). Safe. -/
  | illTypedOperand
  /-- An input record whose fields have not the widths of this block (R31, R81, R85), given to `PHY.STEP` or to a row
  of the control surface. Safe. -/
  | illTypedInput
  /-- A transcoder instance that this block does not have: an index beyond its group, or a mask instance without
  `maskedWrite`, given to `BS.OUT`, `BS.STEP`, `BS.INC` or `BS.RST` (R30, R209). Safe. -/
  | noSuchInstance
  /-- A number in the list of stimuli that is no record of a step (R95, U21); raised by the fetch. Safe. -/
  | badRecord (reason : DecodeError)
  /-- A call, in the list of stimuli, of an operation that is not a construction-time function: nothing selects it
  by itself (R94); raised by the fetch. Safe. -/
  | notCallable
deriving DecidableEq, Repr

/-! ### Reset -/

/-- The configuration of the machine at reset: the base design of R8 and R35. Every OPEN field has the value that the
spec's own examples use. DESIGN CHOICE (log entry 1); unsafe for a statement that rests on one of these values. -/
def baseCfg : Cfg :=
  { R := 8
    N := 16
    cmdLatency := 4
    serLatency := ⟨0, 0⟩
    desLatency := ⟨0, 0⟩
    targetFreq := ⟨100000000, 1⟩
    table := [⟨⟨2, 1000000000⟩, 10, 6⟩, ⟨⟨125, 100000000000⟩, 14, 8⟩]
    maskedWrite := true
    cmdDelay := none
    phyType := 0
    arbEnable := true
    arbHistory := .raw
    frameSwap := false
    sReset := 0
    patClk := bitsOf 16 0x5555
    patToggle := bitsOf 16 0x5555
    patPre := bitsOf 16 0x5540
    patPost := bitsOf 16 0x0015
    patWlIdle := bitsOf 16 0x0000
    patWlStrobe := bitsOf 16 0x0001
    wrapped := false
    rhSer := 0
    rhDes := 0 }

/-- The settings that `TR.RESOLVE` gives for the base design: the worked example of R129. -/
def baseSettings : Settings :=
  { cl := 14, cwl := 8, readLatency := 5, writeLatency := 2, cmdLatency := 4, readPhase := 6, writePhase := 4
    clSys := 3, cwlSys := 2, wrtap := 1, phyType := 0, cmdDelay := none, R := 8, N := 16 }

/-- A phase record with every field 0. -/
def Phase.idle (N : Nat) : Phase :=
  { cmdValid := false, cs := 0, ca0 := 0, ca1 := 0, ca2 := 0, ca3 := 0, cke := false, odt := false, resetN := false
    wrData := zeros (2 * N), wrMask := zeros (2 * (N / 8)), wrEn := false, rdEn := false }

/-- Pad input words that are all 0. -/
def idlePad (R N : Nat) : PadInLanes Bits :=
  { dqI := List.replicate N (zeros (2 * R))
    dmiI := List.replicate (N / 8) (zeros (2 * R))
    dqsI := List.replicate (N / 8) (zeros (2 * R)) }

/-- The record of an idle step: every field 0, but for the phase offsets, which stand at the given values (R31, R99). -/
def idleIn (R N rdPhase wrPhase : Nat) : In :=
  { phases := List.replicate R (Phase.idle N)
    ctl :=
      { rst := false, wlevelEn := false, wlevelStrobe := false, rdBsRst := false, rdBsInc := false
        wrBsRst := false, wrBsInc := false, rdPhase := rdPhase, wrPhase := wrPhase, dlySel := zeros (N / 8) }
    pad := idlePad R N }

/-- Pad output words that are all 0, every enable 0. -/
def idlePadOut (R N : Nat) : PadLanes Bits Bool :=
  { clk := zeros (2 * R), cke := zeros R, odt := zeros R, resetN := zeros R, cs := zeros R
    ca := List.replicate 6 (zeros R)
    dqO := List.replicate N (zeros (2 * R)), dqOe := false
    dmiO := List.replicate (N / 8) (zeros (2 * R)), dmiOe := false
    dqsO := List.replicate (N / 8) (zeros (2 * R)), dqsOe := false }

/-- The output record before any step. -/
def idleOut (R N : Nat) : Out :=
  { rdData := List.replicate R (zeros (2 * N)), rdValid := List.replicate R false, pad := idlePadOut R N }

/-- The signals before any step. -/
def idleWires (R N : Nat) : Wires :=
  { hist := zeros (R + lookback), allowed := zeros R
    contrib := List.replicate R (List.replicate (R + lookback) 0), bus := List.replicate (R + lookback) 0
    preamble := false, postamble := false, strobeWord := zeros (2 * R)
    rdWord := List.replicate N (zeros (2 * R)), padIn := idlePad R N }

/-- No queue: the wrapper is absent (R36). -/
def noQueues : WrapQueues :=
  { serq :=
      { clk := [], cke := [], odt := [], resetN := [], cs := [], ca := [], dqO := [], dqOe := [], dmiO := []
        dmiOe := [], dqsO := [], dqsOe := [] }
    desq := { dqI := [], dmiI := [], dqsI := [] } }

/-- No half-step outputs: the wrapper is absent (R252). -/
def noOuter : PadLanes (Halves Bits) (Halves Bool) :=
  { clk := ⟨[], []⟩, cke := ⟨[], []⟩, odt := ⟨[], []⟩, resetN := ⟨[], []⟩, cs := ⟨[], []⟩, ca := []
    dqO := [], dqOe := ⟨false, false⟩, dmiO := [], dmiOe := ⟨false, false⟩, dqsO := [], dqsOe := ⟨false, false⟩ }

/-- A transcoder after construction or reset: `buf = 0`, `S = S_RESET` (R40, R205). -/
def Transcoder.cleared (W sReset : Nat) : Transcoder := { buf := zeros (2 * W), rot := sReset }

/-- The registers at construction (R40): every register zero, every rotation `S_RESET`, with the sizes that R22, R23,
R24, R28 and R30 give for the settings. -/
def Regs.initial (c : Cfg) (st : Settings) : Regs :=
  { rdLine := zeros st.readLatency
    wrLine := zeros (st.wrtap + 2)
    arb :=
      { vh0 := false, vh1 := false, vh2 := false, spill0 := 0, spill1 := 0, spill2 := 0
        outw := List.replicate c.R 0 }
    ckeReg := zeros c.R
    odtReg := zeros c.R
    rstnReg := zeros c.R
    wrDq := List.replicate c.N (Transcoder.cleared c.W c.sReset)
    wrDm := List.replicate (if c.maskedWrite then c.NB else 0) (Transcoder.cleared c.W c.sReset)
    wrDqs := List.replicate c.NB (Transcoder.cleared c.W c.sReset)
    rdDq := List.replicate c.N (Transcoder.cleared c.W c.sReset) }

/-- The machine right after reset. Construction is the only reset of the whole block (R40, R330): this is the base
design right after `PHY.CONSTRUCT`, with nothing asked of it yet. -/
def State.reset : State :=
  { cfg := baseCfg
    settings := baseSettings
    regs := Regs.initial baseCfg baseSettings
    wrap := noQueues
    inp := idleIn 8 16 6 4
    out := idleOut 8 16
    outer := noOuter
    wires := idleWires 8 16
    ret := .nothing
    pending := [] }

end Sys2Proof.Machine
end

