-- ==== Sys2Proof/Machine/Ops.lean ====
section
/-! DEFINITION. The shared operations over the block's registers: how an operation answers, the slice of a word, the
tapped delay line, the transcoder, and the lookup of an instance. -/

namespace Sys2Proof.Machine

/-- What one operation answers. -/
abbrev Result := Host.Outcome State Fault Refusal

/-! ### How an operation answers -/

/-- `raise <Error>` (R15, R309): construction stops and the named error is the result. Nothing is saved, no mode
changes and there is no handler and no return (R309). -/
def raise (f : Fault) : Result := .fault f

/-- The operation returns a value and writes no register. -/
def returning (v : Ret) (s : State) : Result := .next { s with ret := v }

/-- An operand outside its declared range is not accepted (R317). -/
def whenTyped (ok : Bool) (why : Refusal) (answer : Result) : Result := if ok then answer else .refused why

/-- Whether this block accepts an input record (R80): the widths of its own configuration. -/
def admitsInput (s : State) (inp : In) : Bool := inp.shaped s.cfg.R s.cfg.N

/-- Whether every field of a configuration lies in its declared range (R317). -/
def admitsConfig (c : Cfg) : Bool := c.wellTyped

/-! ### Words -/

/-- `v[lo + n − 1 : lo]` of R13: the `n` bits from bit `lo` on. -/
def slice (v : Bits) (lo n : Nat) : Bits := (v.drop lo).take n

/-! ### The tapped delay line -/

/-- `TDL.STEP` (R151): tap 0 takes the driving value, every other tap its newer neighbour, the oldest is dropped. -/
def tdlShift {α : Type} (taps : List α) (x : α) : List α := (x :: taps).take taps.length

/-- The named output of a delay line: the oldest retained value, `taps[N−1]` (R152). -/
def tdlOutput (taps : List Bool) : Bool := bitAt taps (taps.length - 1)

/-- The taps of one of the two lines (R22, R23). -/
def lineTaps (s : State) : Line → List Bool
  | .rdLine => s.regs.rdLine
  | .wrLine => s.regs.wrLine

/-- The state with the taps of one line replaced. -/
def setLine (s : State) (line : Line) (taps : List Bool) : State :=
  match line with
  | .rdLine => { s with regs := { s.regs with rdLine := taps } }
  | .wrLine => { s with regs := { s.regs with wrLine := taps } }

/-! ### The bit lane transcoder -/

/-- `window(buf, S) = buf[S + W − 1 : S]` (R202). -/
def window (W : Nat) (t : Transcoder) : Bits := slice t.buf t.rot W

/-- `BS.STEP` (R203): without reset the newer word becomes the older and `x` becomes the newer. -/
def shiftIn (W : Nat) (x : Bits) (rst : Bool) (t : Transcoder) : Transcoder :=
  if rst then t else { t with buf := slice t.buf W W ++ x }

/-- `BS.INC` (R204): without reset a pulse advances the rotation by one, `W − 1` wraps to 0. -/
def rotate (W : Nat) (inc rst : Bool) (t : Transcoder) : Transcoder :=
  if rst then t else if inc then { t with rot := (t.rot + 1) % W } else t

/-- `BS.RST` (R205): a reset clears the buffer and returns the rotation to `S_RESET`. -/
def clear (W sReset : Nat) (rst : Bool) (t : Transcoder) : Transcoder :=
  if rst then Transcoder.cleared W sReset else t

/-- One step of one instance: the table of R206. -/
def transcode (W sReset : Nat) (x : Bits) (rst inc : Bool) (t : Transcoder) : Transcoder :=
  match rst, inc with
  | false, false => { buf := slice t.buf W W ++ x, rot := t.rot }
  | false, true => { buf := slice t.buf W W ++ x, rot := (t.rot + 1) % W }
  | true, _ => { buf := zeros (2 * W), rot := sReset }

/-- One step of every instance of a group, each with its own word and controls (R215). -/
def transcodeAll (W sReset : Nat) (x : Nat → Bits) (rst inc : Nat → Bool) (ts : List Transcoder) : List Transcoder :=
  ts.mapIdx fun k t => transcode W sReset (x k) (rst k) (inc k) t

/-- The instance an operation names, if the block has it (R30). -/
def instanceAt (s : State) : Lane → Option Transcoder
  | .wrDq b => s.regs.wrDq[b]?
  | .wrDm y => s.regs.wrDm[y]?
  | .wrDqs y => s.regs.wrDqs[y]?
  | .rdDq b => s.regs.rdDq[b]?

/-- The state with one instance replaced. -/
def setInstance (s : State) (lane : Lane) (t : Transcoder) : State :=
  match lane with
  | .wrDq b => { s with regs := { s.regs with wrDq := s.regs.wrDq.set b t } }
  | .wrDm y => { s with regs := { s.regs with wrDm := s.regs.wrDm.set y t } }
  | .wrDqs y => { s with regs := { s.regs with wrDqs := s.regs.wrDqs.set y t } }
  | .rdDq b => { s with regs := { s.regs with rdDq := s.regs.rdDq.set b t } }

/-- An operation on one instance: the state with what `f` makes of it, or a refusal where the block has no such
instance. -/
def onInstance (lane : Lane) (f : Transcoder → Transcoder) (s : State) : Result :=
  match instanceAt s lane with
  | some t => .next (setInstance s lane (f t))
  | none => .refused .noSuchInstance

/-! ### The wrapper's stream delay -/

/-- The two halves of a word, the earlier first (R254). -/
def halvesOf (w : Bits) : List Bits := [w.take (w.length / 2), w.drop (w.length / 2)]

/-- What leaves a queue of the last half-step values when the two of this step enter: the two oldest (R254, R255). -/
def oldestTwo {α : Type} (empty : α) (queue entering : List α) : Halves α :=
  let stream := queue ++ entering
  { first := stream.getD 0 empty, second := stream.getD 1 empty }

/-- What the queue keeps: as many values as it held. -/
def queueAfter {α : Type} (queue entering : List α) : List α := (queue ++ entering).drop 2

/-- Lane by lane combination of two records of pad outputs. -/
def PadLanes.zipWith {α β γ δ ε ζ : Type} (f : α → γ → ε) (g : β → δ → ζ) (a : PadLanes α β) (b : PadLanes γ δ) :
    PadLanes ε ζ :=
  { clk := f a.clk b.clk
    cke := f a.cke b.cke
    odt := f a.odt b.odt
    resetN := f a.resetN b.resetN
    cs := f a.cs b.cs
    ca := List.zipWith f a.ca b.ca
    dqO := List.zipWith f a.dqO b.dqO
    dqOe := g a.dqOe b.dqOe
    dmiO := List.zipWith f a.dmiO b.dmiO
    dmiOe := g a.dmiOe b.dmiOe
    dqsO := List.zipWith f a.dqsO b.dqsO
    dqsOe := g a.dqsOe b.dqsOe }

/-- The same value on every lane and every enable of a record's shape. -/
def PadLanes.map {α β γ δ : Type} (f : α → γ) (g : β → δ) (a : PadLanes α β) : PadLanes γ δ :=
  { clk := f a.clk, cke := f a.cke, odt := f a.odt, resetN := f a.resetN, cs := f a.cs
    ca := a.ca.map f, dqO := a.dqO.map f, dqOe := g a.dqOe, dmiO := a.dmiO.map f, dmiOe := g a.dmiOe
    dqsO := a.dqsO.map f, dqsOe := g a.dqsOe }

/-- Lane by lane combination of two records of pad inputs. -/
def padInZip {α γ ε : Type} (f : α → γ → ε) (a : PadInLanes α) (b : PadInLanes γ) : PadInLanes ε :=
  { dqI := List.zipWith f a.dqI b.dqI
    dmiI := List.zipWith f a.dmiI b.dmiI
    dqsI := List.zipWith f a.dqsI b.dqsI }

/-- One function on every lane of a record of pad inputs. -/
def padInMap {α γ : Type} (f : α → γ) (a : PadInLanes α) : PadInLanes γ :=
  { dqI := a.dqI.map f, dmiI := a.dmiI.map f, dqsI := a.dqsI.map f }

end Sys2Proof.Machine
end

