-- ==== Sys2Proof/Machine/Operands.lean ====
section
/-! DEFINITION. The operand forms of a step: lane words assembled from phase fields (R90, R91), phase fields
distributed from lane words (R92, R212), payload rows (R83), the controls of each transcoder instance (R213), and
the pad inputs the inner block reads (R255). -/

namespace Sys2Proof.Machine

/-- `in.phase[p]` of a record. -/
def phaseAt (inp : In) (p : Nat) : Phase := inp.phases.getD p (Phase.idle 0)

/-- Write data lane word (R90): bit `i` is bit `(i mod 2)·N + b` of `wrData` of phase `i div 2`. -/
def wrIn (R N : Nat) (inp : In) (b : Nat) : Bits :=
  (List.range (2 * R)).map fun i => bitAt (phaseAt inp (i / 2)).wrData (i % 2 * N + b)

/-- Write mask lane word (R91): bit `i` is bit `(i mod 2)·NB + y` of `wrMask` of phase `i div 2`. -/
def dmIn (R NB : Nat) (inp : In) (y : Nat) : Bits :=
  (List.range (2 * R)).map fun i => bitAt (phaseAt inp (i / 2)).wrMask (i % 2 * NB + y)

/-- The word of a lane in a list of lane words. -/
def wordAt (ws : List Bits) (b : Nat) : Bits := ws.getD b []

/-- `rdData` of phase `p` (R92, R212): bit `(i mod 2)·N + b` is bit `i` of lane `b`'s word, for `i = 2p` and
`i = 2p + 1`. -/
def rdDataOf (N : Nat) (rdWord : List Bits) (p : Nat) : Bits :=
  (List.range (2 * N)).map fun j => bitAt (wordAt rdWord (j % N)) (2 * p + j / N)

/-- The six command/address bits of fast tick `k` of a command (R81). -/
def caRow (ph : Phase) : Nat → BitVec 6
  | 0 => ph.ca0
  | 1 => ph.ca1
  | 2 => ph.ca2
  | 3 => ph.ca3
  | _ => 0

/-- `pay(p)[k]` (R83): bit 0 is chip-select, bit `l + 1` is command/address lane `l`. -/
def payRow (ph : Phase) (k : Nat) : Row := caRow ph k ++ BitVec.ofBool (ph.cs.getLsbD k)

/-- The selection bit of a byte lane, `dlySel[y]` (R269). -/
def selected (ctl : Ctl) (y : Nat) : Bool := bitAt ctl.dlySel y

/-- `rst` of a write-group instance of byte lane `y` (R213). -/
def wrRst (ctl : Ctl) (y : Nat) : Bool := ctl.rst || (selected ctl y && ctl.wrBsRst)

/-- `inc` of a write-group instance of byte lane `y` (R213). -/
def wrInc (ctl : Ctl) (y : Nat) : Bool := selected ctl y && ctl.wrBsInc

/-- `rst` of a read-group instance of byte lane `y` (R213). -/
def rdRst (ctl : Ctl) (y : Nat) : Bool := ctl.rst || (selected ctl y && ctl.rdBsRst)

/-- `inc` of a read-group instance of byte lane `y` (R213). -/
def rdInc (ctl : Ctl) (y : Nat) : Bool := selected ctl y && ctl.rdBsInc

/-- The pad inputs of the inner block: those of the step, or with the wrapper those that `RH.DES` made (R255). -/
def padInputs (s : State) : PadInLanes Bits := if s.cfg.wrapped then s.wires.padIn else s.inp.pad

end Sys2Proof.Machine
end

