-- ==== Sys2Proof/Machine/Latency.lean ====
section
/-! DEFINITION. Latency Algebra: `LAT.MAKE`, `LAT.ADD` (R110 to R113). -/

namespace Sys2Proof.Machine

/-- `make(s, f, R) = (s + f div R, f mod R)` (R111). -/
def latMake (slow fast R : Nat) : Latency := { slowCycles := slow + fast / R, fastTicks := fast % R }

/-- `add(a, b)` (R112): sums the components and carries the excess of fast ticks. -/
def latAdd (a b : Latency) (R : Nat) : Latency :=
  { slowCycles := a.slowCycles + b.slowCycles + (a.fastTicks + b.fastTicks) / R
    fastTicks := (a.fastTicks + b.fastTicks) % R }

/-- `LAT.MAKE` (R111). -/
def execLatMake (slow fast R : Nat) (s : State) : Result :=
  whenTyped (decide (0 < R)) .illTypedOperand (returning (.latency (latMake slow fast R)) s)

/-- `LAT.ADD` (R112); both operands are canonical for the same `R` (R110). -/
def execLatAdd (a b : Latency) (R : Nat) (s : State) : Result :=
  whenTyped (decide (0 < R) && a.canonical R && b.canonical R) .illTypedOperand
    (returning (.latency (latAdd a b R)) s)

end Sys2Proof.Machine
end

