-- ==== Sys2Proof/Machine/Timing.lean ====
section
/-! DEFINITION. Timing Resolver (R120 to R133): from a configuration to the settings record, or one of two errors. -/

namespace Sys2Proof.Machine

/-- `tCK ≥ T`, exact and inclusive (R121, R300). -/
def reaches (tCK T : Ratio) : Bool := decide (T.num * tCK.den ≤ tCK.num * T.den)

/-- The pair of the first entry whose threshold the period reaches (R121). -/
def lookup (tCK : Ratio) : List TimingEntry → Option (Nat × Nat)
  | [] => none
  | e :: rest => if reaches tCK e.threshold then some (e.cl, e.cwl) else lookup tCK rest

/-- `tCK = 1 / (R · targetFreq)` (R122). -/
def period (targetFreq : Ratio) (R : Nat) : Ratio := { num := targetFreq.den, den := R * targetFreq.num }

/-- `sysLat(x) = ceil(x / R) = (x + R − 1) div R` (R123). -/
def sysLat (x R : Nat) : Nat := (x + R - 1) / R

/-- `raw = sys0 · R − X` (R124): the phase measured back from the whole-cycle latency, possibly negative. -/
def rawPhase (sys0 X R : Nat) : Int := (sys0 * R : Nat) - (X : Int)

/-- `Xrd` (R124). -/
def readTicks (cl cmdLat serTicks desTicks : Nat) : Nat := cl + cmdLat + serTicks + desTicks

/-- `Xwr` (R124). -/
def writeTicks (cwl cmdLat : Nat) : Nat := cwl + cmdLat

/-- The loop of `TR.BORROW` (R125): while the phase is negative, add `R` to it and one cycle to the latency. The first
argument bounds the rounds. -/
def borrowRounds (R : Nat) : Nat → Int → Nat → Nat × Nat
  | 0, phase, sys => (phase.toNat, sys)
  | rounds + 1, phase, sys => if phase < 0 then borrowRounds R rounds (phase + R) (sys + 1) else (phase.toNat, sys)

/-- `borrow(raw, sys0)` (R125). Every round adds at least one tick, so `|raw|` rounds are enough. -/
def borrow (raw : Int) (sys0 R : Nat) : Nat × Nat := borrowRounds R raw.natAbs raw sys0

/-- Final read latency in steps (R126). -/
def readLatencyOf (clSys serSlow desSlow : Nat) : Nat := caLatency + serSlow + clSys + desSlow + bsCycles

/-- Final write latency in steps (R127). -/
def writeLatencyOf (cwlSys : Nat) : Nat := cwlSys

/-- `wrtap = cwlSys − 1` with the explicit check of R128 and R308: none where it is negative. -/
def wrtapOf (cwlSys : Nat) : Option Nat :=
  let wrtap : Int := (cwlSys : Int) - 1
  if wrtap < 0 then none else some wrtap.toNat

/-- `TR.RESOLVE` (R129): the whole family in order. -/
def resolve (c : Cfg) : Except Fault Settings :=
  match lookup (period c.targetFreq c.R) c.table with
  | none => .error .unsupportedTiming
  | some (cl, cwl) =>
    let clSys0 := sysLat cl c.R
    let cwlSys0 := sysLat cwl c.R
    let rd := borrow
      (rawPhase clSys0 (readTicks cl c.cmdLatency c.serLatency.fastTicks c.desLatency.fastTicks) c.R) clSys0 c.R
    let wr := borrow (rawPhase cwlSys0 (writeTicks cwl c.cmdLatency) c.R) cwlSys0 c.R
    match wrtapOf wr.2 with
    | none => .error .negativeTapIndex
    | some wrtap =>
      .ok
        { cl := cl, cwl := cwl
          readLatency := readLatencyOf rd.2 c.serLatency.slowCycles c.desLatency.slowCycles
          writeLatency := writeLatencyOf wr.2
          cmdLatency := c.cmdLatency
          readPhase := rd.1, writePhase := wr.1
          clSys := rd.2, cwlSys := wr.2
          wrtap := wrtap
          phyType := c.phyType, cmdDelay := c.cmdDelay, R := c.R, N := c.N }

/-- `TR.LOOKUP` (R121). -/
def execTrLookup (tCK : Ratio) (tbl : List TimingEntry) (s : State) : Result :=
  whenTyped (tCK.positive && thresholdsDecrease tbl) .illTypedOperand
    (match lookup tCK tbl with
      | some (cl, cwl) => returning (.casPair cl cwl) s
      | none => raise .unsupportedTiming)

/-- `TR.PERIOD` (R122). -/
def execTrPeriod (targetFreq : Ratio) (R : Nat) (s : State) : Result :=
  whenTyped (targetFreq.positive && decide (0 < R)) .illTypedOperand (returning (.period (period targetFreq R)) s)

/-- `TR.SYSLAT` (R123). -/
def execTrSyslat (x R : Nat) (s : State) : Result :=
  whenTyped (decide (0 < R)) .illTypedOperand (returning (.steps (sysLat x R)) s)

/-- `TR.RAWPHASE` (R124). The two tick counts are fast ticks of canonical latencies (R110). -/
def execTrRawphase (cl cwl clSys0 cwlSys0 cmdLat serTicks desTicks R : Nat) (s : State) : Result :=
  whenTyped (decide (serTicks < R) && decide (desTicks < R)) .illTypedOperand
    (returning (.rawPhases (rawPhase clSys0 (readTicks cl cmdLat serTicks desTicks) R)
      (rawPhase cwlSys0 (writeTicks cwl cmdLat) R)) s)

/-- `TR.BORROW` (R125). -/
def execTrBorrow (raw : Int) (sys0 R : Nat) (s : State) : Result :=
  whenTyped (decide (0 < R)) .illTypedOperand
    (returning (.borrowed (borrow raw sys0 R).1 (borrow raw sys0 R).2) s)

/-- `TR.RDLAT` (R126). -/
def execTrRdlat (clSys serSlow desSlow : Nat) (s : State) : Result :=
  returning (.steps (readLatencyOf clSys serSlow desSlow)) s

/-- `TR.WRLAT` (R127). -/
def execTrWrlat (cwlSys : Nat) (s : State) : Result := returning (.steps (writeLatencyOf cwlSys)) s

/-- `TR.WRTAP` (R128). -/
def execTrWrtap (cwlSys : Nat) (s : State) : Result :=
  match wrtapOf cwlSys with
  | some wrtap => returning (.steps wrtap) s
  | none => raise .negativeTapIndex

/-- `TR.RESOLVE` (R129): "Side effects: none beyond returning the settings record" (R120). -/
def execTrResolve (cfg : Cfg) (s : State) : Result :=
  whenTyped (admitsConfig cfg) .illTypedConfig
    (match resolve cfg with
      | .ok st => returning (.settings st) s
      | .error f => raise f)

end Sys2Proof.Machine
end

