-- ==== Sys2Proof/Machine/RateHalving.lean ====
section
/-! DEFINITION. Rate-Halving Wrapper (R250 to R257): the inner configuration, and the stream delay of every pad lane.
The wrapped block takes and gives both half-steps' words in one step (R252). -/

namespace Sys2Proof.Machine

/-- The inner configuration: both latencies inflated by one stage, given in half-steps of `R/2` fast ticks (R251). -/
def innerCfg (c : Cfg) : Cfg :=
  { c with
    serLatency := latAdd c.serLatency (latMake 0 (c.rhSer * (c.R / 2)) c.R) c.R
    desLatency := latAdd c.desLatency (latMake 0 (c.rhDes * (c.R / 2)) c.R) c.R
    wrapped := false }

/-- The configuration of the block that steps: with the wrapper, the inner one (R290). -/
def coreCfg (c : Cfg) : Cfg := if c.wrapped then innerCfg c else c

/-- The queues at construction: `RH_SER` zero half-words for every output lane, `RH_SER` zero bits for every enable,
`RH_DES` zero half-words for every input lane (R253). -/
def zeroQueues (c : Cfg) : WrapQueues :=
  { serq := (idlePadOut c.R c.N).map (fun w => List.replicate c.rhSer (zeros (w.length / 2)))
      (fun _ => List.replicate c.rhSer false)
    desq := padInMap (fun _ => List.replicate c.rhDes (zeros c.R)) (idlePad c.R c.N) }

/-- The half-step outputs before any step. -/
def zeroOuter (c : Cfg) : PadLanes (Halves Bits) (Halves Bool) :=
  (idlePadOut c.R c.N).map (fun w => ⟨zeros (w.length / 2), zeros (w.length / 2)⟩) (fun _ => ⟨false, false⟩)

/-- The word the inner block receives (R255): `D[2t] ++ D[2t + 1]`. -/
def desWord (queue : List Bits) (word : Bits) : Bits :=
  (oldestTwo [] queue (halvesOf word)).first ++ (oldestTwo [] queue (halvesOf word)).second

/-- `RH.DES` (R255), where the wrapper is present. -/
def deserialize (s : State) : State :=
  if s.cfg.wrapped then
    { s with
      wires := { s.wires with padIn := padInZip desWord s.wrap.desq s.inp.pad }
      wrap := { s.wrap with desq := padInZip (fun q w => queueAfter q (halvesOf w)) s.wrap.desq s.inp.pad } }
  else s

/-- `RH.SER` (R254), where the wrapper is present: an enable gives its value to both half-steps. -/
def serialize (s : State) : State :=
  if s.cfg.wrapped then
    { s with
      outer := s.wrap.serq.zipWith (fun q w => oldestTwo [] q (halvesOf w)) (fun q e => oldestTwo false q [e, e]) s.out.pad
      wrap := { s.wrap with
        serq := s.wrap.serq.zipWith (fun q w => queueAfter q (halvesOf w)) (fun q e => queueAfter q [e, e]) s.out.pad } }
  else s

/-- `RH.SER` (R254). -/
def execRhSer (s : State) : Result := .next (serialize s)

/-- `RH.DES` (R255). -/
def execRhDes (s : State) : Result := .next (deserialize s)

end Sys2Proof.Machine
end

