-- ==== Sys2Proof/Machine/Construct.lean ====
section
/-! DEFINITION. Construction (R290, R251, R305 to R310): the checks in their order, the settings, and the initial
state. -/

namespace Sys2Proof.Machine

/-- The machine that construction returns (R290, R331). `outer` is the configuration asked for, `core` that of the
block that steps; they differ when the wrapper is present (R251). What has been asked of the machine and not yet
taken stays asked. -/
def constructed (outer core : Cfg) (st : Settings) (pending : List Stimulus) : State :=
  { cfg := outer
    settings := st
    regs := Regs.initial core st
    wrap := if outer.wrapped then zeroQueues outer else noQueues
    inp := idleIn core.R core.N st.readPhase st.writePhase
    out := idleOut core.R core.N
    outer := if outer.wrapped then zeroOuter outer else noOuter
    wires := idleWires core.R core.N
    ret := .nothing
    pending := pending }

/-- The checks of R290 in the order R310 gives: lane width, declared ranges, timing table, tap index. -/
def construct (c : Cfg) (s : State) : Result :=
  if c.N % 8 ≠ 0 then raise .invalidLaneWidth
  else whenTyped (admitsConfig c) .illTypedConfig
    (match resolve (coreCfg c) with
      | .error f => raise f
      | .ok st => .next (constructed c (coreCfg c) st s.pending))

/-- `PHY.CONSTRUCT` (R290). -/
def execPhyConstruct (cfg : Cfg) (s : State) : Result := construct cfg s

/-- `RH.WRAP` (R251): the construction of a wrapped block. -/
def execRhWrap (cfg : Cfg) (s : State) : Result := whenTyped cfg.wrapped .illTypedConfig (construct cfg s)

end Sys2Proof.Machine
end

