-- ==== Sys2Proof/Machine/Flags.lean ====
section
/-! DEFINITION. The block has no status flags (R26). Its one-bit derived signals, "plain outputs recomputed each step",
are here: the driving signals of the two lines, read-valid, the output-enables and the framing pulses. -/

namespace Sys2Proof.Machine

/-- `rdEnAny` (R154): some phase of the step enables a read. -/
def rdEnAny (inp : In) : Bool := inp.phases.any Phase.rdEn

/-- `wrEnAny` (R156): some phase of the step enables a write. -/
def wrEnAny (inp : In) : Bool := inp.phases.any Phase.wrEn

/-- `rdValid` of every phase: the last tap of the read-valid line (R155). -/
def rdValidOf (st : Settings) (rdLine : List Bool) : Bool := bitAt rdLine (st.readLatency - 1)

/-- `dq_oe = tap(wrtap)` (R231). -/
def dqOeOf (wrtap : Nat) (wrLine : List Bool) : Bool := bitAt wrLine wrtap

/-- `preamble = tap(wrtap − 1) & ~tap(wrtap)`, where `tap(−1)` is the line's input (R230, R232): `tap(k)` is entry
`k + 1` of the input followed by the taps. -/
def preambleOf (wrtap : Nat) (input : Bool) (wrLine : List Bool) : Bool :=
  bitAt (input :: wrLine) wrtap && !bitAt wrLine wrtap

/-- `postamble = tap(wrtap + 1) & ~tap(wrtap)` (R233). -/
def postambleOf (wrtap : Nat) (wrLine : List Bool) : Bool := bitAt wrLine (wrtap + 1) && !bitAt wrLine wrtap

/-- `dqs_oe` (R234). -/
def dqsOeOf (wlevelEn preamble dqOe postamble : Bool) : Bool := wlevelEn || preamble || dqOe || postamble

/-- `dmi_oe`: the data enable where the mask lanes are live, 0 where they are not (R209). -/
def dmiOeOf (maskedWrite dqOe : Bool) : Bool := maskedWrite && dqOe

end Sys2Proof.Machine
end

