-- ==== Sys2Proof/Machine/Arbiter.lean ====
section
/-! DEFINITION. Command Arbiter, command-lane serializer and constant-latency lanes (R165 to R179), in the register
form of R172. -/

namespace Sys2Proof.Machine

/-- The history bits of a step's slots (R167, R172): `a`, `b`, `c` are the bits of the three slots before, oldest
first; the list holds the validity bits of the slots in order. -/
def historyBits (mode : ArbHistory) : Bool → Bool → Bool → List Bool → List Bool
  | _, _, _, [] => []
  | a, b, c, v :: vs =>
    let h := match mode with
      | .raw => v
      | .filtered => v && !(a || b || c)
    h :: historyBits mode b c h vs

/-- The history window `H` of `R + LB` bits, oldest first (R172). -/
def histWindow (mode : ArbHistory) (arb : Arbiter) (inp : In) : List Bool :=
  arb.vh2 :: arb.vh1 :: arb.vh0 :: historyBits mode arb.vh2 arb.vh1 arb.vh0 (inp.phases.map Phase.cmdValid)

/-- `before(p)`: some history bit of the slots `p − 3`, `p − 2`, `p − 1` is set (R172). -/
def before (H : List Bool) (p : Nat) : Bool := bitAt H p || bitAt H (p + 1) || bitAt H (p + 2)

/-- `allowed(p)` of every phase (R168). -/
def allowedBits (enable : Bool) (R : Nat) (H : List Bool) : List Bool :=
  (List.range R).map fun p => if enable then !before H p else true

/-- `rep(x, 7)` (R13). -/
def repRow (x : Bool) : Row := if x then BitVec.allOnes 7 else 0

/-- What the command of slot `p` gives to fast tick `m` of the window (R169). -/
def contribution (allowed : Bool) (ph : Phase) (p m : Nat) : Row :=
  if p ≤ m ∧ m < p + cmdTicks then repRow allowed &&& payRow ph (m - p) else 0

/-- The contributions of every phase to the `R + LB` fast ticks of the window (R169). -/
def contribRows (R : Nat) (allowed : List Bool) (inp : In) : List (List Row) :=
  (List.range R).map fun p =>
    (List.range (R + lookback)).map fun m => contribution (bitAt allowed p) (phaseAt inp p) p m

/-- `arb.spill[m]` in the window, 0 beyond the `LB` rows that spill (R172). -/
def spillRow (arb : Arbiter) : Nat → Row
  | 0 => arb.spill0
  | 1 => arb.spill1
  | 2 => arb.spill2
  | _ => 0

/-- The bus window (R170, R172): on every fast tick the or of what spilled and of all contributions. -/
def busWindow (R : Nat) (arb : Arbiter) (contrib : List (List Row)) : List Row :=
  (List.range (R + lookback)).map fun m =>
    contrib.foldl (fun acc rows => acc ||| rows.getD m 0) (spillRow arb m)

/-- The arbiter's registers after a step (R172). -/
def arbiterNext (c : Cfg) (arb : Arbiter) (inp : In) : Arbiter :=
  let H := histWindow c.arbHistory arb inp
  let bus := busWindow c.R arb (contribRows c.R (allowedBits c.arbEnable c.R H) inp)
  { vh0 := bitAt H (c.R + 2)
    vh1 := bitAt H (c.R + 1)
    vh2 := bitAt H c.R
    spill0 := bus.getD c.R 0
    spill1 := bus.getD (c.R + 1) 0
    spill2 := bus.getD (c.R + 2) 0
    outw := bus.take c.R }

/-- One command lane: bit `l` of every row of the window (R93, R171). -/
def laneOf (outw : List Row) (l : Nat) : Bits := outw.map fun row => row.getLsbD l

/-- The six command/address lanes (R171). -/
def caLanes (outw : List Row) : List Bits := (List.range 6).map fun l => laneOf outw (l + 1)

/-- `ARB.HIST` (R167). -/
def execArbHist (s : State) : Result :=
  .next { s with wires := { s.wires with hist := histWindow s.cfg.arbHistory s.regs.arb s.inp } }

/-- `ARB.ALLOW` (R168), from the history bits. -/
def execArbAllow (s : State) : Result :=
  .next { s with wires := { s.wires with allowed := allowedBits s.cfg.arbEnable s.cfg.R s.wires.hist } }

/-- `ARB.SLIP` (R169), from the payload rows and `allowed`. -/
def execArbSlip (s : State) : Result :=
  .next { s with wires := { s.wires with contrib := contribRows s.cfg.R s.wires.allowed s.inp } }

/-- `ARB.OR` (R170), from the contributions of this step and what earlier steps spilled. -/
def execArbOr (s : State) : Result :=
  .next { s with wires := { s.wires with bus := busWindow s.cfg.R s.regs.arb s.wires.contrib } }

/-- `ARB.OUT` (R171): the command lanes show the finished window of the step before. -/
def execArbOut (s : State) : Result :=
  .next { s with out := { s.out with pad := { s.out.pad with
    cs := laneOf s.regs.arb.outw 0, ca := caLanes s.regs.arb.outw } } }

/-- `ARB.STEP` (R172). -/
def execArbStep (s : State) : Result :=
  .next { s with regs := { s.regs with arb := arbiterNext s.cfg s.regs.arb s.inp } }

/-- `CLK.OUT` (R178). -/
def execClkOut (s : State) : Result :=
  .next { s with out := { s.out with pad := { s.out.pad with clk := s.cfg.patClk } } }

/-- `SIMPLE.STEP` (R179): the lanes show the registers, the registers take the step's phase inputs. -/
def execSimpleStep (s : State) : Result :=
  .next { s with
    out := { s.out with pad := { s.out.pad with
      cke := s.regs.ckeReg, odt := s.regs.odtReg, resetN := s.regs.rstnReg } }
    regs := { s.regs with
      ckeReg := s.inp.phases.map Phase.cke
      odtReg := s.inp.phases.map Phase.odt
      rstnReg := s.inp.phases.map Phase.resetN } }

end Sys2Proof.Machine
end

