-- ==== Sys2Proof/Machine/DelayLine.lean ====
section
/-! DEFINITION. Tapped Delay Line and its two uses (R150 to R157). -/

namespace Sys2Proof.Machine

/-- `TDL.STEP` (R151) on one of the two lines. -/
def execTdlStep (line : Line) (x : Bool) (s : State) : Result :=
  .next (setLine s line (tdlShift (lineTaps s line) x))

/-- `TDL.READ` (R152): exposes `input`, `taps` and `output`; a combinational read. -/
def execTdlRead (line : Line) (x : Bool) (s : State) : Result :=
  returning (.taps x (lineTaps s line) (tdlOutput (lineTaps s line))) s

/-- `RDV.STEP` (R154). -/
def execRdvStep (s : State) : Result :=
  .next { s with regs := { s.regs with rdLine := tdlShift s.regs.rdLine (rdEnAny s.inp) } }

/-- `RDV.OUT` (R155): the same bit goes to every phase. -/
def execRdvOut (s : State) : Result :=
  .next { s with out := { s.out with rdValid := List.replicate s.cfg.R (rdValidOf s.settings s.regs.rdLine) } }

/-- `WREN.STEP` (R156). -/
def execWrenStep (s : State) : Result :=
  .next { s with regs := { s.regs with wrLine := tdlShift s.regs.wrLine (wrEnAny s.inp) } }

end Sys2Proof.Machine
end

