-- ==== Sys2Proof/Machine/Strobe.lean ====
section
/-! DEFINITION. Strobe Framing, output-enables and the strobe word (R230 to R239). -/

namespace Sys2Proof.Machine

/-- The strobe word `sw` (R235): write-levelling over the second pulse over the first over the toggle; `FRAME_SWAP`
exchanges the roles of the two pulses. -/
def strobeWordOf (c : Cfg) (ctl : Ctl) (preamble postamble : Bool) : Bits :=
  let first := if c.frameSwap then postamble else preamble
  let second := if c.frameSwap then preamble else postamble
  if ctl.wlevelEn then (if ctl.wlevelStrobe then c.patWlStrobe else c.patWlIdle)
  else if second then c.patPost
  else if first then c.patPre
  else c.patToggle

/-- `SF.DQOE` (R231). -/
def execSfDqoe (s : State) : Result :=
  .next { s with out := { s.out with pad := { s.out.pad with dqOe := dqOeOf s.settings.wrtap s.regs.wrLine } } }

/-- `SF.PRE` (R232). -/
def execSfPre (s : State) : Result :=
  .next { s with wires := { s.wires with
    preamble := preambleOf s.settings.wrtap (wrEnAny s.inp) s.regs.wrLine } }

/-- `SF.POST` (R233). -/
def execSfPost (s : State) : Result :=
  .next { s with wires := { s.wires with postamble := postambleOf s.settings.wrtap s.regs.wrLine } }

/-- `SF.DQSOE` (R234), from the framing pulses and `dq_oe`. -/
def execSfDqsoe (s : State) : Result :=
  .next { s with out := { s.out with pad := { s.out.pad with
    dqsOe := dqsOeOf s.inp.ctl.wlevelEn s.wires.preamble s.out.pad.dqOe s.wires.postamble } } }

/-- `SF.WORD` (R235), from the framing pulses. -/
def execSfWord (s : State) : Result :=
  .next { s with wires := { s.wires with
    strobeWord := strobeWordOf s.cfg s.inp.ctl s.wires.preamble s.wires.postamble } }

end Sys2Proof.Machine
end

