-- ==== Sys2Proof/Machine/Transcoder.lean ====
section
/-! DEFINITION. Bit Lane Transcoder and the data paths through it (R200 to R216). -/

namespace Sys2Proof.Machine

/-- The output words of a group of instances (R202). -/
def windows (W : Nat) (ts : List Transcoder) : List Bits := ts.map (window W)

/-- The write-data instances after a step (R208, R213): data lane `b` belongs to byte lane `b div 8`. -/
def wrDqNext (c : Cfg) (inp : In) (ts : List Transcoder) : List Transcoder :=
  transcodeAll c.W c.sReset (wrIn c.R c.N inp) (fun b => wrRst inp.ctl (b / 8)) (fun b => wrInc inp.ctl (b / 8)) ts

/-- The write-mask instances after a step (R209, R213). -/
def wrDmNext (c : Cfg) (inp : In) (ts : List Transcoder) : List Transcoder :=
  transcodeAll c.W c.sReset (dmIn c.R c.NB inp) (wrRst inp.ctl) (wrInc inp.ctl) ts

/-- The write-strobe instances after a step (R210, R213): the same word for every byte lane. -/
def wrDqsNext (c : Cfg) (inp : In) (sw : Bits) (ts : List Transcoder) : List Transcoder :=
  transcodeAll c.W c.sReset (fun _ => sw) (wrRst inp.ctl) (wrInc inp.ctl) ts

/-- The read-data instances after a step (R211, R213). -/
def rdDqNext (c : Cfg) (inp : In) (pad : PadInLanes Bits) (ts : List Transcoder) : List Transcoder :=
  transcodeAll c.W c.sReset (wordAt pad.dqI) (fun b => rdRst inp.ctl (b / 8)) (fun b => rdInc inp.ctl (b / 8)) ts

/-- The mask lane words (R209): the windows where the mask lanes are live, 0 where they are not. -/
def maskWords (c : Cfg) (ts : List Transcoder) : List Bits :=
  if c.maskedWrite then windows c.W ts else List.replicate c.NB (zeros c.W)

/-- `BS.OUT` (R202) of one instance. -/
def execBsOut (lane : Lane) (s : State) : Result :=
  match instanceAt s lane with
  | some t => returning (.word (window s.cfg.W t)) s
  | none => .refused .noSuchInstance

/-- `BS.STEP` (R203) of one instance. -/
def execBsStep (lane : Lane) (x : Bits) (rst : Bool) (s : State) : Result :=
  whenTyped (decide (x.length = s.cfg.W)) .illTypedOperand (onInstance lane (shiftIn s.cfg.W x rst) s)

/-- `BS.INC` (R204) of one instance. -/
def execBsInc (lane : Lane) (inc rst : Bool) (s : State) : Result := onInstance lane (rotate s.cfg.W inc rst) s

/-- `BS.RST` (R205) of one instance. -/
def execBsRst (lane : Lane) (rst : Bool) (s : State) : Result :=
  onInstance lane (clear s.cfg.W s.cfg.sReset rst) s

/-- `WRDQ.PATH` (R208). -/
def execWrdqPath (s : State) : Result :=
  .next { s with
    out := { s.out with pad := { s.out.pad with dqO := windows s.cfg.W s.regs.wrDq } }
    regs := { s.regs with wrDq := wrDqNext s.cfg s.inp s.regs.wrDq } }

/-- `WRDM.PATH` (R209). Without `maskedWrite` there are no instances, and the word and the enable are 0. -/
def execWrdmPath (s : State) : Result :=
  .next { s with
    out := { s.out with pad := { s.out.pad with
      dmiO := maskWords s.cfg s.regs.wrDm
      dmiOe := dmiOeOf s.cfg.maskedWrite s.out.pad.dqOe } }
    regs := { s.regs with wrDm := wrDmNext s.cfg s.inp s.regs.wrDm } }

/-- `WRDQS.PATH` (R210), from the strobe word of the step. -/
def execWrdqsPath (s : State) : Result :=
  .next { s with
    out := { s.out with pad := { s.out.pad with dqsO := windows s.cfg.W s.regs.wrDqs } }
    regs := { s.regs with wrDqs := wrDqsNext s.cfg s.inp s.wires.strobeWord s.regs.wrDqs } }

/-- `RDDQ.PATH` (R211). -/
def execRddqPath (s : State) : Result :=
  .next { s with
    wires := { s.wires with rdWord := windows s.cfg.W s.regs.rdDq }
    regs := { s.regs with rdDq := rdDqNext s.cfg s.inp (padInputs s) s.regs.rdDq } }

/-- `RD.DIST` (R212), from `rdWord(b)` of every data lane. -/
def execRdDist (s : State) : Result :=
  .next { s with out := { s.out with rdData := (List.range s.cfg.R).map (rdDataOf s.cfg.N s.wires.rdWord) } }

end Sys2Proof.Machine
end

