-- ==== Sys2Proof/Machine/TopLevel.lean ====
section
/-! DEFINITION. The one-step function (R291): every output and every next register from the state and the input
record of the step, all registers together (R66). -/

namespace Sys2Proof.Machine

/-- The signals of a step (R167 to R170, R232, R233, R235, R211). -/
def wiresOf (s : State) : Wires :=
  let c := s.cfg
  let H := histWindow c.arbHistory s.regs.arb s.inp
  let allowed := allowedBits c.arbEnable c.R H
  let contrib := contribRows c.R allowed s.inp
  let pre := preambleOf s.settings.wrtap (wrEnAny s.inp) s.regs.wrLine
  let post := postambleOf s.settings.wrtap s.regs.wrLine
  { hist := H
    allowed := allowed
    contrib := contrib
    bus := busWindow c.R s.regs.arb contrib
    preamble := pre
    postamble := post
    strobeWord := strobeWordOf c s.inp.ctl pre post
    rdWord := windows c.W s.regs.rdDq
    padIn := s.wires.padIn }

/-- The output record of a step: the first half of R291, in the order of R86. -/
def outOf (s : State) : Out :=
  let c := s.cfg
  let r := s.regs
  let w := wiresOf s
  let dqOe := dqOeOf s.settings.wrtap r.wrLine
  { rdData := (List.range c.R).map (rdDataOf c.N w.rdWord)
    rdValid := List.replicate c.R (rdValidOf s.settings r.rdLine)
    pad :=
      { clk := c.patClk
        cke := r.ckeReg
        odt := r.odtReg
        resetN := r.rstnReg
        cs := laneOf r.arb.outw 0
        ca := caLanes r.arb.outw
        dqO := windows c.W r.wrDq
        dqOe := dqOe
        dmiO := maskWords c r.wrDm
        dmiOe := dmiOeOf c.maskedWrite dqOe
        dqsO := windows c.W r.wrDqs
        dqsOe := dqsOeOf s.inp.ctl.wlevelEn w.preamble dqOe w.postamble } }

/-- The registers after a step: the second half of R291. -/
def regsNext (s : State) : Regs :=
  let c := s.cfg
  let r := s.regs
  { rdLine := tdlShift r.rdLine (rdEnAny s.inp)
    wrLine := tdlShift r.wrLine (wrEnAny s.inp)
    arb := arbiterNext c r.arb s.inp
    ckeReg := s.inp.phases.map Phase.cke
    odtReg := s.inp.phases.map Phase.odt
    rstnReg := s.inp.phases.map Phase.resetN
    wrDq := wrDqNext c s.inp r.wrDq
    wrDm := wrDmNext c s.inp r.wrDm
    wrDqs := wrDqsNext c s.inp (wiresOf s).strobeWord r.wrDqs
    rdDq := rdDqNext c s.inp (padInputs s) r.rdDq }

/-- One step of the inner block on the record the state holds (R291, R66). -/
def advance (s : State) : State := { s with out := outOf s, wires := wiresOf s, regs := regsNext s }

/-- One step of the block on a record: with the wrapper, its input stage before and its output stage after the inner
block's step (R252 to R255). -/
def takeStep (inp : In) (s : State) : State := serialize (advance (deserialize { s with inp := inp }))

/-- One step, where the record is one of this block's (R80). A step never fails (R16, R291). -/
def stepOn (inp : In) (s : State) : Result :=
  whenTyped (admitsInput s inp) .illTypedInput (.next (takeStep inp s))

/-- `PHY.STEP` (R291). -/
def execPhyStep (inp : In) (s : State) : Result := stepOn inp s

end Sys2Proof.Machine
end

