-- ==== Sys2Proof/Machine/Control.lean ====
section
/-! DEFINITION. The calibration control surface (R265 to R277). A row of the surface acts in a step in which its
control input is 1 (R94): its meaning is the step of R291 with that input asserted on the record it carries. What the
input does in the step is in the controls of R213 and in R234 and R235. -/

namespace Sys2Proof.Machine

/-- The step of a record whose control inputs are as `assert` makes them. -/
def stepAsserting (assert : Ctl → Ctl) (inp : In) (s : State) : Result :=
  stepOn { inp with ctl := assert inp.ctl } s

/-- `CTL.RST` (R266): every transcoder instance has `rst = 1`; nothing else reads the input. -/
def execCtlRst (inp : In) (s : State) : Result := stepAsserting (fun c => { c with rst := true }) inp s

/-- `CTL.WLEVEL_EN` (R267): `dqs_oe = 1` and the strobe word is a write-levelling word. -/
def execCtlWlevelEn (inp : In) (s : State) : Result := stepAsserting (fun c => { c with wlevelEn := true }) inp s

/-- `CTL.WLEVEL_STROBE` (R268): with `wlevelEn`, the strobe word is `PAT_WL_STROBE`. -/
def execCtlWlevelStrobe (inp : In) (s : State) : Result :=
  stepAsserting (fun c => { c with wlevelEn := true, wlevelStrobe := true }) inp s

/-- `CTL.DLY_SEL` (R269): bit `y` gates the four bitslip pulses onto byte lane `y`; the row is selected by any
non-zero value of the field, so the value is the record's. -/
def execCtlDlySel (inp : In) (s : State) : Result := stepAsserting (fun c => c) inp s

/-- `CTL.RD_BS_RST` (R270). -/
def execCtlRdBsRst (inp : In) (s : State) : Result := stepAsserting (fun c => { c with rdBsRst := true }) inp s

/-- `CTL.RD_BS_INC` (R271). -/
def execCtlRdBsInc (inp : In) (s : State) : Result := stepAsserting (fun c => { c with rdBsInc := true }) inp s

/-- `CTL.WR_BS_RST` (R272). -/
def execCtlWrBsRst (inp : In) (s : State) : Result := stepAsserting (fun c => { c with wrBsRst := true }) inp s

/-- `CTL.WR_BS_INC` (R273). -/
def execCtlWrBsInc (inp : In) (s : State) : Result := stepAsserting (fun c => { c with wrBsInc := true }) inp s

/-- `CTL.RDPHASE` (R274): a field, every value of it selected; no rule inside the block reads it. -/
def execCtlRdphase (inp : In) (s : State) : Result := stepAsserting (fun c => c) inp s

/-- `CTL.WRPHASE` (R275): a field, every value of it selected; no rule inside the block reads it. -/
def execCtlWrphase (inp : In) (s : State) : Result := stepAsserting (fun c => c) inp s

end Sys2Proof.Machine
end

