-- ==== Sys2Proof/Machine/Dispatch.lean ====
section
/-! DEFINITION. One arm for each operation: a direct call of its meaning. -/

namespace Sys2Proof.Machine

/-- What an operation does. -/
def exec (i : Instr) (s : State) : Host.Outcome State Fault Refusal :=
  match i with
  | .latMake slow fast R => Sys2Proof.Machine.execLatMake slow fast R s
  | .latAdd a b R => Sys2Proof.Machine.execLatAdd a b R s
  | .trLookup tCK tbl => Sys2Proof.Machine.execTrLookup tCK tbl s
  | .trPeriod targetFreq R => Sys2Proof.Machine.execTrPeriod targetFreq R s
  | .trSyslat x R => Sys2Proof.Machine.execTrSyslat x R s
  | .trRawphase cl cwl clSys0 cwlSys0 cmdLat serTicks desTicks R => Sys2Proof.Machine.execTrRawphase cl cwl clSys0 cwlSys0 cmdLat serTicks desTicks R s
  | .trBorrow raw sys0 R => Sys2Proof.Machine.execTrBorrow raw sys0 R s
  | .trRdlat clSys serSlow desSlow => Sys2Proof.Machine.execTrRdlat clSys serSlow desSlow s
  | .trWrlat cwlSys => Sys2Proof.Machine.execTrWrlat cwlSys s
  | .trWrtap cwlSys => Sys2Proof.Machine.execTrWrtap cwlSys s
  | .trResolve cfg => Sys2Proof.Machine.execTrResolve cfg s
  | .tdlStep line x => Sys2Proof.Machine.execTdlStep line x s
  | .tdlRead line x => Sys2Proof.Machine.execTdlRead line x s
  | .rdvStep => Sys2Proof.Machine.execRdvStep s
  | .rdvOut => Sys2Proof.Machine.execRdvOut s
  | .wrenStep => Sys2Proof.Machine.execWrenStep s
  | .arbHist => Sys2Proof.Machine.execArbHist s
  | .arbAllow => Sys2Proof.Machine.execArbAllow s
  | .arbSlip => Sys2Proof.Machine.execArbSlip s
  | .arbOr => Sys2Proof.Machine.execArbOr s
  | .arbOut => Sys2Proof.Machine.execArbOut s
  | .arbStep => Sys2Proof.Machine.execArbStep s
  | .clkOut => Sys2Proof.Machine.execClkOut s
  | .simpleStep => Sys2Proof.Machine.execSimpleStep s
  | .bsOut lane => Sys2Proof.Machine.execBsOut lane s
  | .bsStep lane x rst => Sys2Proof.Machine.execBsStep lane x rst s
  | .bsInc lane inc rst => Sys2Proof.Machine.execBsInc lane inc rst s
  | .bsRst lane rst => Sys2Proof.Machine.execBsRst lane rst s
  | .wrdqPath => Sys2Proof.Machine.execWrdqPath s
  | .wrdmPath => Sys2Proof.Machine.execWrdmPath s
  | .wrdqsPath => Sys2Proof.Machine.execWrdqsPath s
  | .rddqPath => Sys2Proof.Machine.execRddqPath s
  | .rdDist => Sys2Proof.Machine.execRdDist s
  | .sfDqoe => Sys2Proof.Machine.execSfDqoe s
  | .sfPre => Sys2Proof.Machine.execSfPre s
  | .sfPost => Sys2Proof.Machine.execSfPost s
  | .sfDqsoe => Sys2Proof.Machine.execSfDqsoe s
  | .sfWord => Sys2Proof.Machine.execSfWord s
  | .rhWrap cfg => Sys2Proof.Machine.execRhWrap cfg s
  | .rhSer => Sys2Proof.Machine.execRhSer s
  | .rhDes => Sys2Proof.Machine.execRhDes s
  | .ctlRst inp => Sys2Proof.Machine.execCtlRst inp s
  | .ctlWlevelEn inp => Sys2Proof.Machine.execCtlWlevelEn inp s
  | .ctlWlevelStrobe inp => Sys2Proof.Machine.execCtlWlevelStrobe inp s
  | .ctlDlySel inp => Sys2Proof.Machine.execCtlDlySel inp s
  | .ctlRdBsRst inp => Sys2Proof.Machine.execCtlRdBsRst inp s
  | .ctlRdBsInc inp => Sys2Proof.Machine.execCtlRdBsInc inp s
  | .ctlWrBsRst inp => Sys2Proof.Machine.execCtlWrBsRst inp s
  | .ctlWrBsInc inp => Sys2Proof.Machine.execCtlWrBsInc inp s
  | .ctlRdphase inp => Sys2Proof.Machine.execCtlRdphase inp s
  | .ctlWrphase inp => Sys2Proof.Machine.execCtlWrphase inp s
  | .phyConstruct cfg => Sys2Proof.Machine.execPhyConstruct cfg s
  | .phyStep inp => Sys2Proof.Machine.execPhyStep inp s

end Sys2Proof.Machine
end

