-- ==== Sys2Proof/Machine/Fetch.lean ====
section
/-! DEFINITION. What the machine does next. The block has no program counter and fetches nothing (R25); what stands in
the place of an instruction stream is the list of what the parties outside have asked for (R17, R99): calls of the
construction-time functions and the records of steps. -/

namespace Sys2Proof.Machine

/-- The record of the step in which nothing is presented: every field 0, the phase offsets at the resolved values
(R31, R99). DESIGN CHOICE (log entry 5): the block steps on when nothing is asked of it (R295, R313). -/
def quietIn (s : State) : In := idleIn s.cfg.R s.cfg.N s.settings.readPhase s.settings.writePhase

/-- The operation the machine runs next and what stays asked of it afterwards. -/
def fetch (s : State) : Except Refusal (Instr × List Stimulus) :=
  match s.pending with
  | [] => .ok (.phyStep (quietIn s), [])
  | .step record :: rest =>
    match decode s.cfg.R s.cfg.N record with
    | .ok i => .ok (i, rest)
    | .error why => .error (.badRecord why)
  | .call i :: rest => if i.format = .func then .ok (i, rest) else .error .notCallable

end Sys2Proof.Machine
end

