-- ==== Sys2Proof/Machine/Step.lean ====
section
/-! DEFINITION. One step of the machine, and the placing of a word where it fetches. -/

namespace Sys2Proof.Machine

/-- One step of the machine: what `fetch` finds runs; where it finds nothing well formed, it says why. -/
def step (s : State) : Host.Outcome State Fault Refusal :=
  match fetch s with
  | .ok (i, rest) => exec i { s with pending := rest }
  | .error why => .refused why

/-- The state with a step's record placed where the next step fetches: first among the stimuli. The record's low
`nbits` bits are those of `w`, its other bits are 0. -/
def State.withFetchWord (s : State) (nbits w : Nat) : State :=
  { s with pending := .step (w % 2 ^ nbits) :: s.pending }

end Sys2Proof.Machine
end

