-- ==== Sys2Proof/Safety.lean ====
section
/-! DEFINITION. The terms in which claims are made: the widths and sizes every register and record has (the invariant),
a run of the block (R295), and the endless stream of command slots over which R166 to R170 define the arbiter. -/

namespace Sys2Proof.Machine

/-! ### The invariant: sizes of R22 to R30, ranges of R29 and R31, widths of R85 and R86 -/

/-- `n` words of `k` bits. -/
abbrev Words (n k : Nat) (ws : List Bits) : Prop := ws.length = n ∧ ∀ w ∈ ws, w.length = k

/-- A transcoder instance of width `W`: `buf` has `2·W` bits and `S ∈ [0, W)` (R29). -/
abbrev Transcoder.Fits (W : Nat) (t : Transcoder) : Prop := t.buf.length = 2 * W ∧ t.rot < W

/-- A group of `n` instances (R30). -/
abbrev Group (n W : Nat) (ts : List Transcoder) : Prop := ts.length = n ∧ ∀ t ∈ ts, t.Fits W

/-- The sizes of the registers (R22, R23, R24, R28, R30). -/
abbrev Regs.Fits (c : Cfg) (st : Settings) (r : Regs) : Prop :=
  r.rdLine.length = st.readLatency ∧ r.wrLine.length = st.wrtap + 2 ∧ r.arb.outw.length = c.R
    ∧ r.ckeReg.length = c.R ∧ r.odtReg.length = c.R ∧ r.rstnReg.length = c.R
    ∧ Group c.N c.W r.wrDq ∧ Group (if c.maskedWrite then c.NB else 0) c.W r.wrDm
    ∧ Group c.NB c.W r.wrDqs ∧ Group c.N c.W r.rdDq

/-- The widths of the output record (R82, R86). -/
abbrev Out.Fits (c : Cfg) (o : Out) : Prop :=
  Words c.R (2 * c.N) o.rdData ∧ o.rdValid.length = c.R
    ∧ o.pad.clk.length = c.W ∧ o.pad.cke.length = c.R ∧ o.pad.odt.length = c.R ∧ o.pad.resetN.length = c.R
    ∧ o.pad.cs.length = c.R ∧ Words 6 c.R o.pad.ca
    ∧ Words c.N c.W o.pad.dqO ∧ Words c.NB c.W o.pad.dmiO ∧ Words c.NB c.W o.pad.dqsO

/-- `n` lanes, each with a queue of `k` half-words of `h` bits. -/
abbrev Queues (n k h : Nat) (qs : List (List Bits)) : Prop := qs.length = n ∧ ∀ q ∈ qs, Words k h q

/-- The sizes of the wrapper's queues (R253): a half-word of a double-rate lane has `W/2 = R` bits, one of a command
lane `R/2`. -/
abbrev WrapQueues.Fits (c : Cfg) (q : WrapQueues) : Prop :=
  Words c.rhSer c.R q.serq.clk ∧ Words c.rhSer (c.R / 2) q.serq.cke ∧ Words c.rhSer (c.R / 2) q.serq.odt
    ∧ Words c.rhSer (c.R / 2) q.serq.resetN ∧ Words c.rhSer (c.R / 2) q.serq.cs
    ∧ Queues 6 c.rhSer (c.R / 2) q.serq.ca ∧ Queues c.N c.rhSer c.R q.serq.dqO
    ∧ Queues c.NB c.rhSer c.R q.serq.dmiO ∧ Queues c.NB c.rhSer c.R q.serq.dqsO
    ∧ q.serq.dqOe.length = c.rhSer ∧ q.serq.dmiOe.length = c.rhSer ∧ q.serq.dqsOe.length = c.rhSer
    ∧ Queues c.N c.rhDes c.R q.desq.dqI ∧ Queues c.NB c.rhDes c.R q.desq.dmiI ∧ Queues c.NB c.rhDes c.R q.desq.dqsI

/-- A configuration from which construction gives these settings (R290). -/
abbrev Configured (c : Cfg) (st : Settings) : Prop :=
  c.N % 8 = 0 ∧ c.wellTyped = true ∧ (resolve (coreCfg c)).toOption = some st

/-- What every constructed block keeps: the constants are those of its construction, and every register, record and
signal that a register takes has the size its rule gives. -/
structure State.Inv (s : State) : Prop where
  /-- the constants are a configuration and its settings (R33, R290) -/
  configured : Configured s.cfg s.settings
  /-- the registers have their sizes -/
  regs : s.regs.Fits s.cfg s.settings
  /-- the input record is one of this block's (R81, R84, R85) -/
  inp : s.inp.shaped s.cfg.R s.cfg.N = true
  /-- the output record has the widths of R82 and R86 -/
  out : s.out.Fits s.cfg
  /-- the strobe word has `W` bits (R235) -/
  strobeWord : s.wires.strobeWord.length = s.cfg.W
  /-- the inner block's pad inputs have the widths of R85 (R255) -/
  padIn : padShaped s.cfg.R s.cfg.N s.wires.padIn = true
  /-- with the wrapper, its queues have their sizes (R253) -/
  wrap : s.cfg.wrapped = true → s.wrap.Fits s.cfg

/-! ### Runs (R295) -/

/-- A run: `ins t` is `In(t)` and `states t` is `σ(t)`; `Out(t)` is `(states (t + 1)).out`. -/
def IsRun (ins : Nat → In) (states : Nat → State) : Prop :=
  ∀ t, exec (.phyStep (ins t)) (states t) = .next (states (t + 1))

/-- The states of the run on given inputs, where every record is one of this block's. -/
def runFrom (ins : Nat → In) (s : State) : Nat → State
  | 0 => s
  | t + 1 => takeStep (ins t) (runFrom ins s t)

/-! ### The slot stream (R166 to R170) -/

/-- `V[n]`: the validity bit of slot `n = R·t + p` (R166). -/
def slotValid (R : Nat) (ins : Nat → In) (n : Nat) : Bool := (phaseAt (ins (n / R)) (n % R)).cmdValid

/-- `P[n][k]`: the payload rows of slot `n` (R166). -/
def slotRow (R : Nat) (ins : Nat → In) (n k : Nat) : Row := payRow (phaseAt (ins (n / R)) (n % R)) k

/-- The history bits of the three slots before slot `n`: `Hst[n−1]`, `Hst[n−2]`, `Hst[n−3]`, 0 before slot 0
(R167). -/
def slotsBefore (mode : ArbHistory) (V : Nat → Bool) : Nat → Bool × Bool × Bool
  | 0 => (false, false, false)
  | n + 1 =>
    let (a, b, c) := slotsBefore mode V n
    match mode with
    | .raw => (V n, a, b)
    | .filtered => (V n && !(a || b || c), a, b)

/-- `Hst[n]` (R167). -/
def slotHist (mode : ArbHistory) (V : Nat → Bool) (n : Nat) : Bool := (slotsBefore mode V (n + 1)).1

/-- `allowed[n]` (R168). -/
def slotAllowed (enable : Bool) (mode : ArbHistory) (V : Nat → Bool) (n : Nat) : Bool :=
  let (a, b, c) := slotsBefore mode V n
  if enable then !(a || b || c) else true

/-- `contrib[n][m]` (R169). -/
def slotContrib (allowed : Nat → Bool) (P : Nat → Nat → Row) (n m : Nat) : Row :=
  if n ≤ m ∧ m < n + cmdTicks then repRow (allowed n) &&& P n (m - n) else 0

/-- `contrib[m − d][m]`, 0 for a slot before slot 0 (R166). -/
def slotContribBack (allowed : Nat → Bool) (P : Nat → Nat → Row) (m d : Nat) : Row :=
  if d ≤ m then slotContrib allowed P (m - d) m else 0

/-- `BUS[m]` (R170). -/
def slotBus (allowed : Nat → Bool) (P : Nat → Nat → Row) (m : Nat) : Row :=
  slotContribBack allowed P m 0 ||| slotContribBack allowed P m 1 ||| slotContribBack allowed P m 2
    ||| slotContribBack allowed P m 3

/-- `allowed` over the slots of a run of a block with configuration `c`. -/
def runAllowed (c : Cfg) (ins : Nat → In) (n : Nat) : Bool :=
  slotAllowed c.arbEnable c.arbHistory (slotValid c.R ins) n

/-- `BUS` over the slots of a run of a block with configuration `c`. -/
def runBus (c : Cfg) (ins : Nat → In) (m : Nat) : Row := slotBus (runAllowed c ins) (slotRow c.R ins) m

/-- The contract on the controller of R176: a slot without a valid command has zero rows. -/
def ZeroRowsWhenInvalid (V : Nat → Bool) (P : Nat → Nat → Row) : Prop := ∀ n, V n = false → ∀ k, P n k = 0

/-- The three history bits that the arbiter holds, newest first (R24). -/
def historyOf (arb : Arbiter) : Bool × Bool × Bool := (arb.vh0, arb.vh1, arb.vh2)

/-- The three rows that earlier steps have placed on the window of the step (R24). -/
def spilledOf (arb : Arbiter) : Row × Row × Row := (arb.spill0, arb.spill1, arb.spill2)

/-! ### Bits of lane words -/

/-- Bit `g = W·t + i` of a stream of words of `W` bits is bit `i` of the word of step `t` (R60, R207). -/
def streamBit (W : Nat) (words : Nat → Bits) (g : Nat) : Bool := bitAt (words (g / W)) (g % W)

/-- The word is the instance's window: bit `i` is `buf[S + i]` (R202). -/
def Shows (W : Nat) (t : Transcoder) (word : Bits) : Prop :=
  word.length = W ∧ ∀ i < W, bitAt word i = bitAt t.buf (t.rot + i)

/-- The instance `t` has become `t'` by the table of R206, bit by bit: `x i` is bit `i` of the step's input word. -/
def Transcodes (W sReset : Nat) (x : Nat → Bool) (rst inc : Bool) (t t' : Transcoder) : Prop :=
  if rst then t'.buf = zeros (2 * W) ∧ t'.rot = sReset
  else t'.buf.length = 2 * W
    ∧ (∀ i < W, bitAt t'.buf i = bitAt t.buf (W + i) ∧ bitAt t'.buf (W + i) = x i)
    ∧ t'.rot = if inc then (t.rot + 1) % W else t.rot

/-- Every instance of a group of `n` has become the instance of the same index by the table of R206, each with its own
word and controls (R213, R215). -/
def GroupTranscodes (n W sReset : Nat) (x : Nat → Nat → Bool) (rst inc : Nat → Bool) (ts ts' : List Transcoder) : Prop :=
  ts.length = n ∧ ts'.length = n
    ∧ ∀ k < n, ∀ t t', ts[k]? = some t → ts'[k]? = some t' → Transcodes W sReset (x k) (rst k) (inc k) t t'

/-- Every word of a list of `n` is the window of the instance of the same index (R202). -/
def GroupShows (n W : Nat) (ts : List Transcoder) (words : List Bits) : Prop :=
  ts.length = n ∧ words.length = n
    ∧ ∀ k < n, ∀ t w, ts[k]? = some t → words[k]? = some w → Shows W t w

/-- The word lanes of a record of pad outputs, in the order of R86. -/
def PadLanes.wordLanes {α β : Type} (p : PadLanes α β) : List α :=
  p.clk :: p.cke :: p.odt :: p.resetN :: p.cs :: (p.ca ++ p.dqO ++ p.dmiO ++ p.dqsO)

/-- The enables of a record of pad outputs, in the order of R86. -/
def PadLanes.enables {α β : Type} (p : PadLanes α β) : List β := [p.dqOe, p.dmiOe, p.dqsOe]

/-- The lanes of a record of pad inputs, in the order of R85. -/
def padInLanes {α : Type} (p : PadInLanes α) : List α := p.dqI ++ p.dmiI ++ p.dqsI

/-- The half of half-step `u` of a stream of words: the low half at even `u`, the high half at odd `u` (R254). -/
def halfOf (words : Nat → Bits) (u : Nat) : Bits :=
  let w := words (u / 2)
  if u % 2 = 0 then w.take (w.length / 2) else w.drop (w.length / 2)

/-- The value of half-step `u` of a stream of pairs (R252). -/
def halfStep {α : Type} (pairs : Nat → Halves α) (u : Nat) : α :=
  if u % 2 = 0 then (pairs (u / 2)).first else (pairs (u / 2)).second

end Sys2Proof.Machine
end

