-- ==== Sys2Proof/Certificates/Slice0/Obligations.lean ====
section
/-! DEFINITION. The statements about the model, from the numbered rules of the spec, file by file. None is proved
here. A docstring names the rule it formalises; where the spec marks that rule as its own decision or derivation,
or the model chose, it says so. -/

open Sys2Proof Sys2Proof.Machine

/-! ### Latency Algebra (R110 to R113) -/

/-- R111: `make(s, f, R) = (s + f div R, f mod R)`, with no encoding. That `make` normalises every `f` is the spec's
own reading ("the reading that keeps the invariant for every constructed value"). -/
def Obligations.LatMakeCarriesIntoSlowCycles : Prop :=
  ∀ (slow fast R : Nat) (s : State), 0 < R →
    exec (.latMake slow fast R) s = .next { s with ret := .latency ⟨slow + fast / R, fast % R⟩ }
      ∧ (∀ R' N', encode R' N' (.latMake slow fast R) = none)
      ∧ fast % R < R
      ∧ (fast < R → (⟨slow + fast / R, fast % R⟩ : Latency) = ⟨slow, fast⟩)

/-- R112: `add` sums the components, then normalizes; the carry is 0 or 1, and adding `(0, 0)` returns the other
operand. -/
def Obligations.LatAddSumsThenNormalizes : Prop :=
  ∀ (a b : Latency) (R : Nat) (s : State), 0 < R → a.fastTicks < R → b.fastTicks < R →
    (let sum : Latency :=
        ⟨a.slowCycles + b.slowCycles + (a.fastTicks + b.fastTicks) / R, (a.fastTicks + b.fastTicks) % R⟩
     exec (.latAdd a b R) s = .next { s with ret := .latency sum })
      ∧ (∀ R' N', encode R' N' (.latAdd a b R) = none)
      ∧ (a.fastTicks + b.fastTicks) / R ≤ 1
      ∧ exec (.latAdd a ⟨0, 0⟩ R) s = .next { s with ret := .latency a }
      ∧ exec (.latAdd ⟨0, 0⟩ b R) s = .next { s with ret := .latency b }

/-- R113: `add` is associative and commutative, `(0, 0)` is the identity, the result is canonical and denotes the sum
of the durations, and a canonical pair is determined by its duration. -/
def Obligations.LatencyAdditionLaws : Prop :=
  ∀ (a b c : Latency) (R : Nat), a.fastTicks < R → b.fastTicks < R → c.fastTicks < R →
    latAdd (latAdd a b R) c R = latAdd a (latAdd b c R) R
      ∧ latAdd a b R = latAdd b a R
      ∧ latAdd a ⟨0, 0⟩ R = a
      ∧ (latAdd a b R).fastTicks < R
      ∧ (latAdd a b R).slowCycles * R + (latAdd a b R).fastTicks
          = (a.slowCycles * R + a.fastTicks) + (b.slowCycles * R + b.fastTicks)
      ∧ (a.slowCycles * R + a.fastTicks = b.slowCycles * R + b.fastTicks → a = b)

/-! ### Timing Resolver (R120 to R133) -/

/-- The values that R122, R123, R124, R126 and R127 give; each operation returns its value and changes nothing else.
R122, R124 and R126 hold by the spec's decisions D23, D24 and D5. -/
def Obligations.TimingFunctionsReturnTheirFormulas : Prop :=
  ∀ s : State,
    (∀ (f : Ratio) (R : Nat), 0 < f.num → 0 < f.den → 0 < R →
      exec (.trPeriod f R) s = .next { s with ret := .period ⟨f.den, R * f.num⟩ })
    ∧ (∀ x R : Nat, 0 < R → ∃ q, exec (.trSyslat x R) s = .next { s with ret := .steps q }
        ∧ q = (x + R - 1) / R ∧ x ≤ q * R ∧ ∀ q', x ≤ q' * R → q ≤ q')
    ∧ (∀ cl cwl clSys0 cwlSys0 cmdLat serTicks desTicks R : Nat, serTicks < R → desTicks < R →
      exec (.trRawphase cl cwl clSys0 cwlSys0 cmdLat serTicks desTicks R) s
        = .next { s with
            ret := .rawPhases ((clSys0 : Int) * R - (cl + cmdLat + serTicks + desTicks))
              ((cwlSys0 : Int) * R - (cwl + cmdLat)) })
    ∧ (∀ clSys serSlow desSlow : Nat,
      exec (.trRdlat clSys serSlow desSlow) s = .next { s with ret := .steps (1 + serSlow + clSys + desSlow + 1) })
    ∧ (∀ cwlSys : Nat, exec (.trWrlat cwlSys) s = .next { s with ret := .steps cwlSys })

/-- R121: the pair of the entry with the least index whose threshold the period reaches, or `UnsupportedTiming` where
it reaches none; at an entry's exact threshold, that entry; no encoding. -/
def Obligations.LookupSelectsTheFirstReachedEntry : Prop :=
  ∀ (tCK : Ratio) (tbl : List TimingEntry) (s : State), tCK.positive = true → thresholdsDecrease tbl = true →
    (∀ (i : Nat) (e : TimingEntry), tbl[i]? = some e → e.threshold.num * tCK.den ≤ tCK.num * e.threshold.den →
      (∀ j < i, ∀ e' : TimingEntry, tbl[j]? = some e' → tCK.num * e'.threshold.den < e'.threshold.num * tCK.den) →
      exec (.trLookup tCK tbl) s = .next { s with ret := .casPair e.cl e.cwl })
    ∧ ((∀ e ∈ tbl, tCK.num * e.threshold.den < e.threshold.num * tCK.den) →
      exec (.trLookup tCK tbl) s = .fault .unsupportedTiming)
    ∧ (∀ e ∈ tbl, exec (.trLookup e.threshold tbl) s = .next { s with ret := .casPair e.cl e.cwl })
    ∧ ∀ R N, encode R N (.trLookup tCK tbl) = none

/-- R125: the loop, round by round, and the closed form the spec derives from it: `sys = ceil(X / R)`,
`phase = sys·R − X` (marked as derived from R123 and R124). -/
def Obligations.BorrowLoopsToItsClosedForm : Prop :=
  ∀ (raw : Int) (sys0 R : Nat) (s : State), 0 < R →
    (0 ≤ raw → exec (.trBorrow raw sys0 R) s = .next { s with ret := .borrowed raw.toNat sys0 })
    ∧ (raw < 0 → exec (.trBorrow raw sys0 R) s = exec (.trBorrow (raw + R) (sys0 + 1) R) s)
    ∧ (∀ X : Nat, raw = (sys0 : Int) * R - X → raw < R →
      ∃ phase sys, exec (.trBorrow raw sys0 R) s = .next { s with ret := .borrowed phase sys }
        ∧ phase < R ∧ sys * R = X + phase ∧ sys = (X + R - 1) / R)

/-- R128: the tap index is checked before it is used. It is negative exactly for `cwlSys = 0`, which needs
`CWL + CMD_LATENCY = 0` (the spec derives the latter from R125). -/
def Obligations.WrtapIsCheckedNotWrapped : Prop :=
  ∀ s : State, exec (.trWrtap 0) s = .fault .negativeTapIndex
    ∧ (∀ n, exec (.trWrtap (n + 1)) s = .next { s with ret := .steps n })
    ∧ ∀ (c : Cfg) (cl cwl : Nat), c.wellTyped = true → lookup (period c.targetFreq c.R) c.table = some (cl, cwl) →
      (exec (.trResolve c) s = .fault .negativeTapIndex ↔ cwl + c.cmdLatency = 0)

/-- R129: where the table has an entry and the tap index is not negative, `TR.RESOLVE` returns the settings and
changes nothing else; the settings satisfy R124 to R128 and R133, of which the spec marks R124, R126 and R133 as
decisions D24, D5 and D26. -/
def Obligations.ResolveReturnsTheSettings : Prop :=
  ∀ (c : Cfg) (s : State) (cl cwl : Nat), c.wellTyped = true →
    lookup (period c.targetFreq c.R) c.table = some (cl, cwl) → 0 < cwl + c.cmdLatency →
    ∃ st, exec (.trResolve c) s = .next { s with ret := .settings st }
      ∧ st.cl = cl ∧ st.cwl = cwl
      ∧ st.readPhase < c.R
      ∧ st.clSys * c.R = cl + c.cmdLatency + c.serLatency.fastTicks + c.desLatency.fastTicks + st.readPhase
      ∧ st.writePhase < c.R
      ∧ st.cwlSys * c.R = cwl + c.cmdLatency + st.writePhase
      ∧ st.readLatency = 1 + c.serLatency.slowCycles + st.clSys + c.desLatency.slowCycles + 1
      ∧ st.writeLatency = st.cwlSys ∧ st.wrtap + 1 = st.cwlSys
      ∧ st.cmdLatency = c.cmdLatency ∧ st.phyType = c.phyType ∧ st.cmdDelay = c.cmdDelay
      ∧ st.R = c.R ∧ st.N = c.N

/-- R130, which the spec derives from R125 to R127: the ranges the result always has. -/
def Obligations.ResolvedSettingsRanges : Prop :=
  ∀ (c : Cfg) (s : State) (st : Settings), exec (.trResolve c) s = .next { s with ret := .settings st } →
    st.readPhase < c.R ∧ st.writePhase < c.R
      ∧ (st.cl + c.R - 1) / c.R ≤ st.clSys ∧ (st.cwl + c.R - 1) / c.R ≤ st.cwlSys
      ∧ 2 ≤ st.readLatency ∧ st.writeLatency = st.wrtap + 1 ∧ 1 ≤ st.writeLatency
      ∧ (st.readPhase + (st.cl + c.cmdLatency + c.serLatency.fastTicks + c.desLatency.fastTicks)) % c.R = 0
      ∧ (st.writePhase + (st.cwl + c.cmdLatency)) % c.R = 0

/-! ### Construction (R290, R305 to R310, R40, R251, R253) -/

/-- R306, R308 and R307: exactly when construction ends in each of the three errors. That the lane width is checked
first is the spec's decision D25, that it is checked before the ranges of R317 the order of R290. -/
def Obligations.ConstructionErrorsExactlyWhen : Prop :=
  ∀ (c : Cfg) (s : State),
    (exec (.phyConstruct c) s = .fault .invalidLaneWidth ↔ c.N % 8 ≠ 0)
    ∧ (exec (.phyConstruct c) s = .fault .unsupportedTiming ↔ c.N % 8 = 0 ∧ c.wellTyped = true
        ∧ ∀ e ∈ c.table, c.targetFreq.den * e.threshold.den < e.threshold.num * (c.R * c.targetFreq.num))
    ∧ (exec (.phyConstruct c) s = .fault .negativeTapIndex ↔ c.N % 8 = 0 ∧ c.wellTyped = true
        ∧ ∃ cl, lookup (period c.targetFreq c.R) c.table = some (cl, 0) ∧ c.cmdLatency = 0)

/-- R290 and the initial values of R40 (the spec's decision D16): construction of a block without wrapper ends in its
initial state: the settings of `TR.RESOLVE`, every register of R20 zero with the size its rule gives, and every
rotation `S_RESET`. That a construction keeps the list `pending` is the model's choice (log entry 16). -/
def Obligations.ConstructionLeavesTheInitialState : Prop :=
  ∀ (c : Cfg) (s : State) (cl cwl : Nat), c.N % 8 = 0 → c.wellTyped = true → c.wrapped = false →
    lookup (period c.targetFreq c.R) c.table = some (cl, cwl) → 0 < cwl + c.cmdLatency →
    ∃ t st, exec (.phyConstruct c) s = .next t
      ∧ exec (.trResolve c) s = .next { s with ret := .settings st } ∧ t.cfg = c ∧ t.settings = st
      ∧ t.regs.rdLine = List.replicate st.readLatency false
      ∧ t.regs.wrLine = List.replicate (st.wrtap + 2) false
      ∧ t.regs.arb = ⟨false, false, false, 0, 0, 0, List.replicate c.R 0⟩
      ∧ t.regs.ckeReg = List.replicate c.R false ∧ t.regs.odtReg = List.replicate c.R false
      ∧ t.regs.rstnReg = List.replicate c.R false
      ∧ t.regs.wrDq = List.replicate c.N ⟨List.replicate (2 * c.W) false, c.sReset⟩
      ∧ t.regs.wrDm = List.replicate (if c.maskedWrite then c.NB else 0) ⟨List.replicate (2 * c.W) false, c.sReset⟩
      ∧ t.regs.wrDqs = List.replicate c.NB ⟨List.replicate (2 * c.W) false, c.sReset⟩
      ∧ t.regs.rdDq = List.replicate c.N ⟨List.replicate (2 * c.W) false, c.sReset⟩
      ∧ t.pending = s.pending

/-- R251, R253 (the spec's decision D31): the wrapped block is the block of the inflated latencies, with a queue of
zero half-words or bits for every lane and every enable, of the widths of R252. -/
def Obligations.WrapConstructsTheInnerBlock : Prop :=
  ∀ (c : Cfg) (s : State) (cl cwl : Nat), c.N % 8 = 0 → c.wellTyped = true → c.wrapped = true →
    lookup (period c.targetFreq c.R) c.table = some (cl, cwl) → 0 < cwl + c.cmdLatency →
    let wide := List.replicate c.rhSer (List.replicate (c.W / 2) false)
    let narrow := List.replicate c.rhSer (List.replicate (c.R / 2) false)
    let enable := List.replicate c.rhSer false
    let input := List.replicate c.rhDes (List.replicate (c.W / 2) false)
    ∃ t, exec (.rhWrap c) s = .next t ∧ exec (.phyConstruct c) s = .next t ∧ t.cfg = c
      ∧ resolve { c with
          serLatency := latAdd c.serLatency (latMake 0 (c.rhSer * (c.R / 2)) c.R) c.R
          desLatency := latAdd c.desLatency (latMake 0 (c.rhDes * (c.R / 2)) c.R) c.R
          wrapped := false } = .ok t.settings
      ∧ t.regs = Regs.initial c t.settings
      ∧ t.wrap.serq =
          { clk := wide, cke := narrow, odt := narrow, resetN := narrow, cs := narrow
            ca := List.replicate 6 narrow
            dqO := List.replicate c.N wide, dqOe := enable
            dmiO := List.replicate c.NB wide, dmiOe := enable
            dqsO := List.replicate c.NB wide, dqsOe := enable }
      ∧ t.wrap.desq =
          { dqI := List.replicate c.N input, dmiI := List.replicate c.NB input, dqsI := List.replicate c.NB input }

/-- The model's choice of the machine at reset (log entry 1): it is the base design as `PHY.CONSTRUCT` leaves it. -/
def Obligations.ResetIsTheConstructedBaseDesign : Prop :=
  exec (.phyConstruct baseCfg) State.reset = .next State.reset

/-- R332, which the spec derives from the initial values of R40 (decision D16): the first step after construction
shows zero on every lane, no enable, no valid read; `dqs_oe` is `wlevelEn`, or-ed with the step's write enable when
`wrtap = 0`; the clock lane is `PAT_CLK`. -/
def Obligations.FirstStepShowsTheInitialState : Prop :=
  ∀ (c : Cfg) (s t t' : State) (inp : In), c.wrapped = false → exec (.phyConstruct c) s = .next t →
    exec (.phyStep inp) t = .next t' →
    t'.out.rdData = List.replicate c.R (List.replicate (2 * c.N) false)
      ∧ t'.out.rdValid = List.replicate c.R false
      ∧ t'.out.pad.clk = c.patClk
      ∧ t'.out.pad.cke = List.replicate c.R false
      ∧ t'.out.pad.odt = List.replicate c.R false
      ∧ t'.out.pad.resetN = List.replicate c.R false
      ∧ t'.out.pad.cs = List.replicate c.R false
      ∧ t'.out.pad.ca = List.replicate 6 (List.replicate c.R false)
      ∧ t'.out.pad.dqO = List.replicate c.N (List.replicate c.W false)
      ∧ t'.out.pad.dqOe = false
      ∧ t'.out.pad.dmiO = List.replicate c.NB (List.replicate c.W false)
      ∧ t'.out.pad.dmiOe = false
      ∧ t'.out.pad.dqsO = List.replicate c.NB (List.replicate c.W false)
      ∧ t'.out.pad.dqsOe
          = (inp.ctl.wlevelEn || (decide (t.settings.wrtap = 0) && inp.phases.any Phase.wrEn))

/-! ### Encoding (R94, R95, R100) -/

/-- Decoding what the encoder writes gives the operation back, for every well-formed operation that has an
encoding. The container of the control word is the model's choice (log entry 4). -/
def Obligations.DecodeOfEncode : Prop :=
  ∀ (R N w : Nat) (i : Instr), ratioTyped R = true → i.wellFormed R N = true → encode R N i = some w →
    decode R N w = .ok i

/-- Every record that decodes is the encoding of what it decodes to, which is well formed: no bit is dropped and no
two records name the same operation. The container of the control word is the model's choice (log entry 4), as is
the order in which selected rows name a step (log entry 3). -/
def Obligations.EncodeOfDecode : Prop :=
  ∀ (R N w : Nat) (i : Instr), ratioTyped R = true → decode R N w = .ok i →
    i.wellFormed R N = true ∧ encode R N i = some w

/-- R95 (the spec's decision D29) and the vectors V8 of 95_test_vectors.md: which fields the quoted control words
set. The name `CTL.RD_BS_INC` for the step of 0x2010 is the model's choice (log entry 3): the word selects `CTL.DLY_SEL`
and every row of class `STEP` as well (R94, R269). -/
def Obligations.ControlWordsOfTheBaseDesign : Prop :=
  let quiet : Ctl := (idleIn 8 16 0 0).ctl
  Ctl.ofWord 8 16 0x0000 = quiet
    ∧ Ctl.ofWord 8 16 0x0001 = { quiet with rst := true }
    ∧ Ctl.ofWord 8 16 0x0006 = { quiet with wlevelEn := true, wlevelStrobe := true }
    ∧ Ctl.ofWord 8 16 0x2008 = { quiet with dlySel := [true, false], rdBsRst := true }
    ∧ Ctl.ofWord 8 16 0x4020 = { quiet with dlySel := [false, true], wrBsRst := true }
    ∧ Ctl.ofWord 8 16 0x6040 = { quiet with dlySel := [true, true], wrBsInc := true }
    ∧ Ctl.ofWord 8 16 0x3310 =
        { quiet with rdPhase := 6, wrPhase := 4, dlySel := [true, false], rdBsInc := true }
    ∧ decodeTableWord 16 0x2010
        = some (.ctlRdBsInc { idleIn 8 16 0 0 with ctl := { quiet with dlySel := [true, false], rdBsInc := true } })
    ∧ decodeTableWord 16 0x8000 = none

/-! ### The machine's step -/

/-- A step runs the decoded operation: where the first stimulus is a record that decodes to `i`, `step` is `exec i`
with that stimulus taken; a called construction-time function runs likewise; with nothing asked, the block takes a
quiet step (the model's choices: log entries 2 and 5). -/
def Obligations.StepRunsTheDecodedOperation : Prop :=
  ∀ (s : State) (i : Instr) (rest : List Stimulus),
    (∀ w : Nat, s.pending = .step w :: rest → decode s.cfg.R s.cfg.N w = .ok i →
      step s = exec i { s with pending := rest })
    ∧ (s.pending = .call i :: rest → i.format = .func → step s = exec i { s with pending := rest })
    ∧ (s.pending = [] → step s
        = exec (.phyStep (idleIn s.cfg.R s.cfg.N s.settings.readPhase s.settings.writePhase)) { s with pending := [] })

/-- R80, R291, R16: on a record of the block's widths a step never fails. That each row of the control surface, on a
record that names it, is that step is the model's reading of R94 (log entry 15, DEDUCED). -/
def Obligations.StepsOnWellFormedRecordsComplete : Prop :=
  ∀ (s : State) (inp : In),
    (inp.shaped s.cfg.R s.cfg.N = true → ∃ t, exec (.phyStep inp) s = .next t ∧ t.inp = inp)
    ∧ ∀ i ∈ [Instr.ctlRst inp, .ctlWlevelEn inp, .ctlWlevelStrobe inp, .ctlDlySel inp, .ctlRdBsRst inp,
        .ctlRdBsInc inp, .ctlWrBsRst inp, .ctlWrBsInc inp, .ctlRdphase inp, .ctlWrphase inp],
      i.wellFormed s.cfg.R s.cfg.N = true →
        ∃ t, exec i s = .next t ∧ exec (.phyStep inp) s = .next t

/-- What lies outside the declared ranges is refused by name: R110, R121, R122, R317 and R30 for operands,
configurations and instances, R80 for the widths of records, U21 for a record with a bit no field has. That a stimulus
calls only construction-time functions is the model's choice (log entries 2 and 13). -/
def Obligations.IllTypedTermsAreRefused : Prop :=
  ∀ s : State,
    (∀ inp : In, inp.shaped s.cfg.R s.cfg.N = false →
      ∀ i ∈ [Instr.phyStep inp, .ctlRst inp, .ctlWlevelEn inp, .ctlWlevelStrobe inp, .ctlDlySel inp, .ctlRdBsRst inp,
        .ctlRdBsInc inp, .ctlWrBsRst inp, .ctlWrBsInc inp, .ctlRdphase inp, .ctlWrphase inp],
        exec i s = .refused .illTypedInput)
    ∧ (∀ slow fast : Nat, exec (.latMake slow fast 0) s = .refused .illTypedOperand)
    ∧ (∀ (a b : Latency) (R : Nat), (a.canonical R && b.canonical R) = false →
        exec (.latAdd a b R) s = .refused .illTypedOperand)
    ∧ (∀ (tCK : Ratio) (tbl : List TimingEntry), (tCK.positive && thresholdsDecrease tbl) = false →
        exec (.trLookup tCK tbl) s = .refused .illTypedOperand)
    ∧ (∀ (f : Ratio) (R : Nat), f.positive = false ∨ R = 0 → exec (.trPeriod f R) s = .refused .illTypedOperand)
    ∧ (∀ x : Nat, exec (.trSyslat x 0) s = .refused .illTypedOperand)
    ∧ (∀ cl cwl clSys0 cwlSys0 cmdLat serTicks desTicks R : Nat, R ≤ serTicks ∨ R ≤ desTicks →
        exec (.trRawphase cl cwl clSys0 cwlSys0 cmdLat serTicks desTicks R) s = .refused .illTypedOperand)
    ∧ (∀ (raw : Int) (sys0 : Nat), exec (.trBorrow raw sys0 0) s = .refused .illTypedOperand)
    ∧ (∀ c : Cfg, c.wellTyped = false → exec (.trResolve c) s = .refused .illTypedConfig)
    ∧ (∀ c : Cfg, c.N % 8 = 0 → c.wellTyped = false → exec (.phyConstruct c) s = .refused .illTypedConfig
        ∧ exec (.rhWrap c) s = .refused .illTypedConfig)
    ∧ (∀ c : Cfg, c.wrapped = false → exec (.rhWrap c) s = .refused .illTypedConfig)
    ∧ (∀ (lane : Lane) (x : Bits) (inc rst : Bool),
        (instanceAt s lane = none →
          exec (.bsOut lane) s = .refused .noSuchInstance
            ∧ (x.length = s.cfg.W → exec (.bsStep lane x rst) s = .refused .noSuchInstance)
            ∧ exec (.bsInc lane inc rst) s = .refused .noSuchInstance
            ∧ exec (.bsRst lane rst) s = .refused .noSuchInstance)
        ∧ (x.length ≠ s.cfg.W → exec (.bsStep lane x rst) s = .refused .illTypedOperand))
    ∧ (s.cfg.maskedWrite = false → s.Inv → ∀ y, instanceAt s (.wrDm y) = none)
    ∧ (∀ (w : Nat) (e : DecodeError) (rest : List Stimulus), s.pending = .step w :: rest →
        decode s.cfg.R s.cfg.N w = .error e → step s = .refused (.badRecord e))
    ∧ (∀ (i : Instr) (rest : List Stimulus), s.pending = .call i :: rest → i.format ≠ .func →
        step s = .refused .notCallable)

/-! ### Tapped delay lines (R150 to R157) -/

/-- R151, R152: one line shifts by one position and takes the driving value at tap 0; the read exposes the input, the
taps and the oldest tap. Nothing else changes. -/
def Obligations.DelayLineShiftsAndReads : Prop :=
  ∀ (s : State) (x : Bool),
    (∃ taps, exec (.tdlStep .rdLine x) s = .next { s with regs := { s.regs with rdLine := taps } }
      ∧ taps.length = s.regs.rdLine.length ∧ (0 < taps.length → bitAt taps 0 = x)
      ∧ ∀ k, k + 1 < taps.length → bitAt taps (k + 1) = bitAt s.regs.rdLine k)
    ∧ (∃ taps, exec (.tdlStep .wrLine x) s = .next { s with regs := { s.regs with wrLine := taps } }
      ∧ taps.length = s.regs.wrLine.length ∧ (0 < taps.length → bitAt taps 0 = x)
      ∧ ∀ k, k + 1 < taps.length → bitAt taps (k + 1) = bitAt s.regs.wrLine k)
    ∧ exec (.tdlRead .rdLine x) s
        = .next { s with ret := .taps x s.regs.rdLine (bitAt s.regs.rdLine (s.regs.rdLine.length - 1)) }
    ∧ exec (.tdlRead .wrLine x) s
        = .next { s with ret := .taps x s.regs.wrLine (bitAt s.regs.wrLine (s.regs.wrLine.length - 1)) }

/-- R154, R155, R156: the read-valid line is driven by the or over phases of `rdEn`, the write-enable line by that of
`wrEn` (the spec's decision D15), and `rdValid` of every phase is tap `readLatency − 1`. -/
def Obligations.ValidAndEnableLines : Prop :=
  ∀ s : State,
    exec .rdvStep s = exec (.tdlStep .rdLine (s.inp.phases.any Phase.rdEn)) s
    ∧ exec .wrenStep s = exec (.tdlStep .wrLine (s.inp.phases.any Phase.wrEn)) s
    ∧ (∃ t t', exec .rdvStep s = .next t ∧ exec .wrenStep s = .next t')
    ∧ (let valid := List.replicate s.cfg.R (bitAt s.regs.rdLine (s.settings.readLatency - 1))
     exec .rdvOut s = .next { s with out := { s.out with rdValid := valid } })

/-- R153: along every run, tap `k` is the driving value of exactly `k + 1` steps before, and before that the initial
value, shifted. -/
def Obligations.TapsHoldTheInputsOfThePast : Prop :=
  ∀ (ins : Nat → In) (states : Nat → State), IsRun ins states → (states 0).Inv →
    ∀ t k,
      (k < (states 0).settings.readLatency →
        bitAt (states t).regs.rdLine k
          = if k < t then (ins (t - k - 1)).phases.any Phase.rdEn else bitAt (states 0).regs.rdLine (k - t))
      ∧ (k < (states 0).settings.wrtap + 2 →
        bitAt (states t).regs.wrLine k
          = if k < t then (ins (t - k - 1)).phases.any Phase.wrEn else bitAt (states 0).regs.wrLine (k - t))

/-- R155, R231, R209: at step `t` every phase's `rdValid` is the read enable of step `t − readLatency`, and `dq_oe` the
write enable of step `t − writeLatency`; the mask enable is `dq_oe` where the mask lanes are live (decision D21). -/
def Obligations.ValidAndEnableComeTheirLatencyLater : Prop :=
  ∀ (ins : Nat → In) (states : Nat → State), IsRun ins states → (states 0).Inv →
    ∀ t,
      ((states 0).settings.readLatency ≤ t →
        (states (t + 1)).out.rdValid = List.replicate (states 0).cfg.R
          ((ins (t - (states 0).settings.readLatency)).phases.any Phase.rdEn))
      ∧ ((states 0).settings.writeLatency ≤ t →
        (states (t + 1)).out.pad.dqOe = (ins (t - (states 0).settings.writeLatency)).phases.any Phase.wrEn)
      ∧ (states (t + 1)).out.pad.dmiOe = ((states 0).cfg.maskedWrite && (states (t + 1)).out.pad.dqOe)

/-! ### Command arbiter (R165 to R179) -/

/-- R167, R168: the history window of the step (in the register form that the spec derives in R172) and the `allowed`
bits a window gives; raw and filtered history are the spec's decision D8. -/
def Obligations.HistoryAndAllowedBits : Prop :=
  ∀ s : State, s.Inv →
    (∃ H, exec .arbHist s = .next { s with wires := { s.wires with hist := H } }
      ∧ H.length = s.cfg.R + 3
      ∧ bitAt H 0 = s.regs.arb.vh2 ∧ bitAt H 1 = s.regs.arb.vh1 ∧ bitAt H 2 = s.regs.arb.vh0
      ∧ ∀ (p : Nat) (ph : Phase), s.inp.phases[p]? = some ph →
          bitAt H (3 + p) = match s.cfg.arbHistory with
            | .raw => ph.cmdValid
            | .filtered => ph.cmdValid && !(bitAt H p || bitAt H (p + 1) || bitAt H (p + 2)))
    ∧ (∃ A, exec .arbAllow s = .next { s with wires := { s.wires with allowed := A } }
      ∧ A.length = s.cfg.R
      ∧ ∀ p < s.cfg.R, bitAt A p = if s.cfg.arbEnable
          then !(bitAt s.wires.hist p || bitAt s.wires.hist (p + 1) || bitAt s.wires.hist (p + 2)) else true)

/-- R169, R170: what each slot contributes to each fast tick of the window (the spec's decision D7), and the or of it
all with what earlier steps spilled, bit by bit. -/
def Obligations.SlippedContributionsAreOred : Prop :=
  ∀ s : State, s.Inv →
    (∃ C, exec .arbSlip s = .next { s with wires := { s.wires with contrib := C } }
      ∧ C.length = s.cfg.R
      ∧ ∀ (p : Nat) (ph : Phase), s.inp.phases[p]? = some ph → ∃ rows, C[p]? = some rows
          ∧ rows.length = s.cfg.R + 3
          ∧ ∀ (m : Nat) (row : Row), rows[m]? = some row →
              ∀ l < 7, row.getLsbD l = (decide (p ≤ m ∧ m < p + 4) && bitAt s.wires.allowed p
                && (if l = 0 then ph.cs.getLsbD (m - p) else (caRow ph (m - p)).getLsbD (l - 1))))
    ∧ (∃ B, exec .arbOr s = .next { s with wires := { s.wires with bus := B } }
      ∧ B.length = s.cfg.R + 3
      ∧ ∀ (m : Nat) (row : Row), B[m]? = some row → ∀ l < 7,
          (row.getLsbD l = true ↔ (spillRow s.regs.arb m).getLsbD l = true
            ∨ ∃ rows ∈ s.wires.contrib, (rows.getD m 0).getLsbD l = true))

/-- R171, R178, R179: the command lanes show the finished window, the clock lane `PAT_CLK`, and the three simple lanes
their registers, which take the phase inputs of the step. The one-step delay, the clock's content and the simple lanes
are the spec's decisions D5, D19 and D20. -/
def Obligations.CommandClockAndSimpleLanes : Prop :=
  ∀ s : State, s.Inv →
    (∃ cs ca, exec .arbOut s = .next { s with out := { s.out with pad := { s.out.pad with cs := cs, ca := ca } } }
      ∧ cs.length = s.cfg.R ∧ ca.length = 6
      ∧ ∀ (j : Nat) (row : Row), s.regs.arb.outw[j]? = some row →
          bitAt cs j = row.getLsbD 0 ∧ ∀ (l : Nat) (lane : Bits), ca[l]? = some lane →
            lane.length = s.cfg.R ∧ bitAt lane j = row.getLsbD (l + 1))
    ∧ exec .clkOut s = .next { s with out := { s.out with pad := { s.out.pad with clk := s.cfg.patClk } } }
    ∧ (∃ cke odt rstn, exec .simpleStep s = .next { s with
          out := { s.out with
            pad := { s.out.pad with cke := s.regs.ckeReg, odt := s.regs.odtReg, resetN := s.regs.rstnReg } }
          regs := { s.regs with ckeReg := cke, odtReg := odt, rstnReg := rstn } }
      ∧ cke.length = s.cfg.R ∧ odt.length = s.cfg.R ∧ rstn.length = s.cfg.R
      ∧ ∀ (p : Nat) (ph : Phase), s.inp.phases[p]? = some ph →
          bitAt cke p = ph.cke ∧ bitAt odt p = ph.odt ∧ bitAt rstn p = ph.resetN)

/-- R172, the register form that the spec derives from R166 to R171: the arbiter's registers after `ARB.STEP`, from
the history window, the `allowed` bits and the bus window of the step. -/
def Obligations.ArbiterRegisterForm : Prop :=
  ∀ s : State, s.Inv →
    ∃ (arb : Arbiter) (H A : List Bool) (bus : List Row),
      exec .arbStep s = .next { s with regs := { s.regs with arb := arb } }
      ∧ bitAt H 0 = s.regs.arb.vh2 ∧ bitAt H 1 = s.regs.arb.vh1 ∧ bitAt H 2 = s.regs.arb.vh0
      ∧ (∀ (p : Nat) (ph : Phase), s.inp.phases[p]? = some ph →
          bitAt A p = (if s.cfg.arbEnable then !(bitAt H p || bitAt H (p + 1) || bitAt H (p + 2)) else true)
          ∧ bitAt H (3 + p) = match s.cfg.arbHistory with
            | .raw => ph.cmdValid
            | .filtered => ph.cmdValid && !(bitAt H p || bitAt H (p + 1) || bitAt H (p + 2)))
      ∧ bus.length = s.cfg.R + 3
      ∧ (∀ m < s.cfg.R + 3, ∀ l < 7,
          ((bus.getD m 0).getLsbD l = true ↔ (spillRow s.regs.arb m).getLsbD l = true
            ∨ ∃ p k ph, s.inp.phases[p]? = some ph ∧ k < 4 ∧ m = p + k ∧ bitAt A p = true
                ∧ (payRow ph k).getLsbD l = true))
      ∧ arb.outw = bus.take s.cfg.R
      ∧ arb.spill0 = bus.getD s.cfg.R 0 ∧ arb.spill1 = bus.getD (s.cfg.R + 1) 0
      ∧ arb.spill2 = bus.getD (s.cfg.R + 2) 0
      ∧ arb.vh0 = bitAt H (s.cfg.R + 2) ∧ arb.vh1 = bitAt H (s.cfg.R + 1) ∧ arb.vh2 = bitAt H s.cfg.R

/-- R173, which the spec derives from R167 to R172: the register form agrees with the stream form, for every block and
either history mode, from the zero initial state on. -/
def Obligations.ArbiterRegistersAgreeWithTheStream : Prop :=
  ∀ (ins : Nat → In) (states : Nat → State), IsRun ins states → (states 0).Inv →
    (states 0).regs.arb = ⟨false, false, false, 0, 0, 0, List.replicate (states 0).cfg.R 0⟩ →
    let c := (states 0).cfg
    ∀ t,
      (∀ j < c.R, (states (t + 1)).regs.arb.outw[j]? = some (runBus c ins (c.R * t + j)))
      ∧ (∀ j < 3, spillRow (states (t + 1)).regs.arb j
          = (List.range (c.R * (t + 1))).foldl
              (fun acc n => acc ||| slotContrib (runAllowed c ins) (slotRow c.R ins) n (c.R * (t + 1) + j)) 0)
      ∧ (states (t + 1)).regs.arb.vh0 = slotHist c.arbHistory (slotValid c.R ins) (c.R * (t + 1) - 1)
      ∧ (states (t + 1)).regs.arb.vh1 = slotHist c.arbHistory (slotValid c.R ins) (c.R * (t + 1) - 2)
      ∧ (states (t + 1)).regs.arb.vh2 = slotHist c.arbHistory (slotValid c.R ins) (c.R * (t + 1) - 3)

/-- R171 (the one-step delay is the spec's decision D5): the command lanes of step `t + 1` show the bus window of step
`t`; those of step 0 are zero. -/
def Obligations.CommandLanesShowTheBusOneStepLate : Prop :=
  ∀ (ins : Nat → In) (states : Nat → State), IsRun ins states → (states 0).Inv →
    (states 0).regs.arb = ⟨false, false, false, 0, 0, 0, List.replicate (states 0).cfg.R 0⟩ →
    let c := (states 0).cfg
    (∀ j < c.R, bitAt (states 1).out.pad.cs j = false
      ∧ ∀ l < 6, bitAt (wordAt (states 1).out.pad.ca l) j = false)
    ∧ ∀ t, ∀ j < c.R, bitAt (states (t + 2)).out.pad.cs j = (runBus c ins (c.R * t + j)).getLsbD 0
      ∧ ∀ l < 6, bitAt (wordAt (states (t + 2)).out.pad.ca l) j = (runBus c ins (c.R * t + j)).getLsbD (l + 1)

/-- R177 over the slot stream of R166, in either history mode: with masking on and the contract of R176, a command
whose three preceding slots hold no valid command appears unmodified at its four fast ticks, whatever follows; a
command with a valid slot among the three before it, in the raw history, contributes nothing. -/
def Obligations.SpacedCommandsAppearAndCloseOnesVanish : Prop :=
  ∀ (mode : ArbHistory) (V : Nat → Bool) (P : Nat → Nat → Row), ZeroRowsWhenInvalid V P →
    (∀ n, V n = true → (∀ d, 0 < d → d ≤ 3 → d ≤ n → V (n - d) = false) → ∀ k < 4,
      slotBus (slotAllowed true mode V) P (n + k) = P n k)
    ∧ (∀ n d, 0 < d → d ≤ 3 → d ≤ n → V (n - d) = true →
      ∀ m, slotContrib (slotAllowed true .raw V) P n m = 0)

/-- R170 and R175 (their corner cases, derived from R167 and R168): with masking on and the contract of R176, at most
one slot contributes to a fast tick of the bus, in either history mode. -/
def Obligations.AtMostOneCommandOnTheBus : Prop :=
  ∀ (mode : ArbHistory) (V : Nat → Bool) (P : Nat → Nat → Row), ZeroRowsWhenInvalid V P →
    ∀ n n' m, slotContrib (slotAllowed true mode V) P n m ≠ 0 →
      slotContrib (slotAllowed true mode V) P n' m ≠ 0 → n = n'

/-- R175, which the spec derives from R167 and R168: what the two history modes do to valid slots at `n`, `n + 2` and
`n + 4` with none in the three before. -/
def Obligations.HistoryModesOnAChainOfCommands : Prop :=
  ∀ (V : Nat → Bool) (n : Nat), (∀ d, 0 < d → d ≤ 3 → d ≤ n → V (n - d) = false) →
    V n = true → V (n + 1) = false → V (n + 2) = true → V (n + 3) = false → V (n + 4) = true →
    slotAllowed true .raw V n = true ∧ slotAllowed true .raw V (n + 2) = false
      ∧ slotAllowed true .raw V (n + 4) = false
      ∧ slotAllowed true .filtered V n = true ∧ slotAllowed true .filtered V (n + 2) = false
      ∧ slotAllowed true .filtered V (n + 4) = true

/-! ### Bit lane transcoder and data paths (R200 to R216) -/

/-- R202 to R205 (which end of the buffer is newest, the wrap of the rotation and what a reset does to it are the
spec's decisions D10, D12 and D11): the four operations on one existing instance; every other instance and every other
field is unchanged. -/
def Obligations.OperationsOnOneTranscoder : Prop :=
  ∀ (s : State) (lane : Lane) (t : Transcoder), s.Inv → instanceAt s lane = some t →
    (∃ w, exec (.bsOut lane) s = .next { s with ret := .word w } ∧ Shows s.cfg.W t w)
    ∧ (∀ (x : Bits) (rst : Bool), x.length = s.cfg.W →
        ∃ t', exec (.bsStep lane x rst) s = .next (setInstance s lane t')
          ∧ t'.rot = t.rot ∧ (rst = true → t' = t)
          ∧ (rst = false → t'.buf.length = 2 * s.cfg.W
            ∧ ∀ i < s.cfg.W, bitAt t'.buf i = bitAt t.buf (s.cfg.W + i) ∧ bitAt t'.buf (s.cfg.W + i) = bitAt x i))
    ∧ (∀ inc rst : Bool,
        let rot := if !rst && inc then (t.rot + 1) % s.cfg.W else t.rot
        exec (.bsInc lane inc rst) s = .next (setInstance s lane { t with rot := rot }))
    ∧ exec (.bsRst lane true) s
        = .next (setInstance s lane ⟨List.replicate (2 * s.cfg.W) false, s.cfg.sReset⟩)
    ∧ exec (.bsRst lane false) s = .next s
    ∧ ∀ t', instanceAt (setInstance s lane t') lane = some t'
        ∧ ∀ other, other ≠ lane → instanceAt (setInstance s lane t') other = instanceAt s other

/-- R206 (the spec's decision D11): the shift, the increment and the reset, one after the other on the same controls,
give the table of R206. -/
def Obligations.ThreeRulesMakeTheTable : Prop :=
  ∀ (s s1 s2 s3 : State) (lane : Lane) (t : Transcoder) (x : Bits) (rst inc : Bool), s.Inv →
    instanceAt s lane = some t → x.length = s.cfg.W →
    exec (.bsStep lane x rst) s = .next s1 → exec (.bsInc lane inc rst) s1 = .next s2 →
    exec (.bsRst lane rst) s2 = .next s3 →
    ∃ t', instanceAt s3 lane = some t' ∧ Transcodes s.cfg.W s.cfg.sReset (bitAt x) rst inc t t'

/-- R204 (the wrap is the spec's decision D12): `k` increments without reset move the rotation by `k` modulo `W`; `W`
of them return to the start. -/
def Obligations.IncrementsCountModuloW : Prop :=
  ∀ (W : Nat) (t : Transcoder) (k : Nat), t.Fits W →
    ((fun u => rotate W true false u)^[k] t).rot = (t.rot + k) % W
      ∧ ((fun u => rotate W true false u)^[k] t).buf = t.buf
      ∧ (fun u => rotate W true false u)^[W] t = t

/-- R208, R90, R213 (assembly and controls are the spec's decisions D3, D13 and D14): the write data path. -/
def Obligations.WriteDataPath : Prop :=
  ∀ s : State, s.Inv → ∃ words insts,
    exec .wrdqPath s = .next { s with
      out := { s.out with pad := { s.out.pad with dqO := words } }, regs := { s.regs with wrDq := insts } }
    ∧ GroupShows s.cfg.N s.cfg.W s.regs.wrDq words
    ∧ GroupTranscodes s.cfg.N s.cfg.W s.cfg.sReset
        (fun b i => bitAt (phaseAt s.inp (i / 2)).wrData (i % 2 * s.cfg.N + b))
        (fun b => s.inp.ctl.rst || (bitAt s.inp.ctl.dlySel (b / 8) && s.inp.ctl.wrBsRst))
        (fun b => bitAt s.inp.ctl.dlySel (b / 8) && s.inp.ctl.wrBsInc) s.regs.wrDq insts

/-- R209, R210, R91, R213 (the mask enable is the spec's decision D21): the write mask path, live and held at zero; the
write strobe path, which takes the same word on every byte lane. -/
def Obligations.WriteMaskAndStrobePaths : Prop :=
  ∀ s : State, s.Inv →
    (∃ words enable insts,
      exec .wrdmPath s = .next { s with
        out := { s.out with pad := { s.out.pad with dmiO := words, dmiOe := enable } }
        regs := { s.regs with wrDm := insts } }
      ∧ (s.cfg.maskedWrite = true → enable = s.out.pad.dqOe
        ∧ GroupShows s.cfg.NB s.cfg.W s.regs.wrDm words
        ∧ GroupTranscodes s.cfg.NB s.cfg.W s.cfg.sReset
            (fun y i => bitAt (phaseAt s.inp (i / 2)).wrMask (i % 2 * s.cfg.NB + y))
            (fun y => s.inp.ctl.rst || (bitAt s.inp.ctl.dlySel y && s.inp.ctl.wrBsRst))
            (fun y => bitAt s.inp.ctl.dlySel y && s.inp.ctl.wrBsInc) s.regs.wrDm insts)
      ∧ (s.cfg.maskedWrite = false → enable = false
        ∧ words = List.replicate s.cfg.NB (List.replicate s.cfg.W false) ∧ insts = []))
    ∧ ∃ words insts,
      exec .wrdqsPath s = .next { s with
        out := { s.out with pad := { s.out.pad with dqsO := words } }, regs := { s.regs with wrDqs := insts } }
      ∧ GroupShows s.cfg.NB s.cfg.W s.regs.wrDqs words
      ∧ GroupTranscodes s.cfg.NB s.cfg.W s.cfg.sReset (fun _ => bitAt s.wires.strobeWord)
          (fun y => s.inp.ctl.rst || (bitAt s.inp.ctl.dlySel y && s.inp.ctl.wrBsRst))
          (fun y => bitAt s.inp.ctl.dlySel y && s.inp.ctl.wrBsInc) s.regs.wrDqs insts

/-- R211, R213: the read data path, and R212 (the spec's decision D3): the distribution of its words over the
phases. -/
def Obligations.ReadDataPathAndDistribution : Prop :=
  ∀ s : State, s.Inv →
    (∃ words insts, exec .rddqPath s = .next { s with
        wires := { s.wires with rdWord := words }, regs := { s.regs with rdDq := insts } }
      ∧ GroupShows s.cfg.N s.cfg.W s.regs.rdDq words
      ∧ GroupTranscodes s.cfg.N s.cfg.W s.cfg.sReset
          (fun b => bitAt (wordAt (if s.cfg.wrapped then s.wires.padIn else s.inp.pad).dqI b))
          (fun b => s.inp.ctl.rst || (bitAt s.inp.ctl.dlySel (b / 8) && s.inp.ctl.rdBsRst))
          (fun b => bitAt s.inp.ctl.dlySel (b / 8) && s.inp.ctl.rdBsInc) s.regs.rdDq insts)
    ∧ (∃ rdData, exec .rdDist s = .next { s with out := { s.out with rdData := rdData } }
      ∧ rdData.length = s.cfg.R
      ∧ ∀ i < s.cfg.W, ∀ b < s.cfg.N, ∃ d, rdData[i / 2]? = some d ∧ d.length = 2 * s.cfg.N
          ∧ bitAt d (i % 2 * s.cfg.N + b) = bitAt (wordAt s.wires.rdWord b) i)

/-- R207, which the spec derives from R202 and R203: along a run in which an instance is neither reset nor incremented,
its output stream is its input stream delayed by `2W − S` bit positions. For every instance of the four groups: a read
data lane from the inner block's pad words (the wrapper's where it is present) to the distributed word, a write data
lane from the phases' write data to `dq_o`, a mask lane from their write mask to `dmi_o`, a strobe lane from the strobe
word to `dqs_o`. -/
def Obligations.LanesDelayByTwoWMinusS : Prop :=
  ∀ (ins : Nat → In) (states : Nat → State) (inst : Transcoder), IsRun ins states → (states 0).Inv →
    let c := (states 0).cfg
    (∀ b, (∀ t, rdRst (ins t).ctl (b / 8) = false ∧ rdInc (ins t).ctl (b / 8) = false) →
      (states 0).regs.rdDq[b]? = some inst →
      ∀ g, 2 * c.W ≤ g →
        streamBit c.W (fun t => wordAt (states (t + 1)).wires.rdWord b) g
          = streamBit c.W (fun t => wordAt (if c.wrapped then (states (t + 1)).wires.padIn else (ins t).pad).dqI b)
              (g - (2 * c.W - inst.rot)))
    ∧ (∀ b, (∀ t, wrRst (ins t).ctl (b / 8) = false ∧ wrInc (ins t).ctl (b / 8) = false) →
      (states 0).regs.wrDq[b]? = some inst →
      ∀ g, 2 * c.W ≤ g →
        streamBit c.W (fun t => wordAt (states (t + 1)).out.pad.dqO b) g
          = streamBit c.W (fun t => wrIn c.R c.N (ins t) b) (g - (2 * c.W - inst.rot)))
    ∧ (∀ y, (∀ t, wrRst (ins t).ctl y = false ∧ wrInc (ins t).ctl y = false) →
      ((states 0).regs.wrDm[y]? = some inst →
        ∀ g, 2 * c.W ≤ g →
          streamBit c.W (fun t => wordAt (states (t + 1)).out.pad.dmiO y) g
            = streamBit c.W (fun t => dmIn c.R c.NB (ins t) y) (g - (2 * c.W - inst.rot)))
      ∧ ((states 0).regs.wrDqs[y]? = some inst →
        ∀ g, 2 * c.W ≤ g →
          streamBit c.W (fun t => wordAt (states (t + 1)).out.pad.dqsO y) g
            = streamBit c.W (fun t => (states (t + 1)).wires.strobeWord) (g - (2 * c.W - inst.rot))))

/-- R214, which the spec derives from R207: two transcoders in series with inverse rotations recover the stream delayed
by exactly 3 steps, or 4 when the rotation is 0. -/
def Obligations.InverseRotationsRecoverTheStream : Prop :=
  ∀ (W S : Nat) (x : Nat → Bits) (a b : Nat → Transcoder), S < W → (∀ t, (x t).length = W) →
    (a 0).Fits W → (a 0).rot = S → (b 0).Fits W → (b 0).rot = (W - S) % W →
    (∀ t, a (t + 1) = transcode W 0 (x t) false false (a t)) →
    (∀ t, b (t + 1) = transcode W 0 (window W (a t)) false false (b t)) →
    ∀ t, window W (b (t + if S = 0 then 4 else 3)) = x t

/-! ### Strobe framing (R230 to R239) -/

/-- R231 to R234: the output-enables and the framing pulses, each from its own operands; nothing else changes. The
operand of R232 for `wrtap = 0`, the or over phases of `wrEn`, is R156's, by the spec's decision D15. -/
def Obligations.StrobeFramingSignals : Prop :=
  ∀ s : State,
    let tap := fun k => bitAt s.regs.wrLine k
    let wrtap := s.settings.wrtap
    let pre := (if wrtap = 0 then s.inp.phases.any Phase.wrEn else tap (wrtap - 1)) && !tap wrtap
    let post := tap (wrtap + 1) && !tap wrtap
    let dqsOe := s.inp.ctl.wlevelEn || s.wires.preamble || s.out.pad.dqOe || s.wires.postamble
    exec .sfDqoe s = .next { s with out := { s.out with pad := { s.out.pad with dqOe := tap wrtap } } }
    ∧ exec .sfPre s = .next { s with wires := { s.wires with preamble := pre } }
    ∧ exec .sfPost s = .next { s with wires := { s.wires with postamble := post } }
    ∧ exec .sfDqsoe s = .next { s with out := { s.out with pad := { s.out.pad with dqsOe := dqsOe } } }

/-- R235: the strobe word of a step (its choice and priority are the spec's decision D18). Where both pulses meet with
`FRAME_SWAP` only the two candidates are named, since R235's pseudocode and its corner case give different ones (log
entry 18). -/
def Obligations.StrobeWordFollowsModeAndPulses : Prop :=
  ∀ s : State, ∃ sw, exec .sfWord s = .next { s with wires := { s.wires with strobeWord := sw } }
    ∧ (s.inp.ctl.wlevelEn = true →
        sw = if s.inp.ctl.wlevelStrobe then s.cfg.patWlStrobe else s.cfg.patWlIdle)
    ∧ (s.inp.ctl.wlevelEn = false → s.wires.preamble = false → s.wires.postamble = false → sw = s.cfg.patToggle)
    ∧ (s.inp.ctl.wlevelEn = false → s.wires.preamble = true → s.wires.postamble = false →
        sw = if s.cfg.frameSwap then s.cfg.patPost else s.cfg.patPre)
    ∧ (s.inp.ctl.wlevelEn = false → s.wires.preamble = false → s.wires.postamble = true →
        sw = if s.cfg.frameSwap then s.cfg.patPre else s.cfg.patPost)
    ∧ (s.inp.ctl.wlevelEn = false → s.wires.preamble = true → s.wires.postamble = true →
        (s.cfg.frameSwap = false → sw = s.cfg.patPost)
          ∧ (s.cfg.frameSwap = true → sw = s.cfg.patPost ∨ sw = s.cfg.patPre))

/-- R237, whose step numbers the spec derives from R231 to R233: around a burst of `L` steps of write enable there is
one step of preamble, `L` steps of `dq_oe` and one step of postamble, and `dqs_oe` in exactly these; neither pulse ever
meets `dq_oe`. -/
def Obligations.BurstIsFramedByOneStepEachSide : Prop :=
  ∀ (ins : Nat → In) (states : Nat → State), IsRun ins states → (states 0).Inv →
    (∀ t, (states (t + 1)).wires.preamble = true → (states (t + 1)).out.pad.dqOe = false)
    ∧ (∀ t, (states (t + 1)).wires.postamble = true → (states (t + 1)).out.pad.dqOe = false)
    ∧ ∀ t0 L : Nat, 0 < L →
      (states 0).regs.wrLine = List.replicate ((states 0).settings.wrtap + 2) false →
      (∀ t, (ins t).phases.any Phase.wrEn = decide (t0 ≤ t ∧ t < t0 + L)) →
      (∀ t, (ins t).ctl.wlevelEn = false) →
      let start := t0 + (states 0).settings.wrtap + 1
      ∀ t, (states (t + 1)).wires.preamble = decide (t + 1 = start)
        ∧ (states (t + 1)).out.pad.dqOe = decide (start ≤ t ∧ t < start + L)
        ∧ (states (t + 1)).wires.postamble = decide (t = start + L)
        ∧ (states (t + 1)).out.pad.dqsOe = decide (start ≤ t + 1 ∧ t ≤ start + L)

/-- R238, which the spec derives from R232 and R233: of two bursts one idle step apart, the postamble of the first and
the preamble of the second fall in one step, in which the data enable is 0, and `dqs_oe` stays 1 throughout; with two
idle steps, the postamble's step has no preamble. -/
def Obligations.BurstsOneIdleStepApartShareAStep : Prop :=
  ∀ (ins : Nat → In) (states : Nat → State) (t0 : Nat), IsRun ins states → (states 0).Inv →
    (ins t0).phases.any Phase.wrEn = true → (ins (t0 + 1)).phases.any Phase.wrEn = false →
    let t := t0 + (states 0).settings.wrtap + 2
    (states (t + 1)).wires.postamble = true
      ∧ (states (t + 1)).out.pad.dqOe = false
      ∧ (states (t + 1)).wires.preamble = (ins (t0 + 2)).phases.any Phase.wrEn
      ∧ ((ins (t0 + 2)).phases.any Phase.wrEn = true → ∀ d ≤ 2, (states (t + d)).out.pad.dqsOe = true)

/-! ### Rate-halving wrapper (R250 to R257) -/

/-- R254, R255 (the spec's decision D31): with the wrapper, each lane's two half-words of the step pass through the
lane's queue; without it, neither stage is present and nothing changes. -/
def Obligations.WrapperStagesOnEveryLane : Prop :=
  ∀ s : State,
    (s.cfg.wrapped = false → exec .rhSer s = .next s ∧ exec .rhDes s = .next s)
    ∧ (s.cfg.wrapped = true → s.Inv →
      (∃ outer serq, exec .rhSer s = .next { s with outer := outer, wrap := { s.wrap with serq := serq } }
        ∧ (∀ (k : Nat) (q : List Bits) (w : Bits),
            s.wrap.serq.wordLanes[k]? = some q → s.out.pad.wordLanes[k]? = some w →
            let stream := q ++ [w.take (w.length / 2), w.drop (w.length / 2)]
            outer.wordLanes[k]? = some { first := stream.getD 0 [], second := stream.getD 1 [] }
              ∧ serq.wordLanes[k]? = some (stream.drop 2))
        ∧ (∀ (k : Nat) (q : List Bool) (e : Bool),
            s.wrap.serq.enables[k]? = some q → s.out.pad.enables[k]? = some e →
            let stream := q ++ [e, e]
            outer.enables[k]? = some { first := stream.getD 0 false, second := stream.getD 1 false }
              ∧ serq.enables[k]? = some (stream.drop 2)))
      ∧ (∃ padIn desq, exec .rhDes s = .next { s with
            wires := { s.wires with padIn := padIn }, wrap := { s.wrap with desq := desq } }
        ∧ (∀ (k : Nat) (q : List Bits) (w : Bits),
            (padInLanes s.wrap.desq)[k]? = some q → (padInLanes s.inp.pad)[k]? = some w →
            let stream := q ++ [w.take (w.length / 2), w.drop (w.length / 2)]
            (padInLanes padIn)[k]? = some (stream.getD 0 [] ++ stream.getD 1 [])
              ∧ (padInLanes desq)[k]? = some (stream.drop 2))))

/-- R254, R256 (the spec's decision D31): along every run of a wrapped block from construction, the wrapper delays each
word lane and each enable by `RH_SER` half-steps and changes nothing else. -/
def Obligations.WrapperDelaysOutputsByRhSer : Prop :=
  ∀ (ins : Nat → In) (states : Nat → State) (c : Cfg) (s : State), c.wrapped = true →
    exec (.phyConstruct c) s = .next (states 0) → IsRun ins states →
    ∀ u,
      (∀ k < (states 0).out.pad.wordLanes.length,
        halfStep (fun t => ((states (t + 1)).outer.wordLanes[k]?).getD { first := [], second := [] }) u
          = if u < c.rhSer
            then List.replicate (((states 0).out.pad.wordLanes.getD k []).length / 2) false
            else halfOf (fun t => (states (t + 1)).out.pad.wordLanes.getD k []) (u - c.rhSer))
      ∧ (∀ k < 3,
        halfStep (fun t => ((states (t + 1)).outer.enables[k]?).getD { first := false, second := false }) u
          = if u < c.rhSer then false
            else (states ((u - c.rhSer) / 2 + 1)).out.pad.enables.getD k false)

/-- R255, R256 (the spec's decision D31): likewise the inner block's pad inputs are the outer ones delayed by `RH_DES`
half-steps. -/
def Obligations.WrapperDelaysInputsByRhDes : Prop :=
  ∀ (ins : Nat → In) (states : Nat → State) (c : Cfg) (s : State), c.wrapped = true →
    exec (.phyConstruct c) s = .next (states 0) → IsRun ins states →
    ∀ u, ∀ k < (padInLanes (states 0).inp.pad).length,
      halfOf (fun t => (padInLanes (states (t + 1)).wires.padIn).getD k []) u
        = if u < c.rhDes then List.replicate c.R false
          else halfOf (fun t => (padInLanes (ins t).pad).getD k []) (u - c.rhDes)

/-! ### Control surface (R265 to R277) -/

/-- R266, R41 (the spec's decision D17): the reset flag clears every transcoder and nothing else: outputs, delay lines,
arbiter and simple lanes are those of the same step without it. That `exec` of the row `CTL.RST` is the whole step on
its record, and so answers these, is the model's reading of R94 (log entry 15, DEDUCED). -/
def Obligations.ResetFlagClearsTheTranscodersOnly : Prop :=
  ∀ (s : State) (inp : In), s.Inv → (Instr.ctlRst inp).wellFormed s.cfg.R s.cfg.N = true →
    ∃ t u, exec (.ctlRst inp) s = .next t
      ∧ exec (.phyStep { inp with ctl := { inp.ctl with rst := false } }) s = .next u
      ∧ (∀ i ∈ t.regs.wrDq ++ t.regs.wrDm ++ t.regs.wrDqs ++ t.regs.rdDq,
          i = ⟨List.replicate (2 * s.cfg.W) false, s.cfg.sReset⟩)
      ∧ t.out = u.out ∧ t.outer = u.outer ∧ t.wrap = u.wrap
      ∧ t.regs.rdLine = u.regs.rdLine ∧ t.regs.wrLine = u.regs.wrLine ∧ t.regs.arb = u.regs.arb
      ∧ t.regs.ckeReg = u.regs.ckeReg ∧ t.regs.odtReg = u.regs.odtReg ∧ t.regs.rstnReg = u.regs.rstnReg

/-- R270 to R273, R213, R206 (the spec's decisions D13, D14 and D11): in every step, whatever else its record asserts,
the four bitslip pulses act on the selected byte lanes of their own direction only. `u` is the same step without
pulses: a selected lane whose direction is reset is cleared; one that is incremented, and not held by the reset flag,
has its rotation advanced; every other instance of either direction, and everything else, is that of `u`, whose
rotations without the reset flag are those of the state. A row of the control surface, on a record in which its pulse
is 1, is this step (log entry 15). -/
def Obligations.BitslipPulsesActOnSelectedLanes : Prop :=
  ∀ (s : State) (inp : In), s.Inv → inp.shaped s.cfg.R s.cfg.N = true →
    let ctl := inp.ctl
    let still := { inp with
      ctl := { ctl with rdBsRst := false, rdBsInc := false, wrBsRst := false, wrBsInc := false } }
    let cleared : Transcoder := ⟨List.replicate (2 * s.cfg.W) false, s.cfg.sReset⟩
    let pulsed := fun (y : Nat) (reset inc : Bool) (i : Transcoder) =>
      if bitAt ctl.dlySel y && reset then cleared
      else if bitAt ctl.dlySel y && inc && !ctl.rst then { i with rot := (i.rot + 1) % s.cfg.W }
      else i
    ∃ t u, exec (.phyStep inp) s = .next t ∧ exec (.phyStep still) s = .next u
      ∧ (ctl.rdBsRst = true → exec (.ctlRdBsRst inp) s = .next t)
      ∧ (ctl.rdBsInc = true → exec (.ctlRdBsInc inp) s = .next t)
      ∧ (ctl.wrBsRst = true → exec (.ctlWrBsRst inp) s = .next t)
      ∧ (ctl.wrBsInc = true → exec (.ctlWrBsInc inp) s = .next t)
      ∧ (∀ b, t.regs.rdDq[b]? = (u.regs.rdDq[b]?).map (pulsed (b / 8) ctl.rdBsRst ctl.rdBsInc))
      ∧ (∀ b, t.regs.wrDq[b]? = (u.regs.wrDq[b]?).map (pulsed (b / 8) ctl.wrBsRst ctl.wrBsInc))
      ∧ (∀ y, t.regs.wrDm[y]? = (u.regs.wrDm[y]?).map (pulsed y ctl.wrBsRst ctl.wrBsInc))
      ∧ (∀ y, t.regs.wrDqs[y]? = (u.regs.wrDqs[y]?).map (pulsed y ctl.wrBsRst ctl.wrBsInc))
      ∧ (ctl.rst = false → u.regs.rdDq.map Transcoder.rot = s.regs.rdDq.map Transcoder.rot
          ∧ u.regs.wrDq.map Transcoder.rot = s.regs.wrDq.map Transcoder.rot
          ∧ u.regs.wrDm.map Transcoder.rot = s.regs.wrDm.map Transcoder.rot
          ∧ u.regs.wrDqs.map Transcoder.rot = s.regs.wrDqs.map Transcoder.rot)
      ∧ t = { u with
          inp := inp
          regs := { u.regs with
            rdDq := t.regs.rdDq, wrDq := t.regs.wrDq, wrDm := t.regs.wrDm, wrDqs := t.regs.wrDqs } }

/-- R267, R268, R315 (the write-levelling words are the spec's decision D18, the wrapper's delay of the enable its
decision D31): in every step with `wlevelEn`, whatever else its record asserts, `dqs_oe` is 1 and the strobe word is the
idle or the pulse word, which the strobe instances take. `u` is the same step in normal operation: everything else is
that of `u`, in a wrapped block the outer enable and its queue apart, through which the 1 passes. The two rows, on a
record in which their inputs are 1, are this step (log entry 15). -/
def Obligations.WriteLevellingChangesTwoThings : Prop :=
  ∀ (s : State) (inp : In), s.Inv → inp.shaped s.cfg.R s.cfg.N = true → inp.ctl.wlevelEn = true →
    ∃ t u, exec (.phyStep inp) s = .next t ∧ exec (.ctlWlevelEn inp) s = .next t
      ∧ (inp.ctl.wlevelStrobe = true → exec (.ctlWlevelStrobe inp) s = .next t)
      ∧ exec (.phyStep { inp with ctl := { inp.ctl with wlevelEn := false } }) s = .next u
      ∧ t.out.pad.dqsOe = true
      ∧ t.wires.strobeWord = (if inp.ctl.wlevelStrobe then s.cfg.patWlStrobe else s.cfg.patWlIdle)
      ∧ GroupTranscodes s.cfg.NB s.cfg.W s.cfg.sReset (fun _ => bitAt t.wires.strobeWord)
          (fun y => inp.ctl.rst || (bitAt inp.ctl.dlySel y && inp.ctl.wrBsRst))
          (fun y => bitAt inp.ctl.dlySel y && inp.ctl.wrBsInc) s.regs.wrDqs t.regs.wrDqs
      ∧ (s.cfg.wrapped = true →
          let stream := s.wrap.serq.dqsOe ++ [true, true]
          t.outer.dqsOe = { first := stream.getD 0 false, second := stream.getD 1 false }
            ∧ t.wrap.serq.dqsOe = stream.drop 2)
      ∧ (s.cfg.wrapped = false → t.outer = s.outer ∧ t.wrap = s.wrap)
      ∧ t = { u with
          inp := inp
          out := { u.out with pad := { u.out.pad with dqsOe := true } }
          outer := { u.outer with dqsOe := t.outer.dqsOe }
          wires := { u.wires with strobeWord := t.wires.strobeWord }
          regs := { u.regs with wrDqs := t.regs.wrDqs }
          wrap := { u.wrap with serq := { u.wrap.serq with dqsOe := t.wrap.serq.dqsOe } } }

/-- R97, R235, R269: `wlevelStrobe` without `wlevelEn` changes nothing; the four pulses with no lane selected change
nothing; a selection without a pulse changes nothing. -/
def Obligations.ControlInputsWithoutEffect : Prop :=
  ∀ (s t : State) (inp : In), exec (.phyStep inp) s = .next t →
    (inp.ctl.wlevelEn = false → ∀ v : Bool,
      let inp' := { inp with ctl := { inp.ctl with wlevelStrobe := v } }
      exec (.phyStep inp') s = .next { t with inp := inp' })
    ∧ ((∀ y, bitAt inp.ctl.dlySel y = false) → ∀ a b c d : Bool,
      let inp' := { inp with ctl := { inp.ctl with rdBsRst := a, rdBsInc := b, wrBsRst := c, wrBsInc := d } }
      exec (.phyStep inp') s = .next { t with inp := inp' })
    ∧ (inp.ctl.rdBsRst = false → inp.ctl.rdBsInc = false → inp.ctl.wrBsRst = false → inp.ctl.wrBsInc = false →
      ∀ v : Bits, v.length = inp.ctl.dlySel.length →
      let inp' := { inp with ctl := { inp.ctl with dlySel := v } }
      exec (.phyStep inp') s = .next { t with inp := inp' })

/-- R32, R274, R275, R85, R216 (the spec's decisions D27 and D22): no output and no register of the block depends on
the phase offsets, nor, without the wrapper, on the mask and strobe pad inputs. -/
def Obligations.InputsThatNoRuleReads : Prop :=
  ∀ (s t : State) (inp : In), exec (.phyStep inp) s = .next t →
    (∀ rd wr : Nat, rd < s.cfg.R → wr < s.cfg.R →
      let inp' := { inp with ctl := { inp.ctl with rdPhase := rd, wrPhase := wr } }
      exec (.phyStep inp') s = .next { t with inp := inp' })
    ∧ (s.cfg.wrapped = false → ∀ dmiI dqsI : List Bits,
      let inp' := { inp with pad := { inp.pad with dmiI := dmiI, dqsI := dqsI } }
      inp'.shaped s.cfg.R s.cfg.N = true → exec (.phyStep inp') s = .next { t with inp := inp' })

/-! ### The one-step function as a whole (R66, R67, R291 to R294, R33) -/

/-- R291, R294 (the spec's decision D28): a step is the composition of the rows of the table, run one after the other in
an order of the dependency graph on the record of the step. -/
def Obligations.StepIsTheCompositionOfItsRows : Prop :=
  ∀ (s : State) (inp : In), inp.shaped s.cfg.R s.cfg.N = true →
    exec (.phyStep inp) s = [Instr.rhDes, .clkOut, .arbOut, .arbHist, .arbAllow, .arbSlip, .arbOr, .arbStep,
        .simpleStep, .rdvOut, .rdvStep, .sfDqoe, .sfPre, .sfPost, .sfDqsoe, .sfWord, .wrenStep,
        .wrdqPath, .wrdmPath, .wrdqsPath, .rddqPath, .rdDist, .rhSer].foldl
      (fun r i => match r with
        | .next t => exec i t
        | .fault f => .fault f
        | .refused f => .refused f) (Host.Outcome.next { s with inp := inp })

/-- R67, R292, which the spec derives: which outputs of a step depend on the step's own inputs: `dqs_oe` alone, and
that on `wlevelEn` and, when `wrtap = 0`, on `wrEn`; the clock lane is constant. -/
def Obligations.OutputsDependOnStateAlone : Prop :=
  ∀ (s t t' : State) (inp inp' : In), exec (.phyStep inp) s = .next t → exec (.phyStep inp') s = .next t' →
    t'.out = { t.out with pad := { t.out.pad with dqsOe := t'.out.pad.dqsOe } }
      ∧ t.out.pad.clk = s.cfg.patClk
      ∧ (inp.ctl.wlevelEn = inp'.ctl.wlevelEn →
          (s.settings.wrtap = 0 → inp.phases.any Phase.wrEn = inp'.phases.any Phase.wrEn) → t'.out = t.out)

/-- R33, for the clause on the configuration and the settings: only a construction changes them. That every other
operation keeps the list of stimuli, and that a step keeps what an earlier operation returned, speaks of the model's own
fields `pending` and `ret` and is the model's choice (log entries 2 and 16). -/
def Obligations.OnlyConstructionChangesTheConstants : Prop :=
  (∀ (i : Instr) (s t : State), (∀ c, i ≠ .phyConstruct c ∧ i ≠ .rhWrap c) → exec i s = .next t →
    t.cfg = s.cfg ∧ t.settings = s.settings ∧ t.pending = s.pending)
  ∧ ∀ (i : Instr) (s t : State), i.record ≠ none → exec i s = .next t → t.ret = s.ret

/-- R42, which the spec derives from R151, R172, R179, R203 and R205: two runs of one block on the same inputs, from
any two states, agree in each register but the rotations once its own count of steps is over. The counts are R42's,
register by register, raw history and filtered, save for the strobe buffers: they hold the strobe words of the two steps
before, so they agree two steps after those words do, and in every case from `wrtap + 4` on, not from R42's joint bound
(log entry 9). With the wrapper, of which R42 does not speak, the input queues agree after `RH_DES` half-steps and the
read buffers two steps later; what the output queues hold depends on the rotations. -/
def Obligations.InitialValuesAreForgotten : Prop :=
  ∀ (ins : Nat → In) (a b : Nat → State), IsRun ins a → IsRun ins b → (a 0).Inv → (b 0).Inv → (a 0).cfg = (b 0).cfg →
    let c := (a 0).cfg
    let st := (a 0).settings
    let buffers := List.map Transcoder.buf
    ∀ t,
      (st.readLatency ≤ t → (a t).regs.rdLine = (b t).regs.rdLine)
      ∧ (st.wrtap + 2 ≤ t → (a t).regs.wrLine = (b t).regs.wrLine)
      ∧ (1 ≤ t → (a t).regs.ckeReg = (b t).regs.ckeReg ∧ (a t).regs.odtReg = (b t).regs.odtReg
          ∧ (a t).regs.rstnReg = (b t).regs.rstnReg)
      ∧ (c.arbHistory = .raw →
          (1 ≤ t → historyOf (a t).regs.arb = historyOf (b t).regs.arb)
          ∧ (2 ≤ t → spilledOf (a t).regs.arb = spilledOf (b t).regs.arb)
          ∧ (3 ≤ t → (a t).regs.arb.outw = (b t).regs.arb.outw))
      ∧ (c.arbHistory = .filtered → ∀ n, (∀ d < 3, slotValid c.R ins (n + d) = false) → n + 3 ≤ c.R * t →
          historyOf (a t).regs.arb = historyOf (b t).regs.arb
          ∧ spilledOf (a (t + 1)).regs.arb = spilledOf (b (t + 1)).regs.arb
          ∧ (a (t + 2)).regs.arb.outw = (b (t + 2)).regs.arb.outw)
      ∧ (2 ≤ t → buffers (a t).regs.wrDq = buffers (b t).regs.wrDq ∧ buffers (a t).regs.wrDm = buffers (b t).regs.wrDm)
      ∧ ((a (t + 1)).wires.strobeWord = (b (t + 1)).wires.strobeWord →
          (a (t + 2)).wires.strobeWord = (b (t + 2)).wires.strobeWord →
          buffers (a (t + 2)).regs.wrDqs = buffers (b (t + 2)).regs.wrDqs)
      ∧ (st.wrtap + 4 ≤ t → buffers (a t).regs.wrDqs = buffers (b t).regs.wrDqs)
      ∧ (c.wrapped = false → 2 ≤ t → buffers (a t).regs.rdDq = buffers (b t).regs.rdDq)
      ∧ (c.wrapped = true → (c.rhDes ≤ 2 * t → (a t).wrap.desq = (b t).wrap.desq)
          ∧ (c.rhDes + 4 ≤ 2 * t → buffers (a t).regs.rdDq = buffers (b t).regs.rdDq))

/-! ### The invariant -/

/-- The machine at reset (log entry 1) meets the invariant. -/
def Obligations.ResetMeetsTheInvariant : Prop := State.reset.Inv

/-- Every operation keeps the sizes and ranges of every register, record and signal. -/
def Obligations.EveryOperationKeepsTheInvariant : Prop :=
  ∀ (i : Instr) (s t : State), s.Inv → exec i s = .next t → t.Inv

/-- Every step of the machine keeps them: R22 to R24, R28 to R30, R85, R86, R253 hold of every state reached from one
that meets them. -/
def Obligations.EveryStepKeepsTheInvariant : Prop :=
  ∀ s t : State, s.Inv → step s = .next t → t.Inv
end

