-- ==== Sys2Proof/Laws/Words.lean ====
section
/-! SUPPORT. Words bit by bit: what a slice, a concatenation, a zero word and a shifted delay line hold. -/

namespace Sys2Proof

@[simp] theorem bitAt_nil (i : Nat) : bitAt [] i = false := by simp [bitAt]

@[simp] theorem length_zeros (n : Nat) : (zeros n).length = n := by simp [zeros]

@[simp] theorem bitAt_zeros (n i : Nat) : bitAt (zeros n) i = false := by
  simp [bitAt, zeros, List.getD_eq_getElem?_getD, List.getElem?_replicate]
  split <;> rfl

@[simp] theorem bitAt_cons_zero (b : Bool) (v : Bits) : bitAt (b :: v) 0 = b := by simp [bitAt]

@[simp] theorem bitAt_cons_succ (b : Bool) (v : Bits) (i : Nat) : bitAt (b :: v) (i + 1) = bitAt v i := by
  simp [bitAt]

/-- A bit beyond the word's width reads 0. -/
theorem bitAt_of_le {v : Bits} {i : Nat} (h : v.length ≤ i) : bitAt v i = false := by
  simp [bitAt, List.getD_eq_getElem?_getD, List.getElem?_eq_none h]

/-- `(a ++ b)[k]` of R13. -/
theorem bitAt_append (a b : Bits) (k : Nat) :
    bitAt (a ++ b) k = if k < a.length then bitAt a k else bitAt b (k - a.length) := by
  simp only [bitAt, List.getD_eq_getElem?_getD, List.getElem?_append]
  split <;> rfl

@[simp] theorem bitAt_append_low {a : Bits} (b : Bits) {k : Nat} (h : k < a.length) :
    bitAt (a ++ b) k = bitAt a k := by rw [bitAt_append, if_pos h]

@[simp] theorem bitAt_append_high (a b : Bits) (k : Nat) : bitAt (a ++ b) (a.length + k) = bitAt b k := by
  rw [bitAt_append, if_neg (by omega)]; congr 1; omega

theorem bitAt_take (v : Bits) (n k : Nat) : bitAt (v.take n) k = (decide (k < n) && bitAt v k) := by
  simp only [bitAt, List.getD_eq_getElem?_getD, List.getElem?_take]
  split <;> simp_all

@[simp] theorem bitAt_drop (v : Bits) (n k : Nat) : bitAt (v.drop n) k = bitAt v (n + k) := by
  simp [bitAt, List.getD_eq_getElem?_getD]

theorem bitAt_map_range (f : Nat → Bool) (n k : Nat) (h : k < n) : bitAt ((List.range n).map f) k = f k := by
  simp [bitAt, List.getD_eq_getElem?_getD, h]

theorem bitAt_map {α : Type} (f : α → Bool) (l : List α) (k : Nat) (a : α) (h : l[k]? = some a) :
    bitAt (l.map f) k = f a := by simp [bitAt, List.getD_eq_getElem?_getD, h]

/-- Words of one width are equal when their bits are. -/
theorem bits_ext {v w : Bits} (hl : v.length = w.length) (h : ∀ i < v.length, bitAt v i = bitAt w i) : v = w := by
  apply List.ext_getElem hl
  intro i h1 h2
  have := h i h1
  simpa [bitAt, List.getD_eq_getElem?_getD, h1, h2] using this

namespace Machine

/-! ### The slice of a word -/

@[simp] theorem length_slice (v : Bits) (lo n : Nat) : (slice v lo n).length = min n (v.length - lo) := by
  simp [slice]

/-- Bit `k` of `v[lo + n − 1 : lo]` (R13). -/
theorem bitAt_slice (v : Bits) (lo n k : Nat) : bitAt (slice v lo n) k = (decide (k < n) && bitAt v (lo + k)) := by
  simp [slice, bitAt_take]

/-! ### The tapped delay line -/

@[simp] theorem length_tdlShift {α : Type} (taps : List α) (x : α) : (tdlShift taps x).length = taps.length := by
  simp [tdlShift]

/-- Everything the shift of a delay line does (R151). -/
theorem bitAt_tdlShift (taps : List Bool) (x : Bool) (k : Nat) :
    bitAt (tdlShift taps x) k = (decide (k < taps.length) && if k = 0 then x else bitAt taps (k - 1)) := by
  rw [tdlShift, bitAt_take]
  cases k <;> simp

/-! ### The transcoder -/

/-- A window has the width of the lane (R202). -/
theorem length_window {W : Nat} {t : Transcoder} (h : t.Fits W) : (window W t).length = W := by
  have := h.1; have := h.2; simp [window]; omega

/-- Bit `i` of the window is `buf[S + i]` (R202). -/
theorem bitAt_window {W : Nat} {t : Transcoder} {i : Nat} (hi : i < W) :
    bitAt (window W t) i = bitAt t.buf (t.rot + i) := by
  simp [window, bitAt_slice, hi]

/-- Everything one step of an instance can do: the table of R206. -/
theorem transcode_transcodes {W sReset : Nat} {x : Bits} (rst inc : Bool) {t : Transcoder} (ht : t.Fits W)
    (hx : x.length = W) : Transcodes W sReset (bitAt x) rst inc t (transcode W sReset x rst inc t) := by
  have hb := ht.1
  have hlow : (slice t.buf W W).length = W := by simp; omega
  cases rst
  · refine ⟨?_, ?_, ?_⟩
    · cases inc <;> simp [transcode] <;> omega
    · intro i hi
      have e : (transcode W sReset x false inc t).buf = slice t.buf W W ++ x := by cases inc <;> rfl
      rw [e]
      constructor
      · rw [bitAt_append_low _ (by omega), bitAt_slice]; simp [hi]
      · have := bitAt_append_high (slice t.buf W W) x i
        rwa [hlow] at this
    · cases inc <;> rfl
  · exact ⟨rfl, rfl⟩

/-- A step of an instance keeps its size and its range (R29). -/
theorem transcode_fits {W sReset : Nat} {x : Bits} {rst inc : Bool} {t : Transcoder} (ht : t.Fits W)
    (hx : x.length = W) (hs : sReset < W) : (transcode W sReset x rst inc t).Fits W := by
  have h1 := ht.1; have h2 := ht.2
  cases rst <;> cases inc <;> simp [transcode, Transcoder.Fits, hs, h2, zeros]
  · omega
  · exact ⟨by omega, Nat.mod_lt _ (by omega)⟩

theorem shiftIn_fits {W : Nat} {x : Bits} {rst : Bool} {t : Transcoder} (ht : t.Fits W) (hx : x.length = W) :
    (shiftIn W x rst t).Fits W := by
  have h1 := ht.1; have h2 := ht.2
  cases rst <;> simp [shiftIn, Transcoder.Fits, h2, h1]
  omega

theorem rotate_fits {W : Nat} {inc rst : Bool} {t : Transcoder} (ht : t.Fits W) : (rotate W inc rst t).Fits W := by
  have h1 := ht.1; have h2 := ht.2
  have hm : (t.rot + 1) % W < W := Nat.mod_lt _ (by omega)
  cases rst <;> cases inc <;> simp [rotate, Transcoder.Fits, h2, h1, hm]

theorem clear_fits {W sReset : Nat} {rst : Bool} {t : Transcoder} (ht : t.Fits W) (hs : sReset < W) :
    (clear W sReset rst t).Fits W := by
  cases rst <;> simp_all [clear, Transcoder.Fits, Transcoder.cleared, zeros]

/-- The shift, the increment and the reset on the same controls, one after the other, are one step (R206). -/
theorem clear_rotate_shiftIn (W sReset : Nat) (x : Bits) (rst inc : Bool) (t : Transcoder) :
    clear W sReset rst (rotate W inc rst (shiftIn W x rst t)) = transcode W sReset x rst inc t := by
  cases rst <;> cases inc <;> rfl

@[simp] theorem length_transcodeAll (W sReset : Nat) (x : Nat → Bits) (rst inc : Nat → Bool) (ts : List Transcoder) :
    (transcodeAll W sReset x rst inc ts).length = ts.length := by simp [transcodeAll]

/-- Instance `k` of a group after a step, from instance `k` before it alone (R215). -/
theorem getElem?_transcodeAll (W sReset : Nat) (x : Nat → Bits) (rst inc : Nat → Bool) (ts : List Transcoder)
    (k : Nat) : (transcodeAll W sReset x rst inc ts)[k]?
      = (ts[k]?).map (transcode W sReset (x k) (rst k) (inc k)) := by
  simp [transcodeAll, List.getElem?_mapIdx]

/-- A step of a group keeps the sizes and ranges of its instances (R29, R30). -/
theorem transcodeAll_group {n W sReset : Nat} {x : Nat → Bits} {rst inc : Nat → Bool} {ts : List Transcoder}
    (hg : Group n W ts) (hx : ∀ k < n, (x k).length = W) (hs : sReset < W) :
    Group n W (transcodeAll W sReset x rst inc ts) := by
  refine ⟨by simp [hg.1], fun t ht => ?_⟩
  obtain ⟨k, hk⟩ := List.mem_iff_getElem?.1 ht
  rw [getElem?_transcodeAll] at hk
  obtain ⟨i, hi, rfl⟩ := Option.map_eq_some_iff.1 hk
  have hkn : k < n := by rw [← hg.1]; exact (List.getElem?_eq_some_iff.1 hi).1
  exact transcode_fits (hg.2 i (List.mem_of_getElem? hi)) (hx k hkn) hs

/-- A step of a group is the table of R206 on each instance with its own word and controls. -/
theorem transcodeAll_groupTranscodes {n W sReset : Nat} {x : Nat → Bits} {rst inc : Nat → Bool}
    {ts : List Transcoder} (hg : Group n W ts) (hx : ∀ k < n, (x k).length = W) :
    GroupTranscodes n W sReset (fun k => bitAt (x k)) rst inc ts (transcodeAll W sReset x rst inc ts) := by
  refine ⟨hg.1, by simp [hg.1], fun k hk t t' ht ht' => ?_⟩
  rw [getElem?_transcodeAll, ht] at ht'
  obtain rfl : transcode W sReset (x k) (rst k) (inc k) t = t' := by simpa using ht'
  exact transcode_transcodes _ _ (hg.2 t (List.mem_of_getElem? ht)) (hx k hk)

/-- The windows of a group are its output words (R202). -/
theorem windows_groupShows {n W : Nat} {ts : List Transcoder} (hg : Group n W ts) :
    GroupShows n W ts (windows W ts) := by
  refine ⟨hg.1, by simp [windows, hg.1], fun k _ t w ht hw => ?_⟩
  obtain rfl : window W t = w := by simpa [windows, ht] using hw
  exact ⟨length_window (hg.2 t (List.mem_of_getElem? ht)), fun i hi => bitAt_window hi⟩

/-- The windows of a group are words of the lane's width. -/
theorem windows_words {n W : Nat} {ts : List Transcoder} (hg : Group n W ts) : Words n W (windows W ts) := by
  refine ⟨by simp [windows, hg.1], fun w hw => ?_⟩
  obtain ⟨t, ht, rfl⟩ := List.mem_map.1 hw
  exact length_window (hg.2 t ht)

/-! ### Lane words from phase fields -/

@[simp] theorem length_wrIn (R N : Nat) (inp : In) (b : Nat) : (wrIn R N inp b).length = 2 * R := by simp [wrIn]
@[simp] theorem length_dmIn (R NB : Nat) (inp : In) (y : Nat) : (dmIn R NB inp y).length = 2 * R := by simp [dmIn]

/-- Bit `i` of a write data lane word (R90). -/
theorem bitAt_wrIn (R N : Nat) (inp : In) (b : Nat) {i : Nat} (h : i < 2 * R) :
    bitAt (wrIn R N inp b) i = bitAt (phaseAt inp (i / 2)).wrData (i % 2 * N + b) := bitAt_map_range _ _ _ h

/-- Bit `i` of a write mask lane word (R91). -/
theorem bitAt_dmIn (R NB : Nat) (inp : In) (y : Nat) {i : Nat} (h : i < 2 * R) :
    bitAt (dmIn R NB inp y) i = bitAt (phaseAt inp (i / 2)).wrMask (i % 2 * NB + y) := bitAt_map_range _ _ _ h

@[simp] theorem length_rdDataOf (N : Nat) (ws : List Bits) (p : Nat) : (rdDataOf N ws p).length = 2 * N := by
  simp [rdDataOf]

/-- Bit `(i mod 2)·N + b` of phase `i div 2`'s read data is bit `i` of lane `b`'s word (R92, R212). -/
theorem bitAt_rdDataOf (N : Nat) (ws : List Bits) (i b : Nat) (hb : b < N) :
    bitAt (rdDataOf N ws (i / 2)) (i % 2 * N + b) = bitAt (wordAt ws b) i := by
  have h2 : i % 2 < 2 := Nat.mod_lt _ (by omega)
  have hlt : i % 2 * N + b < 2 * N := by
    have : i % 2 = 0 ∨ i % 2 = 1 := by omega
    rcases this with h | h <;> rw [h] <;> omega
  rw [rdDataOf, bitAt_map_range _ _ _ hlt]
  have e1 : (i % 2 * N + b) % N = b := by rw [Nat.mul_comm, Nat.mul_add_mod, Nat.mod_eq_of_lt hb]
  have e2 : (i % 2 * N + b) / N = i % 2 := by
    rw [Nat.mul_comm, Nat.mul_add_div (by omega), Nat.div_eq_of_lt hb, Nat.add_zero]
  rw [e1, e2]; congr 1; omega

theorem phaseAt_of_getElem? {inp : In} {p : Nat} {ph : Phase} (h : inp.phases[p]? = some ph) : phaseAt inp p = ph := by
  simp [phaseAt, List.getD_eq_getElem?_getD, h]

end Machine

end Sys2Proof
end

