-- ==== Sys2Proof/Laws/Arbiter.lean ====
section
/-! SUPPORT. The command arbiter's signals entry by entry: the history window, the `allowed` bits, the contributions
and the bus window (R167 to R172). -/

namespace Sys2Proof.Machine

/-! ### The history window -/

@[simp] theorem length_historyBits (mode : ArbHistory) (a b c : Bool) (vs : List Bool) :
    (historyBits mode a b c vs).length = vs.length := by
  induction vs generalizing a b c with
  | nil => rfl
  | cons v vs ih => simp [historyBits, ih]

@[simp] theorem length_histWindow (mode : ArbHistory) (arb : Arbiter) (inp : In) :
    (histWindow mode arb inp).length = inp.phases.length + 3 := by simp [histWindow]

/-- Entry `3 + k` of a window whose first entries are `a`, `b`, `c` is made from entry `k` of the validity bits and
the three entries before it (R167, R172). -/
theorem bitAt_historyBits (mode : ArbHistory) (a b c : Bool) (vs : List Bool) (k : Nat) (hk : k < vs.length) :
    let H := a :: b :: c :: historyBits mode a b c vs
    bitAt H (3 + k) = match mode with
      | .raw => bitAt vs k
      | .filtered => bitAt vs k && !(bitAt H k || bitAt H (k + 1) || bitAt H (k + 2)) := by
  induction vs generalizing a b c k with
  | nil => simp at hk
  | cons v vs ih =>
    cases k with
    | zero => cases mode <;> simp [historyBits, bitAt]
    | succ k =>
      have hk' : k < vs.length := by simpa using hk
      rw [show 3 + (k + 1) = (3 + k) + 1 by omega, bitAt_cons_succ]
      cases mode
      · simpa [historyBits] using ih b c v k hk'
      · simpa [historyBits] using ih b c (v && !(a || b || c)) k hk'

@[simp] theorem bitAt_histWindow_zero (mode : ArbHistory) (arb : Arbiter) (inp : In) :
    bitAt (histWindow mode arb inp) 0 = arb.vh2 := rfl
@[simp] theorem bitAt_histWindow_one (mode : ArbHistory) (arb : Arbiter) (inp : In) :
    bitAt (histWindow mode arb inp) 1 = arb.vh1 := rfl
@[simp] theorem bitAt_histWindow_two (mode : ArbHistory) (arb : Arbiter) (inp : In) :
    bitAt (histWindow mode arb inp) 2 = arb.vh0 := rfl

/-- Everything entry `3 + p` of the history window can be (R172). -/
theorem bitAt_histWindow (mode : ArbHistory) (arb : Arbiter) (inp : In) (p : Nat) (ph : Phase)
    (h : inp.phases[p]? = some ph) :
    bitAt (histWindow mode arb inp) (3 + p) = match mode with
      | .raw => ph.cmdValid
      | .filtered => ph.cmdValid && !before (histWindow mode arb inp) p := by
  have hp : p < inp.phases.length := (List.getElem?_eq_some_iff.1 h).1
  have := bitAt_historyBits mode arb.vh2 arb.vh1 arb.vh0 (inp.phases.map Phase.cmdValid) p (by simpa using hp)
  simpa [histWindow, before, bitAt_map _ _ _ _ h] using this

/-! ### The `allowed` bits -/

@[simp] theorem length_allowedBits (enable : Bool) (R : Nat) (H : List Bool) : (allowedBits enable R H).length = R := by
  simp [allowedBits]

/-- `allowed(p)` (R168). -/
theorem bitAt_allowedBits (enable : Bool) {R p : Nat} (H : List Bool) (hp : p < R) :
    bitAt (allowedBits enable R H) p = if enable then !before H p else true := bitAt_map_range _ _ _ hp

/-! ### Contributions and the bus window -/

/-- Bit `l` of a masked row. -/
theorem getLsbD_repRow_and (x : Bool) (row : Row) (l : Nat) : (repRow x &&& row).getLsbD l = (x && row.getLsbD l) := by
  cases x
  · simp [repRow]
  · rw [repRow, if_pos rfl, BitVec.allOnes_and, Bool.true_and]

/-- Bit `l` of a payload row (R83). -/
theorem getLsbD_payRow (ph : Phase) (k l : Nat) (hl : l < 7) :
    (payRow ph k).getLsbD l = if l = 0 then ph.cs.getLsbD k else (caRow ph k).getLsbD (l - 1) := by
  rw [payRow, BitVec.getLsbD_append]
  rcases Nat.eq_zero_or_pos l with rfl | h
  · simp
  · simp [show ¬ l < 1 by omega, show l ≠ 0 by omega]

/-- Bit `l` of what the command of slot `p` gives to fast tick `m` (R169). -/
theorem getLsbD_contribution (allowed : Bool) (ph : Phase) (p m l : Nat) :
    (contribution allowed ph p m).getLsbD l
      = (decide (p ≤ m ∧ m < p + 4) && allowed && (payRow ph (m - p)).getLsbD l) := by
  unfold contribution
  by_cases h : p ≤ m ∧ m < p + cmdTicks
  · rw [if_pos h, getLsbD_repRow_and, decide_eq_true (show p ≤ m ∧ m < p + 4 from h)]; simp
  · rw [if_neg h, decide_eq_false (show ¬ (p ≤ m ∧ m < p + 4) from h)]; simp

@[simp] theorem length_contribRows (R : Nat) (allowed : List Bool) (inp : In) :
    (contribRows R allowed inp).length = R := by simp [contribRows]

theorem getElem?_contribRows (R : Nat) (allowed : List Bool) (inp : In) {p : Nat} (hp : p < R) :
    (contribRows R allowed inp)[p]?
      = some ((List.range (R + lookback)).map fun m => contribution (bitAt allowed p) (phaseAt inp p) p m) := by
  simp [contribRows, hp]

/-- Bit `l` of an or over a list of rows. -/
theorem getLsbD_foldl_or {α : Type} (f : α → Row) (l : Nat) (as : List α) (r : Row) :
    (as.foldl (fun acc a => acc ||| f a) r).getLsbD l = true
      ↔ r.getLsbD l = true ∨ ∃ a ∈ as, (f a).getLsbD l = true := by
  induction as generalizing r with
  | nil => simp
  | cons a as ih => simp [ih, or_assoc]

@[simp] theorem length_busWindow (R : Nat) (arb : Arbiter) (contrib : List (List Row)) :
    (busWindow R arb contrib).length = R + 3 := by simp [busWindow, lookback]

theorem getD_busWindow (R : Nat) (arb : Arbiter) (contrib : List (List Row)) {m : Nat} (hm : m < R + 3) :
    (busWindow R arb contrib).getD m 0
      = contrib.foldl (fun acc rows => acc ||| rows.getD m 0) (spillRow arb m) := by
  simp [busWindow, lookback, List.getD_eq_getElem?_getD, hm]

/-- Bit `l` of fast tick `m` of the bus window: what spilled, or some allowed slot's row (R170, R172). -/
theorem getLsbD_busWindow (R : Nat) (arb : Arbiter) (allowed : List Bool) (inp : In) (m l : Nat) (hm : m < R + 3) :
    ((busWindow R arb (contribRows R allowed inp)).getD m 0).getLsbD l = true
      ↔ (spillRow arb m).getLsbD l = true
        ∨ ∃ p k, p < R ∧ k < 4 ∧ m = p + k ∧ bitAt allowed p = true ∧ (payRow (phaseAt inp p) k).getLsbD l = true := by
  rw [getD_busWindow _ _ _ hm, getLsbD_foldl_or]
  refine or_congr Iff.rfl ⟨?_, ?_⟩
  · rintro ⟨rows, hr, h⟩
    obtain ⟨p, hp, rfl⟩ := List.mem_map.1 hr
    have hpR : p < R := List.mem_range.1 hp
    have hc : (contribution (bitAt allowed p) (phaseAt inp p) p m).getLsbD l = true := by
      simpa [List.getD_eq_getElem?_getD, lookback, hm] using h
    rw [getLsbD_contribution] at hc
    simp only [Bool.and_eq_true, decide_eq_true_eq] at hc
    exact ⟨p, m - p, hpR, by omega, by omega, hc.1.2, hc.2⟩
  · rintro ⟨p, k, hp, hk, rfl, ha, hb⟩
    refine ⟨_, List.mem_of_getElem? (getElem?_contribRows R allowed inp hp), ?_⟩
    have : (contribution (bitAt allowed p) (phaseAt inp p) p (p + k)).getLsbD l = true := by
      rw [getLsbD_contribution]; simp [ha, hk, hb]
    simpa [List.getD_eq_getElem?_getD, lookback, hm] using this

/-! ### The registers and the command lanes -/

@[simp] theorem length_arbiterNext_outw (c : Cfg) (arb : Arbiter) (inp : In) :
    (arbiterNext c arb inp).outw.length = c.R := by simp [arbiterNext]

@[simp] theorem length_laneOf (outw : List Row) (l : Nat) : (laneOf outw l).length = outw.length := by simp [laneOf]

theorem bitAt_laneOf {outw : List Row} {j : Nat} {row : Row} (l : Nat) (h : outw[j]? = some row) :
    bitAt (laneOf outw l) j = row.getLsbD l := bitAt_map _ _ _ _ h

/-- The command/address lanes are six words (R171). -/
theorem caLanes_words (outw : List Row) : Words 6 outw.length (caLanes outw) := by
  refine ⟨by simp [caLanes], fun w hw => ?_⟩
  obtain ⟨l, _, rfl⟩ := List.mem_map.1 hw
  simp

theorem getElem?_caLanes (outw : List Row) {l : Nat} (hl : l < 6) :
    (caLanes outw)[l]? = some (laneOf outw (l + 1)) := by simp [caLanes, hl]

end Sys2Proof.Machine
end

