-- ==== Sys2Proof/Laws/Codec.lean ====
section
/-! SUPPORT. The fields of a record: each reader gives back what its writer wrote, and each writer what its reader
read. -/

namespace Sys2Proof

/-! ### One field -/

@[simp] theorem length_bitsOf (n w : Nat) : (bitsOf n w).length = n := by
  induction n generalizing w with
  | zero => rfl
  | succ n ih => simp [bitsOf, ih]

theorem natOf_lt (bs : Bits) : natOf bs < 2 ^ bs.length := by
  induction bs with
  | nil => simp [natOf]
  | cons b bs ih =>
    rw [natOf, List.length_cons, Nat.pow_succ]
    cases b <;> simp <;> omega

/-- The bits of a number are those it was made from. -/
theorem bitsOf_natOf_add (bs : Bits) (rest : Nat) : bitsOf bs.length (natOf bs + 2 ^ bs.length * rest) = bs := by
  induction bs with
  | nil => rfl
  | cons b bs ih =>
    have e : natOf (b :: bs) + 2 ^ (b :: bs).length * rest
        = b.toNat + 2 * (natOf bs + 2 ^ bs.length * rest) := by
      simp only [natOf, List.length_cons, Nat.pow_succ]; ring
    rw [e, List.length_cons, bitsOf]
    have hb : b.toNat < 2 := by cases b <;> simp
    have h1 : (b.toNat + 2 * (natOf bs + 2 ^ bs.length * rest)) / 2 = natOf bs + 2 ^ bs.length * rest := by omega
    have h2 : (b.toNat + 2 * (natOf bs + 2 ^ bs.length * rest)) % 2 = b.toNat := by omega
    rw [h1, h2, ih]
    cases b <;> rfl

/-- A number's low bits and what lies above them make the number. -/
theorem natOf_bitsOf (n w : Nat) : natOf (bitsOf n w) + 2 ^ n * (w / 2 ^ n) = w := by
  induction n generalizing w with
  | zero => simp [bitsOf, natOf]
  | succ n ih =>
    have hb : (decide (w % 2 = 1)).toNat = w % 2 := by
      rcases Nat.mod_two_eq_zero_or_one w with h | h <;> simp [h]
    have e : w / 2 ^ (n + 1) = w / 2 / 2 ^ n := by rw [Nat.pow_succ, Nat.mul_comm, Nat.div_div_eq_div_mul]
    have := ih (w / 2)
    rw [bitsOf, natOf, hb, e]
    have h2 : w % 2 + 2 * (natOf (bitsOf n (w / 2)) + 2 ^ n * (w / 2 / 2 ^ n)) = w := by omega
    calc w % 2 + 2 * natOf (bitsOf n (w / 2)) + 2 ^ (n + 1) * (w / 2 / 2 ^ n)
        = w % 2 + 2 * (natOf (bitsOf n (w / 2)) + 2 ^ n * (w / 2 / 2 ^ n)) := by rw [Nat.pow_succ]; ring
      _ = w := h2

@[simp] theorem getBit_putBit (b : Bool) (rest : Nat) : getBit (putBit b rest) = b := by
  cases b <;> simp [getBit, putBit]

@[simp] theorem putBit_div (b : Bool) (rest : Nat) : putBit b rest / 2 = rest := by
  cases b <;> simp [putBit]
  omega

theorem putBit_getBit (w : Nat) : putBit (getBit w) (w / 2) = w := by
  unfold putBit getBit
  rcases Nat.mod_two_eq_zero_or_one w with h | h <;> simp [h] <;> omega

@[simp] theorem putVec_ofNat {n : Nat} (v : BitVec n) (rest : Nat) : BitVec.ofNat n (putVec v rest) = v := by
  apply BitVec.eq_of_toNat_eq
  rw [putVec, BitVec.toNat_ofNat, Nat.add_mul_mod_self_left, Nat.mod_eq_of_lt v.isLt]

@[simp] theorem putVec_div {n : Nat} (v : BitVec n) (rest : Nat) : putVec v rest / 2 ^ n = rest := by
  rw [putVec, Nat.add_mul_div_left _ _ (Nat.two_pow_pos n), Nat.div_eq_of_lt v.isLt, Nat.zero_add]

theorem putVec_getVec (n w : Nat) : putVec (BitVec.ofNat n w) (w / 2 ^ n) = w := by
  rw [putVec, BitVec.toNat_ofNat]; exact Nat.mod_add_div w (2 ^ n)

@[simp] theorem putNat_mod (n v rest : Nat) : putNat n v rest % 2 ^ n = v % 2 ^ n := by
  rw [putNat, Nat.add_mul_mod_self_left, Nat.mod_mod]

@[simp] theorem putNat_div (n v rest : Nat) : putNat n v rest / 2 ^ n = rest := by
  rw [putNat, Nat.add_mul_div_left _ _ (Nat.two_pow_pos n), Nat.div_eq_of_lt (Nat.mod_lt _ (Nat.two_pow_pos n)),
    Nat.zero_add]

theorem putNat_getNat (n w : Nat) : putNat n (w % 2 ^ n) (w / 2 ^ n) = w := by
  rw [putNat, Nat.mod_mod]; exact Nat.mod_add_div w (2 ^ n)

@[simp] theorem bitsOf_putBits (bs : Bits) (rest : Nat) : bitsOf bs.length (putBits bs rest) = bs :=
  bitsOf_natOf_add bs rest

theorem bitsOf_putBits' {n : Nat} {bs : Bits} (h : bs.length = n) (rest : Nat) : bitsOf n (putBits bs rest) = bs := by
  subst h; exact bitsOf_putBits bs rest

@[simp] theorem putBits_div (bs : Bits) (rest : Nat) : putBits bs rest / 2 ^ bs.length = rest := by
  rw [putBits, Nat.add_mul_div_left _ _ (Nat.two_pow_pos _), Nat.div_eq_of_lt (natOf_lt bs), Nat.zero_add]

theorem putBits_div' {n : Nat} {bs : Bits} (h : bs.length = n) (rest : Nat) : putBits bs rest / 2 ^ n = rest := by
  subst h; exact putBits_div bs rest

theorem putBits_bitsOf (n w : Nat) : putBits (bitsOf n w) (w / 2 ^ n) = w := by
  rw [putBits, length_bitsOf]; exact natOf_bitsOf n w

/-! ### A phase record and the list of them -/

/-- Reading a phase record gives what was written and what lies above it (R81). -/
theorem unpack_pack (N : Nat) (p : Phase) (rest : Nat) (h : p.shaped N = true) :
    Phase.unpack N (p.pack rest) = (p, rest) := by
  simp only [Phase.shaped, Bool.and_eq_true, decide_eq_true_eq] at h
  simp only [Phase.unpack, Phase.unpackTail, Phase.pack, putBit_div, getBit_putBit, putVec_div, putVec_ofNat,
    bitsOf_putBits' h.1, bitsOf_putBits' h.2, putBits_div' h.1, putBits_div' h.2]

/-- Writing what was read gives the number back, and what was read has the widths of R81. -/
theorem pack_unpack (N w : Nat) : (Phase.unpack N w).1.pack (Phase.unpack N w).2 = w
    ∧ (Phase.unpack N w).1.shaped N = true := by
  constructor
  · simp only [Phase.unpack, Phase.unpackTail, Phase.pack, putBit_getBit, putBits_bitsOf, putVec_getVec]
  · simp [Phase.unpack, Phase.unpackTail, Phase.shaped]

theorem unpackPhases_packPhases (N : Nat) (ps : List Phase) (rest : Nat) (h : ps.all (Phase.shaped N) = true) :
    unpackPhases N ps.length (packPhases ps rest) = (ps, rest) := by
  induction ps with
  | nil => rfl
  | cons p ps ih =>
    simp only [List.all_cons, Bool.and_eq_true] at h
    simp [unpackPhases, packPhases, unpack_pack N p _ h.1, ih h.2]

theorem packPhases_unpackPhases (N n w : Nat) :
    packPhases (unpackPhases N n w).1 (unpackPhases N n w).2 = w
      ∧ (unpackPhases N n w).1.length = n ∧ (unpackPhases N n w).1.all (Phase.shaped N) = true := by
  induction n generalizing w with
  | zero => simp [unpackPhases, packPhases]
  | succ n ih =>
    obtain ⟨h1, h2, h3⟩ := ih (Phase.unpack N w).2
    obtain ⟨g1, g2⟩ := pack_unpack N w
    refine ⟨?_, ?_, ?_⟩
    · simp only [unpackPhases, packPhases, h1, g1]
    · simp only [unpackPhases, List.length_cons, h2]
    · simp only [unpackPhases, List.all_cons, g2, h3, Bool.and_self]

/-! ### Lane words -/

theorem unpackWords_packWords (W : Nat) (vs : List Bits) (rest : Nat) (h : ∀ v ∈ vs, v.length = W) :
    unpackWords W vs.length (packWords vs rest) = (vs, rest) := by
  induction vs with
  | nil => rfl
  | cons v vs ih =>
    have hv := h v (by simp)
    have hvs : ∀ v ∈ vs, v.length = W := fun v hv => h v (by simp [hv])
    simp [unpackWords, packWords, bitsOf_putBits' hv, putBits_div' hv, ih hvs]

theorem packWords_unpackWords (W n w : Nat) :
    packWords (unpackWords W n w).1 (unpackWords W n w).2 = w ∧ wordsShaped n W (unpackWords W n w).1 = true := by
  induction n generalizing w with
  | zero => simp [unpackWords, packWords, wordsShaped]
  | succ n ih =>
    obtain ⟨h1, h2⟩ := ih (w / 2 ^ W)
    simp only [wordsShaped, Bool.and_eq_true, decide_eq_true_eq] at h2
    refine ⟨by simp only [unpackWords, packWords, h1, putBits_bitsOf], ?_⟩
    simp only [wordsShaped, unpackWords, List.length_cons, h2.1, List.all_cons, length_bitsOf, h2.2]
    simp

/-! ### The control word -/

/-- The width of a phase-offset field holds exactly the offsets below the ratio (R31). -/
theorem two_pow_phaseBits {R : Nat} (h : ratioTyped R = true) : 2 ^ phaseBits R = R := by
  simp only [ratioTyped, Bool.and_eq_true, decide_eq_true_eq] at h; exact h.2

theorem two_pow_cwBits (R N : Nat) : 2 ^ cwBits R N
    = 2 * 2 * 2 * 2 * 2 * 2 * 2 * 2 ^ phaseBits R * 2 ^ phaseBits R * 2 ^ (N / 8) := by
  simp only [cwBits, pow_add, Nat.two_mul]; ring

/-- What lies above a control word is what was written above it (R95). -/
theorem pack_div (R N : Nat) (c : Ctl) (rest : Nat) (h : c.dlySel.length = N / 8) :
    c.pack R rest / 2 ^ cwBits R N = rest := by
  rw [two_pow_cwBits]
  simp only [← Nat.div_div_eq_div_mul, Ctl.pack, putBit_div, putNat_div, putBits_div' h]

/-- The control record of a control word is the one that was written (R95). -/
theorem ofWord_pack (R N : Nat) (c : Ctl) (rest : Nat) (hR : ratioTyped R = true) (h : c.shaped R N = true) :
    Ctl.ofWord R N (c.pack R rest) = c := by
  simp only [Ctl.shaped, Bool.and_eq_true, decide_eq_true_eq] at h
  obtain ⟨⟨h1, h2⟩, h3⟩ := h
  simp only [Ctl.ofWord, Ctl.pack, putBit_div, getBit_putBit, putNat_div, putNat_mod, bitsOf_putBits' h3]
  rw [two_pow_phaseBits hR, Nat.mod_eq_of_lt h1, Nat.mod_eq_of_lt h2]

/-- Writing the control record of a number and what lies above it gives the number back (R95). -/
theorem pack_ofWord (R N w : Nat) : (Ctl.ofWord R N w).pack R (w / 2 ^ cwBits R N) = w := by
  rw [two_pow_cwBits]
  simp only [← Nat.div_div_eq_div_mul, Ctl.pack, Ctl.ofWord]
  simp only [putBits_bitsOf, putNat_getNat, putBit_getBit]

/-- The control record of any number has the widths of R31. -/
theorem ofWord_shaped (R N w : Nat) (hR : ratioTyped R = true) : (Ctl.ofWord R N w).shaped R N = true := by
  have hp := two_pow_phaseBits hR
  have hpos : 0 < R := by rw [← hp]; exact Nat.two_pow_pos _
  simp only [Ctl.shaped, Ctl.ofWord, length_bitsOf, hp]
  simp [Nat.mod_lt _ hpos]

/-! ### The name of a step -/

/-- The record is not lost in the operation that a step's record names. -/
@[simp] theorem record_ofIn (inp : In) : (Instr.ofIn inp).record = some inp := by
  unfold Instr.ofIn; cases inp.ctl.stepRow <;> rfl

/-- The operation that a record of the block's shape names is well formed. -/
theorem wellFormed_ofIn (R N : Nat) (inp : In) (h : inp.shaped R N = true) :
    (Instr.ofIn inp).wellFormed R N = true := by
  unfold Instr.ofIn
  cases hr : inp.ctl.stepRow <;> simp [Instr.wellFormed, In.names, h, hr]

/-- A well-formed operation that carries a record is the operation the record names. -/
theorem ofIn_record {R N : Nat} {i : Instr} {inp : In} (hi : i.wellFormed R N = true) (hr : i.record = some inp) :
    Instr.ofIn inp = i ∧ inp.shaped R N = true := by
  cases i <;> simp only [Instr.record, Option.some.injEq, reduceCtorEq] at hr
  all_goals
    subst hr
    simp only [Instr.wellFormed, In.names, Bool.and_eq_true, decide_eq_true_eq] at hi
    exact ⟨by simp [Instr.ofIn, hi.2], hi.1⟩

end Sys2Proof
end

