-- ==== Sys2Proof/Laws/PerInstr.lean ====
section
/-! SUPPORT. One statement for each operation, about its encoding: the control word of a well-formed record that names
a row of the control surface has the bits by which the table selects that row (R94, R95, R266 to R275). -/

namespace Sys2Proof.Laws.RowSelection

/-- The bits of a base-design control word by which the table selects a row: its mask and match of R266 to R273, and
for the three fields a value other than 0. A row without an encoding is selected by no word (R94), `PHY.STEP` by every
word. -/
def Selects (w : Nat) : Instr → Prop
  | .latMake .. | .latAdd .. | .trLookup .. | .trPeriod .. | .trSyslat .. | .trRawphase .. | .trBorrow ..
  | .trRdlat .. | .trWrlat .. | .trWrtap .. | .trResolve .. | .tdlStep .. | .tdlRead .. | .rdvStep | .rdvOut
  | .wrenStep | .arbHist | .arbAllow | .arbSlip | .arbOr | .arbOut | .arbStep | .clkOut | .simpleStep
  | .bsOut .. | .bsStep .. | .bsInc .. | .bsRst .. | .wrdqPath | .wrdmPath | .wrdqsPath | .rddqPath | .rdDist
  | .sfDqoe | .sfPre | .sfPost | .sfDqsoe | .sfWord | .rhWrap .. | .rhSer | .rhDes | .phyConstruct .. => False
  | .ctlRst _ => w.testBit 0 = true
  | .ctlWlevelEn _ => w.testBit 1 = true
  | .ctlWlevelStrobe _ => w.testBit 1 = true ∧ w.testBit 2 = true
  | .ctlDlySel _ => w / 2 ^ 13 % 2 ^ 2 ≠ 0
  | .ctlRdBsRst _ => w.testBit 3 = true
  | .ctlRdBsInc _ => w.testBit 4 = true
  | .ctlWrBsRst _ => w.testBit 5 = true
  | .ctlWrBsInc _ => w.testBit 6 = true
  | .ctlRdphase _ => w / 2 ^ 7 % 2 ^ 3 ≠ 0
  | .ctlWrphase _ => w / 2 ^ 10 % 2 ^ 3 ≠ 0
  | .phyStep _ => True

/-- Every well-formed operation of the base design that carries a record is selected by the record's control word. -/
def Statement (i : Instr) : Prop :=
  ∀ inp, i.record = some inp → i.wellFormed 8 16 = true → Selects (inp.ctl.toWord 8) i

/-! ### The fields of a control word -/

theorem phaseBits_eight : phaseBits 8 = 3 := by decide

/-- A control word of the base design, field by field. -/
theorem toWord_testBit (c : Ctl) :
    (c.toWord 8).testBit 0 = c.rst ∧ (c.toWord 8).testBit 1 = c.wlevelEn ∧ (c.toWord 8).testBit 2 = c.wlevelStrobe
      ∧ (c.toWord 8).testBit 3 = c.rdBsRst ∧ (c.toWord 8).testBit 4 = c.rdBsInc
      ∧ (c.toWord 8).testBit 5 = c.wrBsRst ∧ (c.toWord 8).testBit 6 = c.wrBsInc := by
  have h0 : ∀ (b : Bool) (rest : Nat), (putBit b rest).testBit 0 = b := fun b rest => by
    rw [Nat.testBit_zero]; exact getBit_putBit b rest
  simp only [Ctl.toWord, Ctl.pack, Nat.testBit_succ, putBit_div, h0, and_self]

theorem toWord_rdPhase (c : Ctl) : c.toWord 8 / 2 ^ 7 % 2 ^ 3 = c.rdPhase % 2 ^ 3 := by
  rw [show (2 : Nat) ^ 7 = 2 * 2 * 2 * 2 * 2 * 2 * 2 by rfl]
  simp only [← Nat.div_div_eq_div_mul, Ctl.toWord, Ctl.pack, putBit_div, phaseBits_eight, putNat_mod]

theorem toWord_wrPhase (c : Ctl) : c.toWord 8 / 2 ^ 10 % 2 ^ 3 = c.wrPhase % 2 ^ 3 := by
  rw [show (2 : Nat) ^ 10 = 2 * 2 * 2 * 2 * 2 * 2 * 2 * 2 ^ 3 by rfl]
  simp only [← Nat.div_div_eq_div_mul, Ctl.toWord, Ctl.pack, putBit_div, phaseBits_eight, putNat_div, putNat_mod]

theorem toWord_dlySel (c : Ctl) : c.toWord 8 / 2 ^ 13 = natOf c.dlySel := by
  rw [show (2 : Nat) ^ 13 = 2 * 2 * 2 * 2 * 2 * 2 * 2 * 2 ^ 3 * 2 ^ 3 by rfl]
  simp only [← Nat.div_div_eq_div_mul, Ctl.toWord, Ctl.pack, putBit_div, phaseBits_eight, putNat_div]
  simp [putBits]

/-- A word with a bit set is not zero. -/
theorem natOf_ne_zero (bs : Bits) (h : bs.any id = true) : natOf bs ≠ 0 := by
  induction bs with
  | nil => simp at h
  | cons b bs ih =>
    cases b with
    | true => simp [natOf]
    | false =>
      have := ih (by simpa using h)
      simp only [natOf]; omega

/-! ### What a row's name says of the control record -/

theorem stepRow_fields (c : Ctl) : match c.stepRow with
    | .ctlRst => c.rst = true
    | .ctlWlevelEn => c.wlevelEn = true
    | .ctlWlevelStrobe => c.wlevelEn = true ∧ c.wlevelStrobe = true
    | .ctlDlySel => c.dlySel.any id = true
    | .ctlRdBsRst => c.rdBsRst = true
    | .ctlRdBsInc => c.rdBsInc = true
    | .ctlWrBsRst => c.wrBsRst = true
    | .ctlWrBsInc => c.wrBsInc = true
    | .ctlRdphase => c.rdPhase ≠ 0
    | .ctlWrphase => c.wrPhase ≠ 0
    | .phyStep => True := by
  unfold Ctl.stepRow
  split_ifs <;> simp_all

/-- The shape and the fields behind a well-formed step of the given name. -/
theorem fields_of_names {row : StepRow} {inp : In} (h : inp.names 8 16 row = true) :
    inp.ctl.shaped 8 16 = true ∧ inp.ctl.stepRow = row := by
  simp only [In.names, In.shaped, Bool.and_eq_true, decide_eq_true_eq] at h
  exact ⟨h.1.1.2, h.2⟩

/-! ### One lemma for each operation -/

theorem latMake (slow : Nat) (fast : Nat) (R : Nat) : Statement (.latMake slow fast R) := by
  intro _ h; simp [Instr.record] at h

theorem latAdd (a : Latency) (b : Latency) (R : Nat) : Statement (.latAdd a b R) := by
  intro _ h; simp [Instr.record] at h

theorem trLookup (tCK : Ratio) (tbl : List TimingEntry) : Statement (.trLookup tCK tbl) := by
  intro _ h; simp [Instr.record] at h

theorem trPeriod (targetFreq : Ratio) (R : Nat) : Statement (.trPeriod targetFreq R) := by
  intro _ h; simp [Instr.record] at h

theorem trSyslat (x : Nat) (R : Nat) : Statement (.trSyslat x R) := by
  intro _ h; simp [Instr.record] at h

theorem trRawphase (cl : Nat) (cwl : Nat) (clSys0 : Nat) (cwlSys0 : Nat) (cmdLat : Nat) (serTicks : Nat) (desTicks : Nat) (R : Nat) :
    Statement (.trRawphase cl cwl clSys0 cwlSys0 cmdLat serTicks desTicks R) := by
  intro _ h; simp [Instr.record] at h

theorem trBorrow (raw : Int) (sys0 : Nat) (R : Nat) : Statement (.trBorrow raw sys0 R) := by
  intro _ h; simp [Instr.record] at h

theorem trRdlat (clSys : Nat) (serSlow : Nat) (desSlow : Nat) : Statement (.trRdlat clSys serSlow desSlow) := by
  intro _ h; simp [Instr.record] at h

theorem trWrlat (cwlSys : Nat) : Statement (.trWrlat cwlSys) := by
  intro _ h; simp [Instr.record] at h

theorem trWrtap (cwlSys : Nat) : Statement (.trWrtap cwlSys) := by
  intro _ h; simp [Instr.record] at h

theorem trResolve (cfg : Cfg) : Statement (.trResolve cfg) := by
  intro _ h; simp [Instr.record] at h

theorem tdlStep (line : Line) (x : Bool) : Statement (.tdlStep line x) := by
  intro _ h; simp [Instr.record] at h

theorem tdlRead (line : Line) (x : Bool) : Statement (.tdlRead line x) := by
  intro _ h; simp [Instr.record] at h

theorem rdvStep : Statement .rdvStep := by
  intro _ h; simp [Instr.record] at h

theorem rdvOut : Statement .rdvOut := by
  intro _ h; simp [Instr.record] at h

theorem wrenStep : Statement .wrenStep := by
  intro _ h; simp [Instr.record] at h

theorem arbHist : Statement .arbHist := by
  intro _ h; simp [Instr.record] at h

theorem arbAllow : Statement .arbAllow := by
  intro _ h; simp [Instr.record] at h

theorem arbSlip : Statement .arbSlip := by
  intro _ h; simp [Instr.record] at h

theorem arbOr : Statement .arbOr := by
  intro _ h; simp [Instr.record] at h

theorem arbOut : Statement .arbOut := by
  intro _ h; simp [Instr.record] at h

theorem arbStep : Statement .arbStep := by
  intro _ h; simp [Instr.record] at h

theorem clkOut : Statement .clkOut := by
  intro _ h; simp [Instr.record] at h

theorem simpleStep : Statement .simpleStep := by
  intro _ h; simp [Instr.record] at h

theorem bsOut (lane : Lane) : Statement (.bsOut lane) := by
  intro _ h; simp [Instr.record] at h

theorem bsStep (lane : Lane) (x : Bits) (rst : Bool) : Statement (.bsStep lane x rst) := by
  intro _ h; simp [Instr.record] at h

theorem bsInc (lane : Lane) (inc : Bool) (rst : Bool) : Statement (.bsInc lane inc rst) := by
  intro _ h; simp [Instr.record] at h

theorem bsRst (lane : Lane) (rst : Bool) : Statement (.bsRst lane rst) := by
  intro _ h; simp [Instr.record] at h

theorem wrdqPath : Statement .wrdqPath := by
  intro _ h; simp [Instr.record] at h

theorem wrdmPath : Statement .wrdmPath := by
  intro _ h; simp [Instr.record] at h

theorem wrdqsPath : Statement .wrdqsPath := by
  intro _ h; simp [Instr.record] at h

theorem rddqPath : Statement .rddqPath := by
  intro _ h; simp [Instr.record] at h

theorem rdDist : Statement .rdDist := by
  intro _ h; simp [Instr.record] at h

theorem sfDqoe : Statement .sfDqoe := by
  intro _ h; simp [Instr.record] at h

theorem sfPre : Statement .sfPre := by
  intro _ h; simp [Instr.record] at h

theorem sfPost : Statement .sfPost := by
  intro _ h; simp [Instr.record] at h

theorem sfDqsoe : Statement .sfDqsoe := by
  intro _ h; simp [Instr.record] at h

theorem sfWord : Statement .sfWord := by
  intro _ h; simp [Instr.record] at h

theorem rhWrap (cfg : Cfg) : Statement (.rhWrap cfg) := by
  intro _ h; simp [Instr.record] at h

theorem rhSer : Statement .rhSer := by
  intro _ h; simp [Instr.record] at h

theorem rhDes : Statement .rhDes := by
  intro _ h; simp [Instr.record] at h

theorem ctlRst (inp : In) : Statement (.ctlRst inp) := by
  intro r hr hw
  obtain rfl : inp = r := by simpa [Instr.record] using hr
  obtain ⟨hs, hn⟩ := fields_of_names hw
  have hf := stepRow_fields inp.ctl
  rw [hn] at hf
  exact (toWord_testBit inp.ctl).1.trans hf

theorem ctlWlevelEn (inp : In) : Statement (.ctlWlevelEn inp) := by
  intro r hr hw
  obtain rfl : inp = r := by simpa [Instr.record] using hr
  obtain ⟨hs, hn⟩ := fields_of_names hw
  have hf := stepRow_fields inp.ctl
  rw [hn] at hf
  exact (toWord_testBit inp.ctl).2.1.trans hf

theorem ctlWlevelStrobe (inp : In) : Statement (.ctlWlevelStrobe inp) := by
  intro r hr hw
  obtain rfl : inp = r := by simpa [Instr.record] using hr
  obtain ⟨hs, hn⟩ := fields_of_names hw
  have hf := stepRow_fields inp.ctl
  rw [hn] at hf
  exact ⟨(toWord_testBit inp.ctl).2.1.trans hf.1, (toWord_testBit inp.ctl).2.2.1.trans hf.2⟩

theorem ctlDlySel (inp : In) : Statement (.ctlDlySel inp) := by
  intro r hr hw
  obtain rfl : inp = r := by simpa [Instr.record] using hr
  obtain ⟨hs, hn⟩ := fields_of_names hw
  have hf := stepRow_fields inp.ctl
  rw [hn] at hf
  simp only [Ctl.shaped, Bool.and_eq_true, decide_eq_true_eq] at hs
  have hlt := natOf_lt inp.ctl.dlySel
  rw [hs.2] at hlt
  show inp.ctl.toWord 8 / _ % _ ≠ 0
  rw [toWord_dlySel, Nat.mod_eq_of_lt hlt]
  exact natOf_ne_zero _ hf

theorem ctlRdBsRst (inp : In) : Statement (.ctlRdBsRst inp) := by
  intro r hr hw
  obtain rfl : inp = r := by simpa [Instr.record] using hr
  obtain ⟨hs, hn⟩ := fields_of_names hw
  have hf := stepRow_fields inp.ctl
  rw [hn] at hf
  exact (toWord_testBit inp.ctl).2.2.2.1.trans hf

theorem ctlRdBsInc (inp : In) : Statement (.ctlRdBsInc inp) := by
  intro r hr hw
  obtain rfl : inp = r := by simpa [Instr.record] using hr
  obtain ⟨hs, hn⟩ := fields_of_names hw
  have hf := stepRow_fields inp.ctl
  rw [hn] at hf
  exact (toWord_testBit inp.ctl).2.2.2.2.1.trans hf

theorem ctlWrBsRst (inp : In) : Statement (.ctlWrBsRst inp) := by
  intro r hr hw
  obtain rfl : inp = r := by simpa [Instr.record] using hr
  obtain ⟨hs, hn⟩ := fields_of_names hw
  have hf := stepRow_fields inp.ctl
  rw [hn] at hf
  exact (toWord_testBit inp.ctl).2.2.2.2.2.1.trans hf

theorem ctlWrBsInc (inp : In) : Statement (.ctlWrBsInc inp) := by
  intro r hr hw
  obtain rfl : inp = r := by simpa [Instr.record] using hr
  obtain ⟨hs, hn⟩ := fields_of_names hw
  have hf := stepRow_fields inp.ctl
  rw [hn] at hf
  exact (toWord_testBit inp.ctl).2.2.2.2.2.2.trans hf

theorem ctlRdphase (inp : In) : Statement (.ctlRdphase inp) := by
  intro r hr hw
  obtain rfl : inp = r := by simpa [Instr.record] using hr
  obtain ⟨hs, hn⟩ := fields_of_names hw
  have hf := stepRow_fields inp.ctl
  rw [hn] at hf
  simp only [Ctl.shaped, Bool.and_eq_true, decide_eq_true_eq] at hs
  show inp.ctl.toWord 8 / _ % _ ≠ 0
  rw [toWord_rdPhase, Nat.mod_eq_of_lt (show _ < 2 ^ 3 from hs.1.1)]
  exact hf

theorem ctlWrphase (inp : In) : Statement (.ctlWrphase inp) := by
  intro r hr hw
  obtain rfl : inp = r := by simpa [Instr.record] using hr
  obtain ⟨hs, hn⟩ := fields_of_names hw
  have hf := stepRow_fields inp.ctl
  rw [hn] at hf
  simp only [Ctl.shaped, Bool.and_eq_true, decide_eq_true_eq] at hs
  show inp.ctl.toWord 8 / _ % _ ≠ 0
  rw [toWord_wrPhase, Nat.mod_eq_of_lt (show _ < 2 ^ 3 from hs.1.2)]
  exact hf

theorem phyConstruct (cfg : Cfg) : Statement (.phyConstruct cfg) := by
  intro _ h; simp [Instr.record] at h

theorem phyStep (inp : In) : Statement (.phyStep inp) := by
  intro _ _ _; trivial

end Sys2Proof.Laws.RowSelection
end

