-- ==== Sys2Proof/Laws/State.lean ====
section
/-! SUPPORT. What each update of the state leaves and changes, one lemma for each field. -/

namespace Sys2Proof.Machine

/-! ### One delay line replaced -/

@[simp] theorem lineTaps_setLine (s : State) (line : Line) (taps : List Bool) :
    lineTaps (setLine s line taps) line = taps := by cases line <;> rfl

@[simp] theorem setLine_cfg (s : State) (line : Line) (taps : List Bool) : (setLine s line taps).cfg = s.cfg := by
  cases line <;> rfl

@[simp] theorem setLine_settings (s : State) (line : Line) (taps : List Bool) :
    (setLine s line taps).settings = s.settings := by cases line <;> rfl

@[simp] theorem setLine_wrap (s : State) (line : Line) (taps : List Bool) : (setLine s line taps).wrap = s.wrap := by
  cases line <;> rfl

@[simp] theorem setLine_inp (s : State) (line : Line) (taps : List Bool) : (setLine s line taps).inp = s.inp := by
  cases line <;> rfl

@[simp] theorem setLine_out (s : State) (line : Line) (taps : List Bool) : (setLine s line taps).out = s.out := by
  cases line <;> rfl

@[simp] theorem setLine_wires (s : State) (line : Line) (taps : List Bool) : (setLine s line taps).wires = s.wires := by
  cases line <;> rfl

@[simp] theorem setLine_pending (s : State) (line : Line) (taps : List Bool) :
    (setLine s line taps).pending = s.pending := by cases line <;> rfl

@[simp] theorem setLine_regs_arb (s : State) (line : Line) (taps : List Bool) :
    (setLine s line taps).regs.arb = s.regs.arb := by cases line <;> rfl

/-! ### One transcoder replaced -/

@[simp] theorem setInstance_cfg (s : State) (lane : Lane) (t : Transcoder) : (setInstance s lane t).cfg = s.cfg := by
  cases lane <;> rfl

@[simp] theorem setInstance_settings (s : State) (lane : Lane) (t : Transcoder) :
    (setInstance s lane t).settings = s.settings := by cases lane <;> rfl

@[simp] theorem setInstance_wrap (s : State) (lane : Lane) (t : Transcoder) : (setInstance s lane t).wrap = s.wrap := by
  cases lane <;> rfl

@[simp] theorem setInstance_inp (s : State) (lane : Lane) (t : Transcoder) : (setInstance s lane t).inp = s.inp := by
  cases lane <;> rfl

@[simp] theorem setInstance_out (s : State) (lane : Lane) (t : Transcoder) : (setInstance s lane t).out = s.out := by
  cases lane <;> rfl

@[simp] theorem setInstance_wires (s : State) (lane : Lane) (t : Transcoder) :
    (setInstance s lane t).wires = s.wires := by cases lane <;> rfl

@[simp] theorem setInstance_pending (s : State) (lane : Lane) (t : Transcoder) :
    (setInstance s lane t).pending = s.pending := by cases lane <;> rfl

@[simp] theorem setInstance_regs_arb (s : State) (lane : Lane) (t : Transcoder) :
    (setInstance s lane t).regs.arb = s.regs.arb := by cases lane <;> rfl

/-! ### The wrapper's stages -/

@[simp] theorem deserialize_cfg (s : State) : (deserialize s).cfg = s.cfg := by unfold deserialize; split <;> rfl
@[simp] theorem deserialize_settings (s : State) : (deserialize s).settings = s.settings := by
  unfold deserialize; split <;> rfl
@[simp] theorem deserialize_regs (s : State) : (deserialize s).regs = s.regs := by unfold deserialize; split <;> rfl
@[simp] theorem deserialize_inp (s : State) : (deserialize s).inp = s.inp := by unfold deserialize; split <;> rfl
@[simp] theorem deserialize_out (s : State) : (deserialize s).out = s.out := by unfold deserialize; split <;> rfl
@[simp] theorem deserialize_outer (s : State) : (deserialize s).outer = s.outer := by unfold deserialize; split <;> rfl
@[simp] theorem deserialize_ret (s : State) : (deserialize s).ret = s.ret := by unfold deserialize; split <;> rfl
@[simp] theorem deserialize_pending (s : State) : (deserialize s).pending = s.pending := by
  unfold deserialize; split <;> rfl
@[simp] theorem deserialize_serq (s : State) : (deserialize s).wrap.serq = s.wrap.serq := by
  unfold deserialize; split <;> rfl

@[simp] theorem serialize_cfg (s : State) : (serialize s).cfg = s.cfg := by unfold serialize; split <;> rfl
@[simp] theorem serialize_settings (s : State) : (serialize s).settings = s.settings := by
  unfold serialize; split <;> rfl
@[simp] theorem serialize_regs (s : State) : (serialize s).regs = s.regs := by unfold serialize; split <;> rfl
@[simp] theorem serialize_inp (s : State) : (serialize s).inp = s.inp := by unfold serialize; split <;> rfl
@[simp] theorem serialize_out (s : State) : (serialize s).out = s.out := by unfold serialize; split <;> rfl
@[simp] theorem serialize_wires (s : State) : (serialize s).wires = s.wires := by unfold serialize; split <;> rfl
@[simp] theorem serialize_ret (s : State) : (serialize s).ret = s.ret := by unfold serialize; split <;> rfl
@[simp] theorem serialize_pending (s : State) : (serialize s).pending = s.pending := by
  unfold serialize; split <;> rfl
@[simp] theorem serialize_desq (s : State) : (serialize s).wrap.desq = s.wrap.desq := by
  unfold serialize; split <;> rfl

/-! ### The inner block's step -/

@[simp] theorem advance_cfg (s : State) : (advance s).cfg = s.cfg := rfl
@[simp] theorem advance_settings (s : State) : (advance s).settings = s.settings := rfl
@[simp] theorem advance_regs (s : State) : (advance s).regs = regsNext s := rfl
@[simp] theorem advance_wrap (s : State) : (advance s).wrap = s.wrap := rfl
@[simp] theorem advance_inp (s : State) : (advance s).inp = s.inp := rfl
@[simp] theorem advance_out (s : State) : (advance s).out = outOf s := rfl
@[simp] theorem advance_wires (s : State) : (advance s).wires = wiresOf s := rfl
@[simp] theorem advance_ret (s : State) : (advance s).ret = s.ret := rfl
@[simp] theorem advance_pending (s : State) : (advance s).pending = s.pending := rfl

/-! ### The step on a record -/

@[simp] theorem takeStep_cfg (inp : In) (s : State) : (takeStep inp s).cfg = s.cfg := by simp [takeStep]
@[simp] theorem takeStep_settings (inp : In) (s : State) : (takeStep inp s).settings = s.settings := by simp [takeStep]
@[simp] theorem takeStep_inp (inp : In) (s : State) : (takeStep inp s).inp = inp := by simp [takeStep]
@[simp] theorem takeStep_ret (inp : In) (s : State) : (takeStep inp s).ret = s.ret := by simp [takeStep]
@[simp] theorem takeStep_pending (inp : In) (s : State) : (takeStep inp s).pending = s.pending := by simp [takeStep]

theorem takeStep_regs (inp : In) (s : State) :
    (takeStep inp s).regs = regsNext (deserialize { s with inp := inp }) := by simp [takeStep]

theorem takeStep_out (inp : In) (s : State) :
    (takeStep inp s).out = outOf (deserialize { s with inp := inp }) := by simp [takeStep]

theorem takeStep_wires (inp : In) (s : State) :
    (takeStep inp s).wires = wiresOf (deserialize { s with inp := inp }) := by simp [takeStep]

@[simp] theorem takeStep_regs_rdLine (inp : In) (s : State) :
    (takeStep inp s).regs.rdLine = tdlShift s.regs.rdLine (rdEnAny inp) := by simp [takeStep_regs, regsNext]

@[simp] theorem takeStep_regs_wrLine (inp : In) (s : State) :
    (takeStep inp s).regs.wrLine = tdlShift s.regs.wrLine (wrEnAny inp) := by simp [takeStep_regs, regsNext]

@[simp] theorem takeStep_regs_arb (inp : In) (s : State) :
    (takeStep inp s).regs.arb = arbiterNext s.cfg s.regs.arb inp := by simp [takeStep_regs, regsNext]

@[simp] theorem takeStep_regs_ckeReg (inp : In) (s : State) :
    (takeStep inp s).regs.ckeReg = inp.phases.map Phase.cke := by simp [takeStep_regs, regsNext]

@[simp] theorem takeStep_regs_odtReg (inp : In) (s : State) :
    (takeStep inp s).regs.odtReg = inp.phases.map Phase.odt := by simp [takeStep_regs, regsNext]

@[simp] theorem takeStep_regs_rstnReg (inp : In) (s : State) :
    (takeStep inp s).regs.rstnReg = inp.phases.map Phase.resetN := by simp [takeStep_regs, regsNext]

@[simp] theorem takeStep_regs_wrDq (inp : In) (s : State) :
    (takeStep inp s).regs.wrDq = wrDqNext s.cfg inp s.regs.wrDq := by simp [takeStep_regs, regsNext]

@[simp] theorem takeStep_regs_wrDm (inp : In) (s : State) :
    (takeStep inp s).regs.wrDm = wrDmNext s.cfg inp s.regs.wrDm := by simp [takeStep_regs, regsNext]

@[simp] theorem takeStep_wires_preamble (inp : In) (s : State) :
    (takeStep inp s).wires.preamble = preambleOf s.settings.wrtap (wrEnAny inp) s.regs.wrLine := by
  simp [takeStep_wires, wiresOf]

@[simp] theorem takeStep_wires_postamble (inp : In) (s : State) :
    (takeStep inp s).wires.postamble = postambleOf s.settings.wrtap s.regs.wrLine := by
  simp [takeStep_wires, wiresOf]

@[simp] theorem takeStep_wires_strobeWord (inp : In) (s : State) :
    (takeStep inp s).wires.strobeWord
      = strobeWordOf s.cfg inp.ctl (preambleOf s.settings.wrtap (wrEnAny inp) s.regs.wrLine)
          (postambleOf s.settings.wrtap s.regs.wrLine) := by
  simp [takeStep_wires, wiresOf]

@[simp] theorem takeStep_wires_rdWord (inp : In) (s : State) :
    (takeStep inp s).wires.rdWord = windows s.cfg.W s.regs.rdDq := by simp [takeStep_wires, wiresOf]

@[simp] theorem takeStep_regs_wrDqs (inp : In) (s : State) :
    (takeStep inp s).regs.wrDqs
      = wrDqsNext s.cfg inp
          (strobeWordOf s.cfg inp.ctl (preambleOf s.settings.wrtap (wrEnAny inp) s.regs.wrLine)
            (postambleOf s.settings.wrtap s.regs.wrLine)) s.regs.wrDqs := by
  simp [takeStep_regs, regsNext, wiresOf]

/-- Without the wrapper the read-data instances take the pads' words. -/
theorem takeStep_regs_rdDq (inp : In) (s : State) (h : s.cfg.wrapped = false) :
    (takeStep inp s).regs.rdDq = rdDqNext s.cfg inp inp.pad s.regs.rdDq := by
  simp [takeStep_regs, regsNext, padInputs, h]

/-! ### An answer that is a next state -/

@[simp] theorem whenTyped_true (why : Refusal) (answer : Result) : whenTyped true why answer = answer := rfl
@[simp] theorem whenTyped_false (why : Refusal) (answer : Result) : whenTyped false why answer = .refused why := rfl

/-- An answer under a typing condition is a next state only where the condition holds. -/
theorem whenTyped_next {ok : Bool} {why : Refusal} {answer : Result} {t : State} :
    whenTyped ok why answer = .next t ↔ ok = true ∧ answer = .next t := by cases ok <;> simp

@[simp] theorem returning_next (v : Ret) (s t : State) : returning v s = .next t ↔ t = { s with ret := v } := by
  simp [returning, eq_comm]

@[simp] theorem raise_ne_next (f : Fault) (t : State) : (raise f = .next t) = False := by simp [raise]

/-- Everything a step on a record can do: it was one of this block's records, and the state is what `takeStep` makes. -/
theorem stepOn_next {inp : In} {s t : State} :
    stepOn inp s = .next t ↔ inp.shaped s.cfg.R s.cfg.N = true ∧ t = takeStep inp s := by
  unfold stepOn admitsInput
  rw [whenTyped_next, Host.Outcome.next.injEq, eq_comm (a := takeStep inp s)]

/-- Everything an operation on one instance can do. -/
theorem onInstance_next {lane : Lane} {f : Transcoder → Transcoder} {s t : State} :
    onInstance lane f s = .next t ↔ ∃ i, instanceAt s lane = some i ∧ t = setInstance s lane (f i) := by
  unfold onInstance
  cases instanceAt s lane <;> simp [eq_comm]

end Sys2Proof.Machine
end

