-- ==== Sys2Proof/Laws/Timing.lean ====
section
/-! SUPPORT. What the construction-time functions can do: the lookup, the borrow, the resolver and construction. -/

namespace Sys2Proof.Machine

/-- The lookup answers with the first entry that the period reaches (R121). -/
theorem lookup_eq_some (tCK : Ratio) (tbl : List TimingEntry) (cl cwl : Nat) :
    lookup tCK tbl = some (cl, cwl) ↔ ∃ (i : Nat) (e : TimingEntry), tbl[i]? = some e ∧ reaches tCK e.threshold = true
      ∧ (∀ j < i, ∀ e' : TimingEntry, tbl[j]? = some e' → reaches tCK e'.threshold = false) ∧ e.cl = cl ∧ e.cwl = cwl := by
  induction tbl with
  | nil => simp [lookup]
  | cons e rest ih =>
    by_cases h : reaches tCK e.threshold = true
    · rw [lookup, if_pos h]
      constructor
      · intro heq
        obtain ⟨rfl, rfl⟩ : e.cl = cl ∧ e.cwl = cwl := by simpa using heq
        exact ⟨0, e, rfl, h, by simp, rfl, rfl⟩
      · rintro ⟨i, e', he', _, hlt, rfl, rfl⟩
        cases i with
        | zero => obtain rfl : e = e' := by simpa using he'
                  rfl
        | succ i => have := hlt 0 (by omega) e rfl; rw [h] at this; cases this
    · have hf : reaches tCK e.threshold = false := by simpa using h
      rw [lookup, if_neg h, ih]
      constructor
      · rintro ⟨i, e', he', hr, hlt, h1, h2⟩
        refine ⟨i + 1, e', by simpa using he', hr, ?_, h1, h2⟩
        intro j hj e'' he''
        cases j with
        | zero => obtain rfl : e = e'' := by simpa using he''
                  exact hf
        | succ j => exact hlt j (by omega) e'' (by simpa using he'')
      · rintro ⟨i, e', he', hr, hlt, h1, h2⟩
        cases i with
        | zero => obtain rfl : e = e' := by simpa using he'
                  rw [hf] at hr; cases hr
        | succ i => exact ⟨i, e', by simpa using he', hr,
                      fun j hj e'' he'' => hlt (j + 1) (by omega) e'' (by simpa using he''), h1, h2⟩

/-- The lookup has no answer where the period reaches no entry (R121). -/
theorem lookup_eq_none (tCK : Ratio) (tbl : List TimingEntry) :
    lookup tCK tbl = none ↔ ∀ e ∈ tbl, reaches tCK e.threshold = false := by
  induction tbl with
  | nil => simp [lookup]
  | cons e rest ih =>
    by_cases h : reaches tCK e.threshold = true
    · simp [lookup, h]
    · simp only [Bool.not_eq_true] at h; simp [lookup, h, ih]

/-- Enough rounds of the borrow loop add as many ratios to the phase as cycles to the latency, and end in `[0, R)`
where the phase was below `R`. -/
theorem borrowRounds_spec (R : Nat) (hR : 0 < R) (rounds : Nat) (raw : Int) (sys0 : Nat) (h : (-raw).toNat ≤ rounds) :
    ∃ k : Nat, borrowRounds R rounds raw sys0 = ((raw + k * R).toNat, sys0 + k) ∧ 0 ≤ raw + k * R
      ∧ (raw < R → raw + k * R < R) ∧ (0 ≤ raw → k = 0) := by
  induction rounds generalizing raw sys0 with
  | zero =>
    exact ⟨0, by simp [borrowRounds], by simp; omega, by simp, by simp⟩
  | succ n ih =>
    by_cases hneg : raw < 0
    · have hle : (-(raw + R)).toNat ≤ n := by omega
      obtain ⟨k, he, h0, hlt, _⟩ := ih (raw + R) (sys0 + 1) hle
      have e : raw + R + k * R = raw + ((k + 1 : Nat) : Int) * R := by push_cast; ring
      rw [e] at he h0 hlt
      refine ⟨k + 1, ?_, h0, fun _ => hlt (by omega), by omega⟩
      rw [borrowRounds, if_pos hneg, he, show sys0 + 1 + k = sys0 + (k + 1) by omega]
    · exact ⟨0, by simp [borrowRounds, hneg], by simpa using hneg, by simp, by simp⟩

/-- Everything the borrow can do (R125). -/
theorem borrow_spec (raw : Int) (sys0 R : Nat) (hR : 0 < R) :
    ∃ k : Nat, borrow raw sys0 R = ((raw + k * R).toNat, sys0 + k) ∧ 0 ≤ raw + k * R
      ∧ (raw < R → raw + k * R < R) ∧ (0 ≤ raw → k = 0) := borrowRounds_spec R hR _ raw sys0 (by omega)

/-- A borrow from `sysLat(x)·R − (x + y)`: the phase is below `R` and the latency accounts for every tick. -/
theorem borrow_rawPhase (x y R : Nat) (hR : 0 < R) :
    let r := borrow (rawPhase (sysLat x R) (x + y) R) (sysLat x R) R
    r.1 < R ∧ r.2 * R = x + y + r.1 ∧ sysLat x R ≤ r.2 := by
  obtain ⟨k, he, h0, hlt, _⟩ := borrow_spec (rawPhase (sysLat x R) (x + y) R) (sysLat x R) R hR
  have hs : sysLat x R * R < x + R := by
    have := Nat.div_mul_le_self (x + R - 1) R
    simp only [sysLat]; omega
  have hraw : rawPhase (sysLat x R) (x + y) R < R := by simp only [rawPhase]; push_cast at *; omega
  simp only [he]
  have hlt' := hlt hraw
  refine ⟨by omega, ?_, by omega⟩
  have : rawPhase (sysLat x R) (x + y) R + (k : Int) * R = (((sysLat x R + k) * R : Nat) : Int) - ((x + y : Nat) : Int) := by
    simp only [rawPhase]; push_cast; ring
  omega

/-- Everything the resolver can do: it answers with settings exactly where the table has an entry and the tap index is
not negative, and the settings are those of R124 to R128 and R133. -/
theorem resolve_eq_ok (c : Cfg) (st : Settings) (hR : 0 < c.R) (h : resolve c = .ok st) :
    lookup (period c.targetFreq c.R) c.table = some (st.cl, st.cwl)
      ∧ st.readPhase < c.R
      ∧ st.clSys * c.R = st.cl + c.cmdLatency + c.serLatency.fastTicks + c.desLatency.fastTicks + st.readPhase
      ∧ st.writePhase < c.R ∧ st.cwlSys * c.R = st.cwl + c.cmdLatency + st.writePhase
      ∧ sysLat st.cl c.R ≤ st.clSys ∧ sysLat st.cwl c.R ≤ st.cwlSys
      ∧ st.readLatency = 1 + c.serLatency.slowCycles + st.clSys + c.desLatency.slowCycles + 1
      ∧ st.writeLatency = st.cwlSys ∧ st.wrtap + 1 = st.cwlSys
      ∧ st.cmdLatency = c.cmdLatency ∧ st.phyType = c.phyType ∧ st.cmdDelay = c.cmdDelay
      ∧ st.R = c.R ∧ st.N = c.N := by
  unfold resolve at h
  cases hl : lookup (period c.targetFreq c.R) c.table with
  | none => simp [hl] at h
  | some pair =>
    obtain ⟨cl, cwl⟩ := pair
    simp only [hl] at h
    obtain ⟨r1, r2, r3⟩ := borrow_rawPhase cl (c.cmdLatency + c.serLatency.fastTicks + c.desLatency.fastTicks) c.R hR
    obtain ⟨w1, w2, w3⟩ := borrow_rawPhase cwl c.cmdLatency c.R hR
    rw [show cl + (c.cmdLatency + c.serLatency.fastTicks + c.desLatency.fastTicks)
      = readTicks cl c.cmdLatency c.serLatency.fastTicks c.desLatency.fastTicks by simp [readTicks]; omega] at r1 r2 r3
    rw [show cwl + c.cmdLatency = writeTicks cwl c.cmdLatency from rfl] at w1 w2 w3
    generalize hrd : borrow (rawPhase (sysLat cl c.R)
      (readTicks cl c.cmdLatency c.serLatency.fastTicks c.desLatency.fastTicks) c.R) (sysLat cl c.R) c.R = rd at *
    generalize hwr : borrow (rawPhase (sysLat cwl c.R) (writeTicks cwl c.cmdLatency) c.R) (sysLat cwl c.R) c.R = wr at *
    unfold wrtapOf at h
    by_cases hneg : ((wr.2 : Int) - 1 < 0)
    · simp [hneg] at h
    · simp only [hneg, if_false] at h
      obtain rfl := Except.ok.inj h
      have e1 : rd.2 * c.R = cl + c.cmdLatency + c.serLatency.fastTicks + c.desLatency.fastTicks + rd.1 := r2
      have e2 : ((wr.2 : Int) - 1).toNat + 1 = wr.2 := by omega
      exact ⟨rfl, r1, e1, w1, w2, r3, w3, rfl, rfl, e2, rfl, rfl, rfl, rfl, rfl⟩

/-- The resolver answers where the table has an entry and some tick of write latency. -/
theorem resolve_of_lookup (c : Cfg) (cl cwl : Nat) (hR : 0 < c.R)
    (hl : lookup (period c.targetFreq c.R) c.table = some (cl, cwl)) :
    (0 < cwl + c.cmdLatency → ∃ st, resolve c = .ok st)
      ∧ (cwl + c.cmdLatency = 0 → resolve c = .error .negativeTapIndex) := by
  obtain ⟨w1, w2, w3⟩ := borrow_rawPhase cwl c.cmdLatency c.R hR
  rw [show cwl + c.cmdLatency = writeTicks cwl c.cmdLatency from rfl] at w1 w2
  unfold resolve
  simp only [hl]
  generalize borrow (rawPhase (sysLat cwl c.R) (writeTicks cwl c.cmdLatency) c.R) (sysLat cwl c.R) c.R = wr at *
  simp only [writeTicks] at w2
  constructor
  · intro hpos
    have h1 : 1 ≤ wr.2 := by
      rcases Nat.eq_zero_or_pos wr.2 with h | h
      · rw [h] at w2; omega
      · exact h
    have : ¬ ((wr.2 : Int) - 1 < 0) := by omega
    simp [wrtapOf, this]
  · intro h0
    have h1 : wr.2 = 0 := by
      rcases Nat.eq_zero_or_pos wr.2 with h | h
      · exact h
      · have : c.R ≤ wr.2 * c.R := Nat.le_mul_of_pos_left _ h
        omega
    simp [wrtapOf, h1]

/-- A ratio of R8 is positive. -/
theorem ratioTyped_pos {R : Nat} (h : ratioTyped R = true) : 4 ≤ R := by
  simp only [ratioTyped, Bool.and_eq_true, decide_eq_true_eq] at h; exact h.1

theorem wellTyped_ratio {c : Cfg} (h : c.wellTyped = true) : 4 ≤ c.R := by
  simp only [Cfg.wellTyped, Bool.and_eq_true] at h
  exact ratioTyped_pos h.1.1.1.1.1.1

theorem wellTyped_sReset {c : Cfg} (h : c.wellTyped = true) : c.sReset < c.W := by
  simp only [Cfg.wellTyped, Bool.and_eq_true, decide_eq_true_eq] at h
  exact h.1.1.1.1.1.2

/-- Every pattern of a configuration is a lane word (R8, R317). -/
theorem wellTyped_patterns {c : Cfg} (h : c.wellTyped = true) :
    c.patClk.length = c.W ∧ c.patToggle.length = c.W ∧ c.patPre.length = c.W ∧ c.patPost.length = c.W
      ∧ c.patWlIdle.length = c.W ∧ c.patWlStrobe.length = c.W := by
  simp only [Cfg.wellTyped, Bool.and_eq_true, Cfg.patternsTyped] at h
  simpa using h.2

@[simp] theorem coreCfg_R (c : Cfg) : (coreCfg c).R = c.R := by unfold coreCfg; split <;> rfl
@[simp] theorem coreCfg_N (c : Cfg) : (coreCfg c).N = c.N := by unfold coreCfg; split <;> rfl
@[simp] theorem coreCfg_table (c : Cfg) : (coreCfg c).table = c.table := by unfold coreCfg; split <;> rfl
@[simp] theorem coreCfg_targetFreq (c : Cfg) : (coreCfg c).targetFreq = c.targetFreq := by unfold coreCfg; split <;> rfl
@[simp] theorem coreCfg_cmdLatency (c : Cfg) : (coreCfg c).cmdLatency = c.cmdLatency := by unfold coreCfg; split <;> rfl
@[simp] theorem coreCfg_sReset (c : Cfg) : (coreCfg c).sReset = c.sReset := by unfold coreCfg; split <;> rfl
@[simp] theorem coreCfg_maskedWrite (c : Cfg) : (coreCfg c).maskedWrite = c.maskedWrite := by
  unfold coreCfg; split <;> rfl
@[simp] theorem coreCfg_W (c : Cfg) : (coreCfg c).W = c.W := by simp [Cfg.W]
@[simp] theorem coreCfg_NB (c : Cfg) : (coreCfg c).NB = c.NB := by simp [Cfg.NB]

/-- The wrapper changes no size of the registers (R251). -/
theorem initial_coreCfg (c : Cfg) (st : Settings) : Regs.initial (coreCfg c) st = Regs.initial c st := by
  simp [Regs.initial]

/-- Everything construction can do (R290). -/
theorem construct_next {c : Cfg} {s t : State} : construct c s = .next t ↔
    c.N % 8 = 0 ∧ c.wellTyped = true ∧ ∃ st, resolve (coreCfg c) = .ok st ∧ t = constructed c (coreCfg c) st s.pending := by
  unfold construct
  by_cases hn : c.N % 8 ≠ 0
  · rw [if_pos hn]
    exact ⟨fun h => (by cases h), fun h => absurd h.1 hn⟩
  · rw [if_neg hn]
    cases ht : c.wellTyped with
    | false => exact ⟨fun h => (by simp [admitsConfig, ht, whenTyped] at h), fun h => (by simp at h)⟩
    | true =>
      cases hr : resolve (coreCfg c) with
      | error f =>
        exact ⟨fun h => (by simp [admitsConfig, ht, whenTyped, raise] at h), fun h => (by
          obtain ⟨_, _, st, h, _⟩ := h; cases h)⟩
      | ok st =>
        have e : whenTyped (admitsConfig c) .illTypedConfig
            (Host.Outcome.next (constructed c (coreCfg c) st s.pending))
              = .next (constructed c (coreCfg c) st s.pending) := by simp [admitsConfig, ht, whenTyped]
        show whenTyped (admitsConfig c) .illTypedConfig (.next (constructed c (coreCfg c) st s.pending)) = .next t ↔ _
        rw [e]
        constructor
        · intro h
          exact ⟨by omega, rfl, st, rfl, (Host.Outcome.next.inj h).symm⟩
        · rintro ⟨_, _, st', h', rfl⟩
          obtain rfl := Except.ok.inj h'
          rfl

end Sys2Proof.Machine
end

