-- ==== Sys2Proof/Laws/Run.lean ====
section
/-! SUPPORT. Runs of the block (R295): what one step of a run is, and what it shows. -/

namespace Sys2Proof.Machine

/-- Each step of a run is the step of R291 on that step's record, which is one of this block's. -/
theorem IsRun.step {ins : Nat → In} {states : Nat → State} (h : IsRun ins states) (t : Nat) :
    states (t + 1) = takeStep (ins t) (states t) ∧ (ins t).shaped (states t).cfg.R (states t).cfg.N = true := by
  have ht : stepOn (ins t) (states t) = .next (states (t + 1)) := h t
  rw [stepOn_next] at ht
  exact ⟨ht.2, ht.1⟩

/-- The constants of a run are those of its first state (R33). -/
theorem IsRun.constants {ins : Nat → In} {states : Nat → State} (h : IsRun ins states) (t : Nat) :
    (states t).cfg = (states 0).cfg ∧ (states t).settings = (states 0).settings := by
  induction t with
  | zero => exact ⟨rfl, rfl⟩
  | succ t ih => rw [(h.step t).1]; simp [ih]

/-- The states of `runFrom` are a run where every record is one of the block's. -/
theorem isRun_runFrom (ins : Nat → In) (s : State) (h : ∀ t, (ins t).shaped s.cfg.R s.cfg.N = true) :
    IsRun ins (runFrom ins s) := by
  have hc : ∀ t, (runFrom ins s t).cfg = s.cfg := fun t => by
    induction t with
    | zero => rfl
    | succ t ih => simp [runFrom, ih]
  intro t
  show stepOn (ins t) (runFrom ins s t) = .next (runFrom ins s (t + 1))
  rw [stepOn_next, hc t]
  exact ⟨h t, rfl⟩

/-- The enables and framing pulses that a step of a run shows, from the write-enable line at its start. -/
theorem IsRun.enables {ins : Nat → In} {states : Nat → State} (h : IsRun ins states) (t : Nat) :
    (states (t + 1)).out.pad.dqOe = bitAt (states t).regs.wrLine (states 0).settings.wrtap
      ∧ (states (t + 1)).wires.preamble
          = preambleOf (states 0).settings.wrtap (wrEnAny (ins t)) (states t).regs.wrLine
      ∧ (states (t + 1)).wires.postamble = postambleOf (states 0).settings.wrtap (states t).regs.wrLine
      ∧ (states (t + 1)).out.pad.dqsOe = ((ins t).ctl.wlevelEn || (states (t + 1)).wires.preamble
          || (states (t + 1)).out.pad.dqOe || (states (t + 1)).wires.postamble) := by
  have hc := h.constants t
  rw [(h.step t).1]
  simp [hc.2, takeStep_out, outOf, dqOeOf, dqsOeOf, wiresOf]

end Sys2Proof.Machine
end

