-- ==== Sys2Proof/Laws/Wrapper.lean ====
section
/-! SUPPORT. The wrapper's stages lane by lane (R254, R255). -/

namespace Sys2Proof.Machine

@[simp] theorem length_queueAfter {α : Type} (queue : List α) (a b : α) :
    (queueAfter queue [a, b]).length = queue.length := by simp [queueAfter]

@[simp] theorem halvesOf_eq (w : Bits) : halvesOf w = [w.take (w.length / 2), w.drop (w.length / 2)] := rfl

/-- What leaves a queue is the value that entered as many half-steps before as the queue is long (R254). -/
theorem oldestTwo_nil {α : Type} (empty a b : α) : oldestTwo empty [] [a, b] = { first := a, second := b } := rfl

@[simp] theorem zipWith_enables {α β γ δ ε ζ : Type} (f : α → γ → ε) (g : β → δ → ζ) (a : PadLanes α β)
    (b : PadLanes γ δ) : (a.zipWith f g b).enables = List.zipWith g a.enables b.enables := rfl

/-- The word lanes of a lane-by-lane combination, where both records have as many lanes of each kind. -/
theorem zipWith_wordLanes {α β γ δ ε ζ : Type} (f : α → γ → ε) (g : β → δ → ζ) (a : PadLanes α β) (b : PadLanes γ δ)
    (hca : a.ca.length = b.ca.length) (hdq : a.dqO.length = b.dqO.length) (hdm : a.dmiO.length = b.dmiO.length) :
    (a.zipWith f g b).wordLanes = List.zipWith f a.wordLanes b.wordLanes := by
  simp only [PadLanes.wordLanes, PadLanes.zipWith, List.zipWith_cons_cons, List.cons.injEq, true_and]
  rw [List.zipWith_append (by simp [hca, hdq, hdm]), List.zipWith_append (by simp [hca, hdq]),
    List.zipWith_append hca]

@[simp] theorem map_wordLanes {α β γ δ : Type} (f : α → γ) (g : β → δ) (a : PadLanes α β) :
    (a.map f g).wordLanes = a.wordLanes.map f := by simp [PadLanes.wordLanes, PadLanes.map]

@[simp] theorem map_enables {α β γ δ : Type} (f : α → γ) (g : β → δ) (a : PadLanes α β) :
    (a.map f g).enables = a.enables.map g := rfl

/-- The lanes of a lane-by-lane combination of pad inputs. -/
theorem padInZip_lanes {α γ ε : Type} (f : α → γ → ε) (a : PadInLanes α) (b : PadInLanes γ)
    (hdq : a.dqI.length = b.dqI.length) (hdm : a.dmiI.length = b.dmiI.length) :
    padInLanes (padInZip f a b) = List.zipWith f (padInLanes a) (padInLanes b) := by
  simp only [padInLanes, padInZip]
  rw [List.zipWith_append (by simp [hdq, hdm]), List.zipWith_append hdq]

@[simp] theorem padInMap_lanes {α γ : Type} (f : α → γ) (a : PadInLanes α) :
    padInLanes (padInMap f a) = (padInLanes a).map f := by simp [padInLanes, padInMap]

end Sys2Proof.Machine
end

