-- ==== Sys2Proof/Tests/Slice0.lean ====
section
/-! SUPPORT. The model's own tests. Expected values are those of 95_test_vectors.md (named V…) or worked by hand from
the rule named; then one witness for the hypotheses of each statement of the obligations. -/

namespace Sys2Proof.Machine.Slice0

/-! ### Helpers -/

/-- Whether an operation answers with a next state of which `p` holds. -/
def ok (r : Result) (p : State → Bool) : Bool :=
  match r with
  | .next t => p t
  | .fault _ => false
  | .refused _ => false

/-- The fault an operation ends in. -/
def faultOf : Result → Option Fault
  | .fault f => some f
  | .next _ => none
  | .refused _ => none

/-- The refusal an operation ends in. -/
def refusalOf : Result → Option Refusal
  | .refused f => some f
  | .next _ => none
  | .fault _ => none

/-- The state an operation answers with, or reset. -/
def after (r : Result) : State :=
  match r with
  | .next t => t
  | .fault _ => State.reset
  | .refused _ => State.reset

/-- A word of 16 bits. -/
def w16 (n : Nat) : Bits := bitsOf 16 n

/-- The idle record of the base design with every field 0. -/
def quiet : In := idleIn 8 16 0 0

/-- The record with its control fields changed. -/
def withCtl (f : Ctl → Ctl) (inp : In) : In := { inp with ctl := f inp.ctl }

/-- The record with one phase changed. -/
def withPhase (p : Nat) (f : Phase → Phase) (inp : In) : In := { inp with phases := inp.phases.modify p f }

/-- Payload `A` of 95_test_vectors.md. -/
def payloadA (ph : Phase) : Phase :=
  { ph with cmdValid := true, cs := 0b0101, ca0 := 0x3F, ca1 := 0x01, ca2 := 0x2A, ca3 := 0x15 }

/-- Payload `B` of 95_test_vectors.md. -/
def payloadB (ph : Phase) : Phase :=
  { ph with cmdValid := true, cs := 0b0001, ca0 := 0x11, ca1 := 0x22, ca2 := 0x33, ca3 := 0x0C }

/-- The base design with the given record presented. -/
def holding (inp : In) : State := { State.reset with inp := inp }

/-! ### Well-formedness: each check refuses an ill-formed term -/

theorem test_wf_ratio_zero : (Instr.latMake 0 0 0).wellFormed 8 16 = false := by decide
theorem test_wf_latency_not_canonical : (Instr.latAdd ⟨0, 8⟩ ⟨0, 0⟩ 8).wellFormed 8 16 = false := by decide
theorem test_wf_period_zero : (Instr.trLookup ⟨0, 1⟩ []).wellFormed 8 16 = false := by decide
theorem test_wf_thresholds_rise :
    (Instr.trLookup ⟨1, 1⟩ [⟨⟨1, 1⟩, 10, 6⟩, ⟨⟨2, 1⟩, 14, 8⟩]).wellFormed 8 16 = false := by decide
theorem test_wf_frequency_zero : (Instr.trPeriod ⟨0, 1⟩ 8).wellFormed 8 16 = false := by decide
theorem test_wf_ticks_beyond_ratio : (Instr.trRawphase 14 8 2 1 4 8 0 8).wellFormed 8 16 = false := by decide
theorem test_wf_ratio_not_power_of_two : (Instr.trResolve { baseCfg with R := 6 }).wellFormed 8 16 = false := by decide
theorem test_wf_ratio_below_four : ratioTyped 2 = false := by decide
theorem test_wf_s_reset_is_w : (Instr.phyConstruct { baseCfg with sReset := 16 }).wellFormed 8 16 = false := by decide
theorem test_wf_pattern_width : (Instr.phyConstruct { baseCfg with patClk := [true] }).wellFormed 8 16 = false := by
  decide
theorem test_wf_wrap_without_wrapped : (Instr.rhWrap baseCfg).wellFormed 8 16 = false := by decide
theorem test_wf_lane_beyond_group : (Instr.bsOut (.rdDq 16)).wellFormed 8 16 = false := by decide
theorem test_wf_word_width : (Instr.bsStep (.wrDqs 0) [true] false).wellFormed 8 16 = false := by decide
theorem test_wf_phase_count : (Instr.phyStep { quiet with phases := [] }).wellFormed 8 16 = false := by decide
theorem test_wf_write_data_width :
    (Instr.phyStep (withPhase 0 (fun p => { p with wrData := [] }) quiet)).wellFormed 8 16 = false := by decide
theorem test_wf_phase_offset_beyond_ratio :
    (Instr.ctlRdphase (withCtl (fun c => { c with rdPhase := 8 }) quiet)).wellFormed 8 16 = false := by decide
theorem test_wf_pad_width :
    (Instr.phyStep { quiet with pad := { quiet.pad with dqI := [] } }).wellFormed 8 16 = false := by decide
theorem test_wf_record_names_another_row : (Instr.ctlRst quiet).wellFormed 8 16 = false := by decide

/-! ### Decoding: words written out from R95 and the masks of R266 to R275 -/

theorem test_decode_idle : decodeTableWord 16 0x0000 = some (.phyStep quiet) := by decide
theorem test_decode_rst :
    decodeTableWord 16 0x0001 = some (.ctlRst (withCtl (fun c => { c with rst := true }) quiet)) := by decide
theorem test_decode_wlevelEn :
    decodeTableWord 16 0x0002 = some (.ctlWlevelEn (withCtl (fun c => { c with wlevelEn := true }) quiet)) := by decide
theorem test_decode_wlevelStrobe : decodeTableWord 16 0x0006 = some (.ctlWlevelStrobe
    (withCtl (fun c => { c with wlevelEn := true, wlevelStrobe := true }) quiet)) := by decide
theorem test_decode_dlySel : decodeTableWord 16 0x2000 = some (.ctlDlySel
    (withCtl (fun c => { c with dlySel := [true, false] }) quiet)) := by decide
theorem test_decode_rdBsRst : decodeTableWord 16 0x2008 = some (.ctlRdBsRst
    (withCtl (fun c => { c with dlySel := [true, false], rdBsRst := true }) quiet)) := by decide
theorem test_decode_rdBsInc : decodeTableWord 16 0x2010 = some (.ctlRdBsInc
    (withCtl (fun c => { c with dlySel := [true, false], rdBsInc := true }) quiet)) := by decide
theorem test_decode_wrBsRst : decodeTableWord 16 0x4020 = some (.ctlWrBsRst
    (withCtl (fun c => { c with dlySel := [false, true], wrBsRst := true }) quiet)) := by decide
theorem test_decode_wrBsInc : decodeTableWord 16 0x6040 = some (.ctlWrBsInc
    (withCtl (fun c => { c with dlySel := [true, true], wrBsInc := true }) quiet)) := by decide
theorem test_decode_rdPhase : decodeTableWord 16 0x0300 = some (.ctlRdphase
    (withCtl (fun c => { c with rdPhase := 6 }) quiet)) := by decide
theorem test_decode_wrPhase : decodeTableWord 16 0x1000 = some (.ctlWrphase
    (withCtl (fun c => { c with wrPhase := 4 }) quiet)) := by decide
theorem test_decode_strobe_alone : decodeTableWord 16 0x0004 = some (.phyStep
    (withCtl (fun c => { c with wlevelStrobe := true }) quiet)) := by decide
/-- Bits of `CW` above bit `12 + NB` do not exist (R97). -/
theorem test_decode_refuses_bit_fifteen : decodeTableWord 16 0x8000 = none := by decide

/-- The record of a block with `R = 4`, `N = 8`: control word in bits 11:0, phases of 52 bits from bit 16 on, pad words
of 8 bits from bit 224 on (R81, R85, R95). Phase 0: `cmdValid` at 16, `cs` 17, `ca` 21, `cke` 45, `odt` 46, `resetN`
47, `wrData` 48, `wrMask` 64, `wrEn` 66, `rdEn` 67. -/
theorem test_decode_phase_fields :
    decode 4 8 (2 ^ 16 + 2 ^ 18 + 2 ^ 27 + 2 ^ 45 + 2 ^ 47 + 2 ^ 57 + 2 ^ 65 + 2 ^ 66) = .ok (.phyStep
      (withPhase 0 (fun p => { p with
        cmdValid := true, cs := 2, ca1 := 1, cke := true, resetN := true, wrData := bitsOf 16 0x200
        wrMask := [false, true], wrEn := true }) (idleIn 4 8 0 0))) := by decide
theorem test_decode_second_phase_and_pad :
    decode 4 8 (2 ^ (16 + 52 + 51) + 2 ^ 224 * (1 + 2 ^ (8 * 8 + 1) + 2 ^ (8 * 9 + 7))) = .ok (.phyStep
      { withPhase 1 (fun p => { p with rdEn := true }) (idleIn 4 8 0 0) with
        pad :=
          { dqI := bitsOf 8 0x01 :: List.replicate 7 (zeros 8), dmiI := [bitsOf 8 0x02], dqsI := [bitsOf 8 0x80] } }) := by
  decide
/-- A block without lanes has a record of 152 bits. -/
theorem test_decode_beyond_record : decode 4 0 (2 ^ 152) = .error .beyondRecord := by
  decide +kernel
theorem test_decode_reserved_bits : decode 4 8 (2 ^ 12) = .error .reservedBits := by decide
theorem test_encode_of_step : encode 8 16 (.ctlRdBsInc
    (withCtl (fun c => { c with dlySel := [true, false], rdBsInc := true }) quiet)) = some 0x2010 := by
  decide +kernel
theorem test_encode_none_for_func : encode 8 16 (.latMake 0 19 8) = none := by decide

/-! ### Latency Algebra (V1) and Timing Resolver (V2) -/

theorem test_latMake : ok (exec (.latMake 0 19 8) State.reset) (·.ret == .latency ⟨2, 3⟩) = true := by decide
theorem test_latMake_exact : ok (exec (.latMake 1 8 8) State.reset) (·.ret == .latency ⟨2, 0⟩) = true := by decide
theorem test_latAdd : ok (exec (.latAdd ⟨1, 5⟩ ⟨2, 6⟩ 8) State.reset) (·.ret == .latency ⟨4, 3⟩) = true := by decide
theorem test_latAdd_carry : ok (exec (.latAdd ⟨0, 7⟩ ⟨0, 1⟩ 8) State.reset) (·.ret == .latency ⟨1, 0⟩) = true := by
  decide
theorem test_trLookup_exact : ok (exec (.trLookup ⟨125, 100000000000⟩ baseCfg.table) State.reset)
    (·.ret == .casPair 14 8) = true := by decide
theorem test_trLookup_too_fast :
    faultOf (exec (.trLookup ⟨1, 1000000000⟩ baseCfg.table) State.reset) = some .unsupportedTiming := by decide
theorem test_trPeriod : ok (exec (.trPeriod ⟨100000000, 1⟩ 8) State.reset) (·.ret == .period ⟨1, 800000000⟩) = true := by
  decide
theorem test_trSyslat : ok (exec (.trSyslat 17 8) State.reset) (·.ret == .steps 3) = true := by decide
theorem test_trSyslat_multiple : ok (exec (.trSyslat 16 8) State.reset) (·.ret == .steps 2) = true := by decide
theorem test_trRawphase :
    ok (exec (.trRawphase 14 8 2 1 4 4 4 8) State.reset) (·.ret == .rawPhases (-10) (-4)) = true := by decide
theorem test_trBorrow_two_rounds : ok (exec (.trBorrow (-10) 2 8) State.reset) (·.ret == .borrowed 6 4) = true := by
  decide
theorem test_trBorrow_whole_ratio : ok (exec (.trBorrow (-8) 2 8) State.reset) (·.ret == .borrowed 0 3) = true := by
  decide
theorem test_trRdlat : ok (exec (.trRdlat 3 1 2) State.reset) (·.ret == .steps 8) = true := by decide
theorem test_trWrlat : ok (exec (.trWrlat 2) State.reset) (·.ret == .steps 2) = true := by decide
theorem test_trWrtap : ok (exec (.trWrtap 2) State.reset) (·.ret == .steps 1) = true := by decide
theorem test_trWrtap_negative : faultOf (exec (.trWrtap 0) State.reset) = some .negativeTapIndex := by decide
/-- V2.3, third row. -/
theorem test_trResolve : ok (exec (.trResolve { baseCfg with cmdLatency := 3 }) State.reset)
    (·.ret == .settings { baseSettings with cmdLatency := 3, readPhase := 7, writePhase := 5 }) = true := by decide
/-- V2.4, first row. -/
theorem test_trResolve_whole_cycles :
    ok (exec (.trResolve { baseCfg with serLatency := ⟨1, 2⟩, desLatency := ⟨2, 3⟩ }) State.reset)
      (·.ret == .settings { baseSettings with readPhase := 1, readLatency := 8 }) = true := by decide

/-! ### Construction (V9, V7.1) -/

theorem test_phyConstruct_lane_width_first :
    faultOf (exec (.phyConstruct { baseCfg with N := 12, targetFreq := ⟨125000000, 1⟩ }) State.reset)
      = some .invalidLaneWidth := by decide
/-- V9.8: 5 and 3 taps, `8 + 1 + 1 + 8` transcoders. -/
theorem test_phyConstruct_sizes : ok (exec (.phyConstruct { baseCfg with N := 8 }) State.reset) (fun t =>
    t.regs.rdLine.length == 5 && t.regs.wrLine.length == 3 && t.regs.wrDq.length == 8 && t.regs.wrDm.length == 1
      && t.regs.wrDqs.length == 1 && t.regs.rdDq.length == 8) = true := by decide
theorem test_rhWrap : ok (exec (.rhWrap { baseCfg with wrapped := true, rhSer := 1, rhDes := 2 }) State.reset) (fun t =>
    t.settings.readPhase == 2 && t.settings.readLatency == 6 && t.settings.writePhase == 4 && t.settings.wrtap == 1)
      = true := by decide
theorem test_rhWrap_needs_wrapped : refusalOf (exec (.rhWrap baseCfg) State.reset) = some .illTypedConfig := by decide
/-- V9.5: the lookup comes before the tap check. -/
theorem test_construct_lookup_before_tap :
    faultOf (exec (.phyConstruct { baseCfg with targetFreq := ⟨125000000, 1⟩, cmdLatency := 0 }) State.reset)
      = some .unsupportedTiming := by decide

/-! ### Delay lines (V3) -/

/-- The base design with two read taps set. -/
def lineState : State :=
  { State.reset with regs := { State.reset.regs with
    rdLine := [true, false, true, false, true], wrLine := [false, true, false] } }

theorem test_tdlStep : ok (exec (.tdlStep .rdLine false) lineState)
    (·.regs.rdLine == [false, true, false, true, false]) = true := by decide
theorem test_tdlStep_other_line : ok (exec (.tdlStep .wrLine true) lineState) (fun t =>
    t.regs.wrLine == [true, false, true] && t.regs.rdLine == lineState.regs.rdLine) = true := by decide
theorem test_tdlRead : ok (exec (.tdlRead .rdLine false) lineState)
    (·.ret == .taps false [true, false, true, false, true] true) = true := by decide
theorem test_rdvStep : ok (exec .rdvStep (holding (withPhase 6 (fun p => { p with rdEn := true }) quiet)))
    (·.regs.rdLine == [true, false, false, false, false]) = true := by decide
theorem test_rdvOut : ok (exec .rdvOut lineState) (·.out.rdValid == List.replicate 8 true) = true := by decide
theorem test_wrenStep : ok (exec .wrenStep (holding (withPhase 3 (fun p => { p with wrEn := true }) quiet)))
    (·.regs.wrLine == [true, false, false]) = true := by decide

/-! ### Command arbiter (V4) -/

/-- V4.1: `A` in phase 1, `B` in phase 3. -/
def collision : State := holding (withPhase 3 payloadB (withPhase 1 payloadA quiet))

/-- The `allowed` bits of V4.1. -/
def allowedV41 : List Bool := [true, true, false, false, false, false, false, true]

theorem test_arbHist : ok (exec .arbHist collision) (·.wires.hist ==
    [false, false, false, false, true, false, true, false, false, false, false]) = true := by decide
/-- V4.8, filtered: the history bit of the dropped slot 2 is 0. -/
theorem test_arbHist_filtered :
    let s := holding (withPhase 4 payloadA (withPhase 2 payloadB (withPhase 0 payloadA quiet)))
    ok (exec .arbHist { s with cfg := { s.cfg with arbHistory := .filtered } }) (·.wires.hist ==
      [false, false, false, true, false, false, false, true, false, false, false]) = true := by decide
theorem test_arbAllow : ok (exec .arbAllow { collision with wires := { collision.wires with
    hist := [false, false, false, false, true, false, true, false, false, false, false] } })
    (·.wires.allowed == allowedV41) = true := by decide
theorem test_arbSlip : ok (exec .arbSlip { collision with wires := { collision.wires with allowed := allowedV41 } })
    (fun t => t.wires.contrib.getD 1 [] == [0, 0x7F, 0x02, 0x55, 0x2A, 0, 0, 0, 0, 0, 0]
      && t.wires.contrib.getD 3 [] == List.replicate 11 0) = true := by decide
/-- R169: slot 6 gives its last two rows to the next window. -/
theorem test_arbSlip_tail :
    let s := holding (withPhase 6 payloadA quiet)
    ok (exec .arbSlip { s with wires := { s.wires with allowed := List.replicate 8 true } })
      (fun t => t.wires.contrib.getD 6 [] == [0, 0, 0, 0, 0, 0, 0x7F, 0x02, 0x55, 0x2A, 0]) = true := by decide
theorem test_arbOr :
    let s := State.reset
    ok (exec .arbOr { s with
        regs := { s.regs with arb := { s.regs.arb with spill0 := 0x55, spill1 := 0x2A } }
        wires := { s.wires with contrib := [[0x7F, 0x02, 0x55, 0x2A, 0, 0, 0, 0, 0, 0, 0]] } })
      (·.wires.bus == [0x7F, 0x2A, 0x55, 0x2A, 0, 0, 0, 0, 0, 0, 0]) = true := by decide
/-- V4.1, step 1: `cs = 0A`, `ca = 16 0A 12 0A 12 0A`. -/
theorem test_arbStep_then_out : ok (exec .arbStep collision) (fun t => ok (exec .arbOut t) (fun u =>
    natOf u.out.pad.cs == 0x0A && u.out.pad.ca.map natOf == [0x16, 0x0A, 0x12, 0x0A, 0x12, 0x0A])) = true := by decide
/-- V4.3: the tail of `A` and the history cross the step boundary. -/
theorem test_arbStep_boundary : ok (exec .arbStep (holding (withPhase 6 payloadA quiet))) (fun t =>
    t.regs.arb.spill0 == 0x55 && t.regs.arb.spill1 == 0x2A && t.regs.arb.spill2 == 0
      && t.regs.arb.vh0 == false && t.regs.arb.vh1 == true && t.regs.arb.vh2 == false) = true := by decide
theorem test_arbOut : ok (exec .arbOut { State.reset with regs := { State.reset.regs with
    arb := { State.reset.regs.arb with outw := [0x41, 0, 0, 0, 0, 0, 0, 0x02] } } }) (fun t =>
    natOf t.out.pad.cs == 0x01 && t.out.pad.ca.map natOf == [0x80, 0, 0, 0, 0, 0x01]) = true := by decide
theorem test_clkOut : ok (exec .clkOut State.reset) (·.out.pad.clk == w16 0x5555) = true := by decide
theorem test_simpleStep :
    let s := holding (withPhase 2 (fun p => { p with cke := true, resetN := true }) quiet)
    ok (exec .simpleStep { s with regs := { s.regs with odtReg := bitsOf 8 0x81 } }) (fun t =>
      t.out.pad.odt == bitsOf 8 0x81 && t.regs.ckeReg == bitsOf 8 0x04 && t.regs.rstnReg == bitsOf 8 0x04
        && t.regs.odtReg == zeros 8) = true := by decide

/-! ### Bit lane transcoder and data paths (V5) -/

/-- The base design with `buf = 0x1234BEEF`, `S = 15` in one instance of each group (R202). -/
def laneState : State :=
  { State.reset with regs := { State.reset.regs with
    wrDq := State.reset.regs.wrDq.set 3 ⟨bitsOf 32 0x1234BEEF, 15⟩
    wrDm := State.reset.regs.wrDm.set 1 ⟨bitsOf 32 0x1234BEEF, 4⟩
    wrDqs := State.reset.regs.wrDqs.set 0 ⟨bitsOf 32 0x1234BEEF, 0⟩
    rdDq := State.reset.regs.rdDq.set 9 ⟨bitsOf 32 0x1234BEEF, 15⟩ } }

theorem test_bsOut : ok (exec (.bsOut (.rdDq 9)) laneState) (·.ret == .word (w16 0x2469)) = true := by decide
theorem test_bsOut_no_such_lane : refusalOf (exec (.bsOut (.wrDm 2)) laneState) = some .noSuchInstance := by decide
theorem test_bsStep : ok (exec (.bsStep (.wrDq 3) (w16 0xCAFE) false) laneState) (fun t =>
    t.regs.wrDq[3]? == some ⟨bitsOf 32 0xCAFE1234, 15⟩) = true := by decide
theorem test_bsStep_in_reset : ok (exec (.bsStep (.wrDq 3) (w16 0xCAFE) true) laneState) (· == laneState) = true := by decide
theorem test_bsInc_wraps : ok (exec (.bsInc (.rdDq 9) true false) laneState) (fun t =>
    t.regs.rdDq[9]? == some ⟨bitsOf 32 0x1234BEEF, 0⟩) = true := by decide
theorem test_bsInc_loses_to_reset :
    ok (exec (.bsInc (.wrDm 1) true true) laneState) (· == laneState) = true := by decide
theorem test_bsRst : ok (exec (.bsRst (.wrDm 1) true)
    { laneState with cfg := { laneState.cfg with sReset := 7 } }) (fun t =>
    t.regs.wrDm[1]? == some ⟨zeros 32, 7⟩) = true := by decide
/-- Bit `i` of lane 3 comes from phase `i div 2`, sub-slot `i mod 2` (R90). -/
theorem test_wrdqPath :
    let s := { laneState with inp := withPhase 2 (fun p => { p with wrData := bitsOf 32 (2 ^ 19) }) quiet }
    ok (exec .wrdqPath s) (fun t => t.out.pad.dqO.getD 3 [] == w16 0x2469
      && t.regs.wrDq[3]? == some ⟨bitsOf 32 0x00201234, 15⟩) = true := by decide
theorem test_wrdmPath :
    let s := { laneState with
      inp := withPhase 7 (fun p => { p with wrMask := [false, false, false, true] }) quiet
      out := { laneState.out with pad := { laneState.out.pad with dqOe := true } } }
    ok (exec .wrdmPath s) (fun t => t.out.pad.dmiO == [zeros 16, w16 0x4BEE] && t.out.pad.dmiOe
      && t.regs.wrDm[1]? == some ⟨bitsOf 32 0x80001234, 4⟩) = true := by decide
theorem test_wrdmPath_not_live :
    let s := { laneState with
      cfg := { laneState.cfg with maskedWrite := false }, regs := { laneState.regs with wrDm := [] }
      out := { laneState.out with pad := { laneState.out.pad with dqOe := true } } }
    ok (exec .wrdmPath s) (fun t => t.out.pad.dmiO == [zeros 16, zeros 16] && !t.out.pad.dmiOe) = true := by decide
theorem test_wrdqsPath :
    let s := { laneState with wires := { laneState.wires with strobeWord := w16 0x5540 } }
    ok (exec .wrdqsPath s) (fun t => t.out.pad.dqsO == [w16 0xBEEF, zeros 16]
      && t.regs.wrDqs == [⟨bitsOf 32 0x55401234, 0⟩, ⟨bitsOf 32 0x55400000, 0⟩]) = true := by decide
/-- R213: lane 9 belongs to byte lane 1; an increment of byte lane 0 leaves it. -/
theorem test_rddqPath :
    let pad := { quiet.pad with dqI := quiet.pad.dqI.set 9 (w16 0xCAFE) }
    let inp := { withCtl (fun c => { c with dlySel := [true, false], rdBsInc := true }) quiet with pad := pad }
    ok (exec .rddqPath { laneState with inp := inp }) (fun t => t.wires.rdWord.getD 9 [] == w16 0x2469
      && t.regs.rdDq[9]? == some ⟨bitsOf 32 0xCAFE1234, 15⟩ && (t.regs.rdDq[0]?).map Transcoder.rot == some 1)
        = true := by decide
/-- V5.9. -/
theorem test_rdDist :
    let words := [0x0001, 0x8000, 0xFFFF, 0x0000, 0x1234, 0xABCD, 0x0F0F, 0x8001].map w16
    let s := State.reset
    ok (exec .rdDist { s with cfg := { s.cfg with N := 8 }, wires := { s.wires with rdWord := words } }) (fun t =>
      t.out.rdData.map natOf == [0x44E5, 0x6474, 0x1414, 0x2424, 0x7464, 0x6444, 0x2414, 0xA604]) = true := by decide

/-! ### Strobe framing (V6) -/

/-- The base design (`wrtap = 1`) with the given write line. -/
def framing (taps : List Bool) (inp : In) : State :=
  { State.reset with inp := inp, regs := { State.reset.regs with wrLine := taps } }

theorem test_sfDqoe : ok (exec .sfDqoe (framing [false, true, false] quiet)) (·.out.pad.dqOe) = true := by decide
theorem test_sfPre : ok (exec .sfPre (framing [true, false, false] quiet)) (·.wires.preamble) = true := by decide
/-- With `wrtap = 0` the preamble is the step's own write enable (R232). -/
theorem test_sfPre_wrtap_zero :
    let s := framing [false, false] (withPhase 0 (fun p => { p with wrEn := true }) quiet)
    ok (exec .sfPre { s with settings := { s.settings with wrtap := 0 } }) (·.wires.preamble) = true := by decide
theorem test_sfPost : ok (exec .sfPost (framing [false, false, true] quiet)) (·.wires.postamble) = true := by decide
theorem test_sfPost_inside_burst :
    ok (exec .sfPost (framing [false, true, true] quiet)) (fun t => !t.wires.postamble) = true := by decide
theorem test_sfDqsoe :
    ok (exec .sfDqsoe { State.reset with wires := { State.reset.wires with postamble := true } }) (·.out.pad.dqsOe)
      = true := by decide
theorem test_sfDqsoe_levelling :
    ok (exec .sfDqsoe (holding (withCtl (fun c => { c with wlevelEn := true }) quiet))) (·.out.pad.dqsOe) = true := by decide
/-- V6.5, step 3: both pulses, the postamble word wins. -/
theorem test_sfWord_both_pulses : ok (exec .sfWord { State.reset with wires := { State.reset.wires with
    preamble := true, postamble := true } }) (·.wires.strobeWord == w16 0x0015) = true := by decide
/-- V6.7: with `FRAME_SWAP` the preamble carries `PAT_POST`. -/
theorem test_sfWord_swapped : ok (exec .sfWord { State.reset with
    cfg := { baseCfg with frameSwap := true }, wires := { State.reset.wires with preamble := true } })
    (·.wires.strobeWord == w16 0x0015) = true := by decide

/-! ### Rate-halving wrapper (V7) -/

/-- The wrapped base design, `RH_SER = 1`, `RH_DES = 2`. -/
def wrappedBase : State := after (construct { baseCfg with wrapped := true, rhSer := 1, rhDes := 2 } State.reset)

/-- V7.2: the queue of `dq_o[0]` holds the high half of step 2's word; step 3 gives `(0x12, 0xEF)`. -/
theorem test_rhSer :
    let s := { wrappedBase with
      wrap := { wrappedBase.wrap with serq := { wrappedBase.wrap.serq with
        dqO := wrappedBase.wrap.serq.dqO.set 0 [bitsOf 8 0x12] } }
      out := { wrappedBase.out with pad := { wrappedBase.out.pad with
        dqO := wrappedBase.out.pad.dqO.set 0 (w16 0xBEEF), dqOe := true } } }
    ok (exec .rhSer s) (fun t => t.outer.dqO[0]? == some ⟨bitsOf 8 0x12, bitsOf 8 0xEF⟩
      && t.wrap.serq.dqO[0]? == some [bitsOf 8 0xBE] && t.outer.dqOe == ⟨false, true⟩) = true := by decide
theorem test_rhSer_absent : ok (exec .rhSer State.reset) (· == State.reset) = true := by decide
/-- V7.3 with `RH_DES = 2`: the half-words of the step before. -/
theorem test_rhDes :
    let s := { wrappedBase with wrap := { wrappedBase.wrap with desq := { wrappedBase.wrap.desq with
      dqI := wrappedBase.wrap.desq.dqI.set 0 [bitsOf 8 0xEF, bitsOf 8 0xBE] } } }
    ok (exec .rhDes s) (fun t => t.wires.padIn.dqI[0]? == some (w16 0xBEEF)
      && t.wrap.desq.dqI[0]? == some [zeros 8, zeros 8]) = true := by decide

/-! ### Control surface (V5.10) and the step -/

/-- The rotations of the first lane of each byte lane in a group of data lanes. -/
def rots (ts : List Transcoder) : List (Option Nat) := [(ts[0]?).map Transcoder.rot, (ts[8]?).map Transcoder.rot]

/-- The base design with all rotations 1 for byte lane 0 and 2 for byte lane 1. -/
def rotated : State :=
  let set := fun (ts : List Transcoder) (d : Nat) => ts.mapIdx fun k t => { t with rot := if k / d = 0 then 1 else 2 }
  { State.reset with regs := { State.reset.regs with
    wrDq := set State.reset.regs.wrDq 8, wrDm := set State.reset.regs.wrDm 1
    wrDqs := set State.reset.regs.wrDqs 1, rdDq := set State.reset.regs.rdDq 8 } }

theorem test_ctlRst : ok (step (rotated.withFetchWord 16 0x6041)) (fun t => rots t.regs.rdDq == [some 0, some 0]
    && t.regs.wrDqs.map Transcoder.rot == [0, 0]) = true := by decide
theorem test_ctlWlevelEn : ok (step (State.reset.withFetchWord 16 0x0002)) (fun t =>
    t.out.pad.dqsOe && t.wires.strobeWord == zeros 16) = true := by decide
theorem test_ctlWlevelStrobe : ok (step (State.reset.withFetchWord 16 0x0006)) (fun t =>
    t.out.pad.dqsOe && t.wires.strobeWord == w16 0x0001) = true := by decide
theorem test_ctlDlySel_alone : ok (step (rotated.withFetchWord 16 0x6000)) (fun t =>
    rots t.regs.rdDq == [some 1, some 2] && rots t.regs.wrDq == [some 1, some 2]) = true := by decide
theorem test_ctlRdBsRst : ok (step (rotated.withFetchWord 16 0x4018)) (fun t =>
    rots t.regs.rdDq == [some 1, some 0] && rots t.regs.wrDq == [some 1, some 2]) = true := by decide
theorem test_ctlRdBsInc : ok (step (rotated.withFetchWord 16 0x2010)) (fun t =>
    rots t.regs.rdDq == [some 2, some 2] && rots t.regs.wrDq == [some 1, some 2]) = true := by decide
theorem test_ctlWrBsRst : ok (step (rotated.withFetchWord 16 0x4020)) (fun t =>
    rots t.regs.wrDq == [some 1, some 0] && t.regs.wrDm.map Transcoder.rot == [1, 0]
      && rots t.regs.rdDq == [some 1, some 2]) = true := by decide
theorem test_ctlWrBsInc : ok (step (rotated.withFetchWord 16 0x6040)) (fun t =>
    rots t.regs.wrDq == [some 2, some 3] && t.regs.wrDqs.map Transcoder.rot == [2, 3]
      && rots t.regs.rdDq == [some 1, some 2]) = true := by decide
theorem test_ctlRdphase : ok (step (State.reset.withFetchWord 16 0x0300)) (fun t =>
    t.inp.ctl.rdPhase == 6 && !t.out.pad.dqsOe && rots t.regs.rdDq == [some 0, some 0]) = true := by decide
theorem test_ctlWrphase : ok (step (State.reset.withFetchWord 16 0x1000)) (fun t =>
    t.inp.ctl.wrPhase == 4 && !t.out.pad.dqsOe && rots t.regs.wrDq == [some 0, some 0]) = true := by decide
/-- V6.1, step 2: `wrEn` two steps before, `wrtap = 1`. -/
theorem test_phyStep : ok (exec (.phyStep quiet) (framing [false, true, false] quiet)) (fun t =>
    t.out.pad.dqOe && t.out.pad.dqsOe && t.out.pad.dmiOe && !t.wires.preamble && !t.wires.postamble
      && t.regs.wrLine == [false, false, true]) = true := by decide
theorem test_step_quiet : ok (step State.reset) (fun t =>
    t.inp == idleIn 8 16 6 4 && t.out.pad.clk == w16 0x5555) = true := by decide
theorem test_step_call : ok (step { State.reset with pending := [.call (.trSyslat 9 8)] })
    (fun t => t.ret == .steps 2 && t.pending == []) = true := by decide
theorem test_step_call_of_a_step_row :
    refusalOf (step { State.reset with pending := [.call .arbStep] }) = some .notCallable := by decide

/-! ### Witnesses: a state and operands that meet the hypotheses of each statement -/

/-- A small block: `R = 4`, `N = 8`, `S_RESET = 3`; the table gives `(14, 8)`, so `readLatency = 7`, `wrtap = 2`. -/
def smallCfg : Cfg :=
  { baseCfg with
    R := 4, N := 8, targetFreq := ⟨200000000, 1⟩, sReset := 3
    patClk := bitsOf 8 0x55, patToggle := bitsOf 8 0x55, patPre := bitsOf 8 0x50, patPost := bitsOf 8 0x05
    patWlIdle := bitsOf 8 0x00, patWlStrobe := bitsOf 8 0x01 }

/-- The small block without mask lanes, with the filtered history. -/
def plainCfg : Cfg := { smallCfg with maskedWrite := false, arbHistory := .filtered }

/-- The small block with `CWL = 0` and `CMD_LATENCY = 1`: `wrtap = 0`. -/
def shortCfg : Cfg := { smallCfg with table := [⟨⟨1, 1000000000⟩, 14, 0⟩], cmdLatency := 1 }

/-- The small block in a wrapper of `RH_SER = 1`, `RH_DES = 2`. -/
def wrapCfg : Cfg := { smallCfg with wrapped := true, rhSer := 1, rhDes := 2 }

/-- The block that construction leaves. -/
def built (c : Cfg) : State := after (construct c State.reset)

theorem construct_small : exec (.phyConstruct smallCfg) State.reset = .next (built smallCfg) := rfl
theorem construct_plain : exec (.phyConstruct plainCfg) State.reset = .next (built plainCfg) := rfl
theorem construct_short : exec (.phyConstruct shortCfg) State.reset = .next (built shortCfg) := rfl
theorem construct_wrapped : exec (.phyConstruct wrapCfg) State.reset = .next (built wrapCfg) := rfl

theorem small_inv : (built smallCfg).Inv :=
  ⟨by decide, by decide, by decide, by decide, by decide, by decide, by decide⟩
theorem plain_inv : (built plainCfg).Inv :=
  ⟨by decide, by decide, by decide, by decide, by decide, by decide, by decide⟩
theorem short_inv : (built shortCfg).Inv :=
  ⟨by decide, by decide, by decide, by decide, by decide, by decide, by decide⟩
theorem wrapped_inv : (built wrapCfg).Inv :=
  ⟨by decide, by decide, by decide, by decide, by decide, by decide, by decide⟩

/-- The quiet record of the small block. -/
def smallQuiet : In := idleIn 4 8 0 0

/-- `L` steps of write enable from step `t0` on, in phase 1. -/
def burst (t0 L t : Nat) : In := withPhase 1 (fun p => { p with wrEn := decide (t0 ≤ t ∧ t < t0 + L) }) smallQuiet

/-- Two write enables with `gap` steps between them. -/
def twoBursts (gap t : Nat) : In :=
  withPhase 3 (fun p => { p with wrEn := decide (t = 1 ∨ t = 2 + gap), rdEn := true }) smallQuiet

/-- A command, data and a pad word in every step. -/
def traffic (t : Nat) : In :=
  let inp := withPhase 2 payloadB (withPhase 0 payloadA smallQuiet)
  let data := withPhase 1 (fun p => { p with wrData := bitsOf 16 0x8001, wrMask := [true, false] }) inp
  if t % 2 = 0 then data else { data with pad := { data.pad with dqI := data.pad.dqI.set 0 (bitsOf 8 0x2D) } }

theorem burst_shaped (t0 L t : Nat) : (burst t0 L t).shaped 4 8 = true := by
  have h : ∀ b, (withPhase 1 (fun p => { p with wrEn := b }) smallQuiet).shaped 4 8 = true := by decide
  exact h _
theorem twoBursts_shaped (gap t : Nat) : (twoBursts gap t).shaped 4 8 = true := by
  have h : ∀ b, (withPhase 3 (fun p => { p with wrEn := b, rdEn := true }) smallQuiet).shaped 4 8 = true := by decide
  exact h _
theorem traffic_shaped (t : Nat) : (traffic t).shaped 4 8 = true := by
  unfold traffic
  split <;> decide

/-- The run of a block on given records. -/
def runOn (c : Cfg) (ins : Nat → In) : Nat → State := runFrom ins (built c)

theorem burst_run (t0 L : Nat) : IsRun (burst t0 L) (runOn smallCfg (burst t0 L)) :=
  isRun_runFrom _ _ (burst_shaped t0 L)
theorem traffic_run : IsRun traffic (runOn smallCfg traffic) := isRun_runFrom _ _ traffic_shaped
theorem wrapped_run : IsRun traffic (runOn wrapCfg traffic) := isRun_runFrom _ _ traffic_shaped

/-- A record of the block's widths is stepped on. -/
theorem steps {inp : In} {s : State} (h : inp.shaped s.cfg.R s.cfg.N = true) :
    exec (.phyStep inp) s = .next (takeStep inp s) :=
  stepOn_next.mpr ⟨h, rfl⟩

/-! #### Latency Algebra and Timing Resolver -/

theorem witness_LatMakeCarriesIntoSlowCycles : 0 < 8 ∧ 7 < 8 := by decide
theorem witness_LatAddSumsThenNormalizes : 0 < 8 ∧ (⟨1, 7⟩ : Latency).fastTicks < 8 ∧ (⟨2, 7⟩ : Latency).fastTicks < 8 := by
  decide
theorem witness_LatencyAdditionLaws :
    (⟨1, 7⟩ : Latency).fastTicks < 8 ∧ (⟨2, 7⟩ : Latency).fastTicks < 8 ∧ (⟨0, 0⟩ : Latency).fastTicks < 8
      ∧ 1 * 8 + 7 = 1 * 8 + 7 := by decide
theorem witness_TimingFunctionsReturnTheirFormulas :
    (0 < (⟨1, 3⟩ : Ratio).num ∧ 0 < (⟨1, 3⟩ : Ratio).den ∧ 0 < 8) ∧ (7 < 8 ∧ 0 < 8) := by decide
/-- A period between the two thresholds selects entry 1, past entry 0; the exact threshold of entry 0 selects it. -/
theorem witness_LookupSelectsTheFirstReachedEntry :
    (⟨15, 10000000000⟩ : Ratio).positive = true ∧ thresholdsDecrease baseCfg.table = true
      ∧ baseCfg.table[1]? = some ⟨⟨125, 100000000000⟩, 14, 8⟩
      ∧ 125 * 10000000000 ≤ 15 * 100000000000
      ∧ baseCfg.table[0]? = some ⟨⟨2, 1000000000⟩, 10, 6⟩ ∧ 15 * 1000000000 < 2 * 10000000000
      ∧ (⟨⟨2, 1000000000⟩, 10, 6⟩ : TimingEntry) ∈ baseCfg.table := by decide
theorem witness_LookupSelectsTheFirstReachedEntry_none :
    (⟨1, 1000000000⟩ : Ratio).positive = true
      ∧ ∀ e ∈ baseCfg.table, 1 * e.threshold.den < e.threshold.num * 1000000000 := by decide
/-- Both branches at their boundary, and the closed form with and without a round. -/
theorem witness_BorrowLoopsToItsClosedForm :
    0 < 8 ∧ (0 : Int) ≤ 0 ∧ (-1 : Int) < 0 ∧ ((-10 : Int) = (2 : Nat) * 8 - (26 : Nat) ∧ (-10 : Int) < 8)
      ∧ ((7 : Int) = (1 : Nat) * 8 - (1 : Nat) ∧ (7 : Int) < 8) := by decide
theorem witness_WrtapIsCheckedNotWrapped :
    smallCfg.wellTyped = true ∧ lookup (period smallCfg.targetFreq smallCfg.R) smallCfg.table = some (14, 8) := by decide
/-- The other side of the equivalence. -/
theorem witness_WrtapIsCheckedNotWrapped_negative :
    let c := { shortCfg with cmdLatency := 0 }
    c.wellTyped = true ∧ lookup (period c.targetFreq c.R) c.table = some (14, 0) ∧ 0 + c.cmdLatency = 0 := by decide
theorem witness_ResolveReturnsTheSettings :
    smallCfg.wellTyped = true ∧ lookup (period smallCfg.targetFreq smallCfg.R) smallCfg.table = some (14, 8)
      ∧ 0 < 8 + smallCfg.cmdLatency := by decide
theorem witness_ResolvedSettingsRanges :
    exec (.trResolve shortCfg) State.reset = .next { State.reset with ret := .settings (built shortCfg).settings } := rfl

/-! #### Construction -/

theorem witness_ConstructionErrorsExactlyWhen :
    { smallCfg with N := 12 }.N % 8 ≠ 0
      ∧ (let c := { smallCfg with targetFreq := ⟨250000000, 1⟩ }
        c.N % 8 = 0 ∧ c.wellTyped = true
          ∧ ∀ e ∈ c.table, c.targetFreq.den * e.threshold.den < e.threshold.num * (c.R * c.targetFreq.num))
      ∧ (let c := { shortCfg with cmdLatency := 0 }
        c.N % 8 = 0 ∧ c.wellTyped = true ∧ lookup (period c.targetFreq c.R) c.table = some (14, 0)
          ∧ c.cmdLatency = 0) := by decide
theorem witness_ConstructionLeavesTheInitialState :
    smallCfg.N % 8 = 0 ∧ smallCfg.wellTyped = true ∧ smallCfg.wrapped = false
      ∧ lookup (period smallCfg.targetFreq smallCfg.R) smallCfg.table = some (14, 8) ∧ 0 < 8 + smallCfg.cmdLatency := by
  decide
/-- Without mask lanes, and with `CWL + CMD_LATENCY = 1`. -/
theorem witness_ConstructionLeavesTheInitialState_short :
    let c := { shortCfg with maskedWrite := false }
    c.N % 8 = 0 ∧ c.wellTyped = true ∧ c.wrapped = false
      ∧ lookup (period c.targetFreq c.R) c.table = some (14, 0) ∧ 0 < 0 + c.cmdLatency := by decide
theorem witness_WrapConstructsTheInnerBlock :
    wrapCfg.N % 8 = 0 ∧ wrapCfg.wellTyped = true ∧ wrapCfg.wrapped = true
      ∧ lookup (period wrapCfg.targetFreq wrapCfg.R) wrapCfg.table = some (14, 8) ∧ 0 < 8 + wrapCfg.cmdLatency := by
  decide
theorem witness_FirstStepShowsTheInitialState :
    smallCfg.wrapped = false ∧ exec (.phyConstruct smallCfg) State.reset = .next (built smallCfg)
      ∧ exec (.phyStep (traffic 1)) (built smallCfg) = .next (takeStep (traffic 1) (built smallCfg)) :=
  ⟨rfl, construct_small, steps (traffic_shaped 1)⟩
/-- With `wrtap = 0` and a write enable in the first step. -/
theorem witness_FirstStepShowsTheInitialState_short :
    shortCfg.wrapped = false ∧ (built shortCfg).settings.wrtap = 0 ∧ (burst 0 1 0).phases.any Phase.wrEn = true
      ∧ exec (.phyConstruct shortCfg) State.reset = .next (built shortCfg)
      ∧ exec (.phyStep (burst 0 1 0)) (built shortCfg) = .next (takeStep (burst 0 1 0) (built shortCfg)) :=
  ⟨rfl, rfl, rfl, construct_short, steps (burst_shaped 0 1 0)⟩

/-! #### Encoding and the step -/

theorem witness_DecodeOfEncode :
    ratioTyped 4 = true ∧ (Instr.phyStep (traffic 1)).wellFormed 4 8 = true
      ∧ encode 4 8 (.phyStep (traffic 1)) = some (encodeIn 4 8 (traffic 1)) :=
  ⟨by decide, by decide, rfl⟩
theorem witness_EncodeOfDecode : ratioTyped 4 = true ∧ decode 4 8 1 = .ok
    (.ctlRst (withCtl (fun c => { c with rst := true }) smallQuiet)) := by decide
theorem witness_StepRunsTheDecodedOperation :
    ((built smallCfg).withFetchWord 16 1).pending = .step 1 :: []
      ∧ decode (built smallCfg).cfg.R (built smallCfg).cfg.N 1 = .ok
          (.ctlRst (withCtl (fun c => { c with rst := true }) smallQuiet)) := by decide
theorem witness_StepRunsTheDecodedOperation_call :
    { built smallCfg with pending := [.call (.trWrtap 0)] }.pending = .call (.trWrtap 0) :: []
      ∧ (Instr.trWrtap 0).format = .func ∧ (built smallCfg).pending = [] := by decide
/-- One record for each of the ten rows. -/
theorem witness_StepsOnWellFormedRecordsComplete :
    (traffic 0).shaped 4 8 = true
      ∧ (Instr.ctlRst (withCtl (fun c => { c with rst := true }) smallQuiet)).wellFormed 4 8 = true
      ∧ (Instr.ctlWlevelEn (withCtl (fun c => { c with wlevelEn := true }) smallQuiet)).wellFormed 4 8 = true
      ∧ (Instr.ctlWlevelStrobe (withCtl (fun c => { c with wlevelEn := true, wlevelStrobe := true })
          smallQuiet)).wellFormed 4 8 = true
      ∧ (Instr.ctlDlySel (withCtl (fun c => { c with dlySel := [true] }) smallQuiet)).wellFormed 4 8 = true
      ∧ (Instr.ctlRdBsRst (withCtl (fun c => { c with rdBsRst := true }) smallQuiet)).wellFormed 4 8 = true
      ∧ (Instr.ctlRdBsInc (withCtl (fun c => { c with rdBsInc := true }) smallQuiet)).wellFormed 4 8 = true
      ∧ (Instr.ctlWrBsRst (withCtl (fun c => { c with wrBsRst := true }) smallQuiet)).wellFormed 4 8 = true
      ∧ (Instr.ctlWrBsInc (withCtl (fun c => { c with wrBsInc := true }) smallQuiet)).wellFormed 4 8 = true
      ∧ (Instr.ctlRdphase (withCtl (fun c => { c with rdPhase := 3 }) smallQuiet)).wellFormed 4 8 = true
      ∧ (Instr.ctlWrphase (withCtl (fun c => { c with wrPhase := 3 }) smallQuiet)).wellFormed 4 8 = true := by decide
/-- One ill-typed term for each clause. -/
theorem witness_IllTypedTermsAreRefused :
    quiet.shaped (built smallCfg).cfg.R (built smallCfg).cfg.N = false
      ∧ ((⟨0, 8⟩ : Latency).canonical 8 && (⟨0, 0⟩ : Latency).canonical 8) = false
      ∧ ((⟨0, 1⟩ : Ratio).positive && thresholdsDecrease []) = false
      ∧ ((⟨1, 1⟩ : Ratio).positive && thresholdsDecrease [⟨⟨1, 1⟩, 10, 6⟩, ⟨⟨1, 1⟩, 14, 8⟩]) = false
      ∧ ((⟨0, 1⟩ : Ratio).positive = false ∨ 8 = 0) ∧ ((⟨1, 1⟩ : Ratio).positive = false ∨ 0 = 0)
      ∧ (8 ≤ 8 ∨ 8 ≤ 0) ∧ (8 ≤ 0 ∨ 8 ≤ 8)
      ∧ { smallCfg with R := 6 }.wellTyped = false
      ∧ ({ smallCfg with sReset := 8 }.N % 8 = 0 ∧ { smallCfg with sReset := 8 }.wellTyped = false)
      ∧ smallCfg.wrapped = false
      ∧ instanceAt (built smallCfg) (.rdDq 8) = none
      ∧ (zeros 8).length = (built smallCfg).cfg.W ∧ (zeros 7).length ≠ (built smallCfg).cfg.W
      ∧ (built plainCfg).cfg.maskedWrite = false
      ∧ decode (built smallCfg).cfg.R (built smallCfg).cfg.N 0x2000 = .error .reservedBits
      ∧ Instr.arbStep.format ≠ .func := by decide
theorem witness_IllTypedTermsAreRefused_plain : (built plainCfg).Inv := plain_inv

/-! #### Delay lines -/

/-- Tap 0 and the last tap of both lines. -/
theorem witness_DelayLineShiftsAndReads :
    let s := built smallCfg
    s.regs.rdLine.length = 7 ∧ s.regs.wrLine.length = 4 ∧ 0 < 7 ∧ 5 + 1 < 7 ∧ 2 + 1 < 4 := by decide
theorem witness_TapsHoldTheInputsOfThePast :
    IsRun (twoBursts 1) (runOn smallCfg (twoBursts 1)) ∧ (runOn smallCfg (twoBursts 1) 0).Inv
      ∧ 6 < (runOn smallCfg (twoBursts 1) 0).settings.readLatency
      ∧ 3 < (runOn smallCfg (twoBursts 1) 0).settings.wrtap + 2 :=
  ⟨isRun_runFrom _ _ (twoBursts_shaped 1), small_inv, by decide, by decide⟩
theorem witness_ValidAndEnableComeTheirLatencyLater :
    IsRun (twoBursts 1) (runOn smallCfg (twoBursts 1)) ∧ (runOn smallCfg (twoBursts 1) 0).Inv
      ∧ (runOn smallCfg (twoBursts 1) 0).settings.readLatency ≤ 7
      ∧ (runOn smallCfg (twoBursts 1) 0).settings.writeLatency ≤ 3 :=
  ⟨isRun_runFrom _ _ (twoBursts_shaped 1), small_inv, by decide, by decide⟩

/-! #### Command arbiter -/

/-- The small block with a command in phases 0 and 2, in each history mode. -/
theorem witness_HistoryAndAllowedBits :
    let s := { built smallCfg with inp := traffic 0 }
    s.Inv ∧ (∃ ph, s.inp.phases[3]? = some ph) ∧ s.cfg.arbHistory = .raw :=
  ⟨⟨small_inv.configured, small_inv.regs, traffic_shaped 0, small_inv.out, small_inv.strobeWord, small_inv.padIn,
    small_inv.wrap⟩, ⟨_, rfl⟩, rfl⟩
theorem witness_HistoryAndAllowedBits_filtered :
    let s := { built plainCfg with inp := traffic 0 }
    s.Inv ∧ (∃ ph, s.inp.phases[0]? = some ph) ∧ s.cfg.arbHistory = .filtered :=
  ⟨⟨plain_inv.configured, plain_inv.regs, traffic_shaped 0, plain_inv.out, plain_inv.strobeWord, plain_inv.padIn,
    plain_inv.wrap⟩, ⟨_, rfl⟩, rfl⟩
theorem witness_SlippedContributionsAreOred :
    let s := { built smallCfg with inp := traffic 0 }
    s.Inv ∧ (∃ ph, s.inp.phases[3]? = some ph) ∧ bitAt (contribRows 4 [true, true, true, true] s.inp |>.map (fun rows =>
      rows.getD 6 0 == 0)) 3 = true :=
  ⟨witness_HistoryAndAllowedBits.1, ⟨_, rfl⟩, by decide⟩
theorem witness_CommandClockAndSimpleLanes :
    let s := { built smallCfg with inp := traffic 0 }
    s.Inv ∧ (∃ row, s.regs.arb.outw[3]? = some row) ∧ ∃ ph, s.inp.phases[3]? = some ph :=
  ⟨witness_HistoryAndAllowedBits.1, ⟨_, rfl⟩, ⟨_, rfl⟩⟩
theorem witness_ArbiterRegisterForm :
    let s := { built smallCfg with inp := traffic 0 }
    s.Inv ∧ (∃ ph, s.inp.phases[0]? = some ph) ∧ ∃ ph, s.inp.phases[3]? = some ph :=
  ⟨witness_HistoryAndAllowedBits.1, ⟨_, rfl⟩, ⟨_, rfl⟩⟩
theorem witness_ArbiterRegistersAgreeWithTheStream :
    IsRun traffic (runOn smallCfg traffic) ∧ (runOn smallCfg traffic 0).Inv
      ∧ (runOn smallCfg traffic 0).regs.arb
          = ⟨false, false, false, 0, 0, 0, List.replicate (runOn smallCfg traffic 0).cfg.R 0⟩ :=
  ⟨traffic_run, small_inv, rfl⟩
theorem witness_CommandLanesShowTheBusOneStepLate :
    IsRun traffic (runOn smallCfg traffic) ∧ (runOn smallCfg traffic 0).Inv
      ∧ (runOn smallCfg traffic 0).regs.arb
          = ⟨false, false, false, 0, 0, 0, List.replicate (runOn smallCfg traffic 0).cfg.R 0⟩ ∧ 3 < smallCfg.R :=
  ⟨traffic_run, small_inv, rfl, by decide⟩

/-- Valid commands at slots 5, 7 and 9. -/
def chain (n : Nat) : Bool := decide (n = 5 ∨ n = 7 ∨ n = 9)

/-- Payload rows with chip-select set, on the slots of `chain`. -/
def chainRows (n _k : Nat) : Row := if chain n then 1 else 0

theorem chain_contract : ZeroRowsWhenInvalid chain chainRows := by
  intro n h k
  simp [chainRows, h]
theorem chain_start : ∀ d, 0 < d → d ≤ 3 → d ≤ 5 → chain (5 - d) = false := by
  intro d h0 h3 _
  interval_cases d <;> decide

/-- Slot 5 is free of commands before it; slot 7 has one two slots before. -/
theorem witness_SpacedCommandsAppearAndCloseOnesVanish :
    ZeroRowsWhenInvalid chain chainRows ∧ chain 5 = true
      ∧ (∀ d, 0 < d → d ≤ 3 → d ≤ 5 → chain (5 - d) = false)
      ∧ (0 < 2 ∧ 2 ≤ 3 ∧ 2 ≤ 7 ∧ chain (7 - 2) = true) :=
  ⟨chain_contract, by decide, chain_start, by decide⟩
/-- The boundary distances 1 and 3 of the second clause. -/
theorem witness_SpacedCommandsAppearAndCloseOnesVanish_boundaries :
    (0 < 1 ∧ 1 ≤ 3 ∧ 1 ≤ 6 ∧ chain (6 - 1) = true) ∧ (0 < 3 ∧ 3 ≤ 3 ∧ 3 ≤ 8 ∧ chain (8 - 3) = true) := by decide
theorem witness_AtMostOneCommandOnTheBus :
    ZeroRowsWhenInvalid chain chainRows ∧ slotContrib (slotAllowed true .raw chain) chainRows 5 8 ≠ 0
      ∧ slotContrib (slotAllowed true .filtered chain) chainRows 9 10 ≠ 0 :=
  ⟨chain_contract, by decide, by decide⟩
theorem witness_HistoryModesOnAChainOfCommands :
    (∀ d, 0 < d → d ≤ 3 → d ≤ 5 → chain (5 - d) = false) ∧ chain 5 = true ∧ chain (5 + 1) = false
      ∧ chain (5 + 2) = true ∧ chain (5 + 3) = false ∧ chain (5 + 4) = true :=
  ⟨chain_start, by decide⟩

/-! #### Transcoders and data paths -/

/-- One instance of each group, at the ends of their ranges. -/
theorem witness_OperationsOnOneTranscoder :
    (built smallCfg).Inv
      ∧ instanceAt (built smallCfg) (.wrDq 7) = some ⟨zeros 16, 3⟩
      ∧ instanceAt (built smallCfg) (.wrDm 0) = some ⟨zeros 16, 3⟩
      ∧ instanceAt (built smallCfg) (.wrDqs 0) = some ⟨zeros 16, 3⟩
      ∧ instanceAt (built smallCfg) (.rdDq 0) = some ⟨zeros 16, 3⟩
      ∧ (zeros 8).length = (built smallCfg).cfg.W ∧ (Lane.rdDq 0 ≠ .wrDq 0) :=
  ⟨small_inv, by decide⟩
theorem witness_ThreeRulesMakeTheTable :
    ∃ s1 s2 s3, (built smallCfg).Inv ∧ instanceAt (built smallCfg) (.rdDq 7) = some ⟨zeros 16, 3⟩
      ∧ (bitsOf 8 0x81).length = (built smallCfg).cfg.W
      ∧ exec (.bsStep (.rdDq 7) (bitsOf 8 0x81) false) (built smallCfg) = .next s1
      ∧ exec (.bsInc (.rdDq 7) true false) s1 = .next s2 ∧ exec (.bsRst (.rdDq 7) false) s2 = .next s3 :=
  ⟨_, _, _, small_inv, rfl, rfl, rfl, rfl, rfl⟩
/-- The same with the reset asserted. -/
theorem witness_ThreeRulesMakeTheTable_reset :
    ∃ s1 s2 s3, exec (.bsStep (.wrDm 0) (bitsOf 8 0x81) true) (built smallCfg) = .next s1
      ∧ exec (.bsInc (.wrDm 0) true true) s1 = .next s2 ∧ exec (.bsRst (.wrDm 0) true) s2 = .next s3 :=
  ⟨_, _, _, rfl, rfl, rfl⟩
theorem witness_IncrementsCountModuloW : (⟨bitsOf 16 0xA53C, 7⟩ : Transcoder).Fits 8 := by decide
theorem witness_WriteDataPath : ∃ s : State, s.Inv ∧ s.inp = traffic 0 ∧ s.regs.wrDq[7]? = some ⟨zeros 16, 3⟩ :=
  ⟨{ built smallCfg with inp := traffic 0 }, witness_HistoryAndAllowedBits.1, rfl, rfl⟩
/-- With mask lanes and without. -/
theorem witness_WriteMaskAndStrobePaths :
    (built smallCfg).Inv ∧ (built smallCfg).cfg.maskedWrite = true
      ∧ (built plainCfg).Inv ∧ (built plainCfg).cfg.maskedWrite = false :=
  ⟨small_inv, rfl, plain_inv, rfl⟩
/-- Without the wrapper and with it. -/
theorem witness_ReadDataPathAndDistribution :
    (built smallCfg).Inv ∧ (built smallCfg).cfg.wrapped = false ∧ (built wrapCfg).Inv ∧ (built wrapCfg).cfg.wrapped = true
      ∧ 7 < smallCfg.W ∧ 7 < smallCfg.N :=
  ⟨small_inv, rfl, wrapped_inv, rfl, by decide, by decide⟩
theorem traffic_quiet (t y : Nat) :
    (rdRst (traffic t).ctl y = false ∧ rdInc (traffic t).ctl y = false)
      ∧ wrRst (traffic t).ctl y = false ∧ wrInc (traffic t).ctl y = false := by
  have h : (traffic t).ctl = smallQuiet.ctl := by unfold traffic; split <;> rfl
  rw [h]
  simp [rdRst, rdInc, wrRst, wrInc, smallQuiet, idleIn]
/-- Lane 0 of every group, without the wrapper. -/
theorem witness_LanesDelayByTwoWMinusS :
    IsRun traffic (runOn smallCfg traffic) ∧ (runOn smallCfg traffic 0).Inv
      ∧ (runOn smallCfg traffic 0).cfg.wrapped = false
      ∧ (∀ t, rdRst (traffic t).ctl (0 / 8) = false ∧ rdInc (traffic t).ctl (0 / 8) = false)
      ∧ (runOn smallCfg traffic 0).regs.rdDq[0]? = some ⟨zeros 16, 3⟩
      ∧ (∀ t, wrRst (traffic t).ctl (0 / 8) = false ∧ wrInc (traffic t).ctl (0 / 8) = false)
      ∧ (runOn smallCfg traffic 0).regs.wrDq[0]? = some ⟨zeros 16, 3⟩
      ∧ (∀ t, wrRst (traffic t).ctl 0 = false ∧ wrInc (traffic t).ctl 0 = false)
      ∧ (runOn smallCfg traffic 0).regs.wrDm[0]? = some ⟨zeros 16, 3⟩
      ∧ (runOn smallCfg traffic 0).regs.wrDqs[0]? = some ⟨zeros 16, 3⟩
      ∧ 2 * (runOn smallCfg traffic 0).cfg.W ≤ 16 :=
  ⟨traffic_run, small_inv, rfl, fun t => (traffic_quiet t _).1, rfl, fun t => (traffic_quiet t _).2, rfl,
    fun t => (traffic_quiet t _).2, rfl, rfl, by decide⟩
/-- The last read lane of a wrapped block. -/
theorem witness_LanesDelayByTwoWMinusS_wrapped :
    IsRun traffic (runOn wrapCfg traffic) ∧ (runOn wrapCfg traffic 0).Inv
      ∧ (runOn wrapCfg traffic 0).cfg.wrapped = true
      ∧ (∀ t, rdRst (traffic t).ctl (7 / 8) = false ∧ rdInc (traffic t).ctl (7 / 8) = false)
      ∧ (runOn wrapCfg traffic 0).regs.rdDq[7]? = some ⟨zeros 16, 3⟩ :=
  ⟨wrapped_run, wrapped_inv, rfl, fun t => (traffic_quiet t _).1, rfl⟩

/-- A transcoder fed with the words `x`, from an empty buffer. -/
def fed (W S : Nat) (x : Nat → Bits) : Nat → Transcoder
  | 0 => ⟨zeros (2 * W), S⟩
  | t + 1 => transcode W 0 (x t) false false (fed W S x t)

/-- A stream of words of 8 bits. -/
def words8 (t : Nat) : Bits := bitsOf 8 (37 * t + 1)

theorem witness_InverseRotationsRecoverTheStream :
    3 < 8 ∧ (∀ t, (words8 t).length = 8)
      ∧ (fed 8 3 words8 0).Fits 8 ∧ (fed 8 3 words8 0).rot = 3
      ∧ (fed 8 5 (fun t => window 8 (fed 8 3 words8 t)) 0).Fits 8
      ∧ (fed 8 5 (fun t => window 8 (fed 8 3 words8 t)) 0).rot = (8 - 3) % 8
      ∧ (∀ t, fed 8 3 words8 (t + 1) = transcode 8 0 (words8 t) false false (fed 8 3 words8 t))
      ∧ ∀ t, fed 8 5 (fun t => window 8 (fed 8 3 words8 t)) (t + 1)
          = transcode 8 0 (window 8 (fed 8 3 words8 t)) false false
              (fed 8 5 (fun t => window 8 (fed 8 3 words8 t)) t) :=
  ⟨by decide, fun t => by simp [words8], by decide, rfl, by decide, rfl, fun _ => rfl, fun _ => rfl⟩
/-- Rotation 0, where the delay is four steps. -/
theorem witness_InverseRotationsRecoverTheStream_zero :
    0 < 8 ∧ (fed 8 0 words8 0).Fits 8 ∧ (fed 8 0 words8 0).rot = 0
      ∧ (fed 8 0 (fun t => window 8 (fed 8 0 words8 t)) 0).Fits 8
      ∧ (fed 8 0 (fun t => window 8 (fed 8 0 words8 t)) 0).rot = (8 - 0) % 8 := by decide

/-! #### Strobe framing -/

/-- The small block with the three signals that choose the strobe word, and `FRAME_SWAP`, at given values. -/
def strobe (level pre post swap : Bool) : State :=
  { built smallCfg with
    cfg := { smallCfg with frameSwap := swap }
    inp := withCtl (fun c => { c with wlevelEn := level }) smallQuiet
    wires := { (built smallCfg).wires with preamble := pre, postamble := post } }

/-- Every clause on the strobe word, both pulses together among them, is met by some state. -/
theorem witness_StrobeWordFollowsModeAndPulses : ∀ level pre post swap : Bool,
    (strobe level pre post swap).inp.ctl.wlevelEn = level ∧ (strobe level pre post swap).wires.preamble = pre
      ∧ (strobe level pre post swap).wires.postamble = post ∧ (strobe level pre post swap).cfg.frameSwap = swap :=
  fun _ _ _ _ => ⟨rfl, rfl, rfl, rfl⟩
theorem burst_enable (t0 L t : Nat) : (burst t0 L t).phases.any Phase.wrEn = decide (t0 ≤ t ∧ t < t0 + L) := by
  have h : ∀ b, (withPhase 1 (fun p => { p with wrEn := b }) smallQuiet).phases.any Phase.wrEn = b := by decide
  exact h _
theorem witness_BurstIsFramedByOneStepEachSide :
    IsRun (burst 1 2) (runOn smallCfg (burst 1 2)) ∧ (runOn smallCfg (burst 1 2) 0).Inv ∧ 0 < 2
      ∧ (runOn smallCfg (burst 1 2) 0).regs.wrLine
          = List.replicate ((runOn smallCfg (burst 1 2) 0).settings.wrtap + 2) false
      ∧ (∀ t, (burst 1 2 t).phases.any Phase.wrEn = decide (1 ≤ t ∧ t < 1 + 2))
      ∧ ∀ t, (burst 1 2 t).ctl.wlevelEn = false :=
  ⟨burst_run 1 2, small_inv, by decide, rfl, burst_enable 1 2, fun _ => rfl⟩
/-- A preamble and a postamble do occur. -/
theorem witness_BurstIsFramedByOneStepEachSide_pulses :
    (runOn shortCfg (burst 0 1) 1).wires.preamble = true ∧ (runOn shortCfg (burst 0 1) 3).wires.postamble = true := by
  decide
theorem witness_BurstsOneIdleStepApartShareAStep :
    IsRun (twoBursts 1) (runOn smallCfg (twoBursts 1)) ∧ (runOn smallCfg (twoBursts 1) 0).Inv
      ∧ (twoBursts 1 1).phases.any Phase.wrEn = true ∧ (twoBursts 1 (1 + 1)).phases.any Phase.wrEn = false
      ∧ (twoBursts 1 (1 + 2)).phases.any Phase.wrEn = true :=
  ⟨isRun_runFrom _ _ (twoBursts_shaped 1), small_inv, by decide, by decide, by decide⟩

/-! #### Rate-halving wrapper -/

/-- The first and the last lane of each direction. -/
theorem witness_WrapperStagesOnEveryLane :
    let s := built wrapCfg
    s.cfg.wrapped = true ∧ s.Inv ∧ (∃ q, s.wrap.serq.wordLanes[0]? = some q) ∧ (∃ q, s.wrap.serq.wordLanes[20]? = some q)
      ∧ (∃ w, s.out.pad.wordLanes[20]? = some w) ∧ (∃ q, s.wrap.serq.enables[2]? = some q)
      ∧ (∃ q, (padInLanes s.wrap.desq)[9]? = some q) ∧ ∃ w, (padInLanes s.inp.pad)[9]? = some w :=
  ⟨rfl, wrapped_inv, ⟨_, rfl⟩, ⟨_, rfl⟩, ⟨_, rfl⟩, ⟨_, rfl⟩, ⟨_, rfl⟩, ⟨_, rfl⟩⟩
theorem witness_WrapperStagesOnEveryLane_absent : (built smallCfg).cfg.wrapped = false := rfl
theorem witness_WrapperDelaysOutputsByRhSer :
    wrapCfg.wrapped = true ∧ exec (.phyConstruct wrapCfg) State.reset = .next (runOn wrapCfg traffic 0)
      ∧ IsRun traffic (runOn wrapCfg traffic) ∧ 20 < (runOn wrapCfg traffic 0).out.pad.wordLanes.length
      ∧ 0 < wrapCfg.rhSer :=
  ⟨rfl, construct_wrapped, wrapped_run, by decide, by decide⟩
theorem witness_WrapperDelaysInputsByRhDes :
    wrapCfg.wrapped = true ∧ exec (.phyConstruct wrapCfg) State.reset = .next (runOn wrapCfg traffic 0)
      ∧ IsRun traffic (runOn wrapCfg traffic) ∧ 9 < (padInLanes (runOn wrapCfg traffic 0).inp.pad).length
      ∧ 1 < wrapCfg.rhDes :=
  ⟨rfl, construct_wrapped, wrapped_run, by decide, by decide⟩

/-! #### Control surface -/

theorem witness_ResetFlagClearsTheTranscodersOnly :
    (built smallCfg).Inv ∧ (Instr.ctlRst (withCtl (fun c => { c with rst := true }) (traffic 1))).wellFormed
      (built smallCfg).cfg.R (built smallCfg).cfg.N = true :=
  ⟨small_inv, by decide⟩
/-- All four pulses in one step, with byte lane 0 selected and with none. -/
theorem witness_BitslipPulsesActOnSelectedLanes :
    let inp := fun (sel : Bool) => withCtl (fun c => { c with
      dlySel := [sel], rdBsRst := true, rdBsInc := true, wrBsRst := true, wrBsInc := true }) (traffic 1)
    (built smallCfg).Inv ∧ (∀ sel, (inp sel).shaped (built smallCfg).cfg.R (built smallCfg).cfg.N = true)
      ∧ (∀ sel, (inp sel).ctl.rdBsRst = true ∧ (inp sel).ctl.rdBsInc = true ∧ (inp sel).ctl.wrBsRst = true
        ∧ (inp sel).ctl.wrBsInc = true ∧ (inp sel).ctl.rst = false ∧ bitAt (inp sel).ctl.dlySel 0 = sel) :=
  ⟨small_inv, by decide, fun _ => ⟨rfl, rfl, rfl, rfl, rfl, rfl⟩⟩
/-- With the strobe and without it, in a block without the wrapper and in one with it. -/
theorem witness_WriteLevellingChangesTwoThings :
    let inp := fun (strobe : Bool) =>
      withCtl (fun c => { c with wlevelEn := true, wlevelStrobe := strobe }) (traffic 1)
    (built smallCfg).Inv ∧ (built smallCfg).cfg.wrapped = false ∧ (built wrapCfg).Inv
      ∧ (built wrapCfg).cfg.wrapped = true ∧ (∀ strobe, (inp strobe).shaped 4 8 = true)
      ∧ ∀ strobe, (inp strobe).ctl.wlevelEn = true ∧ (inp strobe).ctl.wlevelStrobe = strobe :=
  ⟨small_inv, rfl, wrapped_inv, rfl, by decide, fun _ => ⟨rfl, rfl⟩⟩
theorem witness_ControlInputsWithoutEffect :
    ∃ t, exec (.phyStep (traffic 0)) (built smallCfg) = .next t ∧ (traffic 0).ctl.wlevelEn = false
      ∧ (∀ y, bitAt (traffic 0).ctl.dlySel y = false) ∧ (traffic 0).ctl.rdBsRst = false
      ∧ (traffic 0).ctl.rdBsInc = false ∧ (traffic 0).ctl.wrBsRst = false ∧ (traffic 0).ctl.wrBsInc = false
      ∧ [true].length = (traffic 0).ctl.dlySel.length :=
  ⟨_, steps (traffic_shaped 0), rfl, fun y => bitAt_zeros 1 y, rfl, rfl, rfl, rfl, rfl⟩
theorem witness_InputsThatNoRuleReads :
    ∃ t, exec (.phyStep (traffic 0)) (built smallCfg) = .next t ∧ 3 < (built smallCfg).cfg.R
      ∧ (built smallCfg).cfg.wrapped = false
      ∧ { traffic 0 with pad := { (traffic 0).pad with dmiI := [bitsOf 8 0xFF], dqsI := [bitsOf 8 0x55] } }.shaped
          (built smallCfg).cfg.R (built smallCfg).cfg.N = true :=
  ⟨_, steps (traffic_shaped 0), by decide, rfl, by decide⟩

/-! #### The step as a whole and the invariant -/

theorem witness_StepIsTheCompositionOfItsRows :
    (traffic 1).shaped (built wrapCfg).cfg.R (built wrapCfg).cfg.N = true := traffic_shaped 1
theorem witness_OutputsDependOnStateAlone :
    ∃ t t', exec (.phyStep (burst 1 1 1)) (built smallCfg) = .next t
      ∧ exec (.phyStep (traffic 1)) (built smallCfg) = .next t'
      ∧ (burst 1 1 1).ctl.wlevelEn = (traffic 1).ctl.wlevelEn ∧ (built smallCfg).settings.wrtap ≠ 0 :=
  ⟨_, _, steps (burst_shaped 1 1 1), steps (traffic_shaped 1), rfl, by decide⟩
/-- With `wrtap = 0` and the same write enable. -/
theorem witness_OutputsDependOnStateAlone_short :
    ∃ t t', exec (.phyStep (burst 1 1 0)) (built shortCfg) = .next t
      ∧ exec (.phyStep (traffic 1)) (built shortCfg) = .next t' ∧ (built shortCfg).settings.wrtap = 0
      ∧ (burst 1 1 0).phases.any Phase.wrEn = (traffic 1).phases.any Phase.wrEn :=
  ⟨_, _, steps (burst_shaped 1 1 0), steps (traffic_shaped 1), rfl, by decide⟩
theorem witness_OnlyConstructionChangesTheConstants :
    (∀ c, Instr.phyStep (traffic 0) ≠ .phyConstruct c ∧ Instr.phyStep (traffic 0) ≠ .rhWrap c)
      ∧ (Instr.phyStep (traffic 0)).record ≠ none
      ∧ ∃ t, exec (.phyStep (traffic 0)) (built smallCfg) = .next t :=
  ⟨fun _ => ⟨nofun, nofun⟩, nofun, _, steps (traffic_shaped 0)⟩

/-- The small block with a mark in every kind of register that a run overwrites. -/
def marked : State :=
  { built smallCfg with regs := { (built smallCfg).regs with
    rdLine := List.replicate 7 true, wrLine := List.replicate 4 true, ckeReg := bitsOf 4 0xF
    rdDq := List.replicate 8 ⟨List.replicate 16 true, 5⟩, wrDqs := [⟨List.replicate 16 true, 1⟩] } }

theorem marked_inv : marked.Inv :=
  ⟨small_inv.configured, by decide, small_inv.inp, small_inv.out, small_inv.strobeWord, small_inv.padIn, small_inv.wrap⟩
/-- Raw history, without the wrapper, at the step at which each count is over. -/
theorem witness_InitialValuesAreForgotten :
    let a := runFrom traffic marked
    IsRun traffic a ∧ IsRun traffic (runOn smallCfg traffic) ∧ (a 0).Inv ∧ (runOn smallCfg traffic 0).Inv
      ∧ (a 0).cfg = (runOn smallCfg traffic 0).cfg ∧ (a 0).cfg.wrapped = false ∧ (a 0).cfg.arbHistory = .raw
      ∧ (a 0).settings.readLatency ≤ 7 ∧ (a 0).settings.wrtap + 2 ≤ 4 ∧ (a 0).settings.wrtap + 4 ≤ 6 :=
  ⟨isRun_runFrom _ _ traffic_shaped, traffic_run, marked_inv, small_inv, rfl, rfl, rfl, by decide, by decide, by decide⟩
/-- Two steps whose strobe words agree though the states did not: the idle words of write-levelling. -/
theorem witness_InitialValuesAreForgotten_words :
    let level := withCtl (fun c => { c with wlevelEn := true }) smallQuiet
    let a := runFrom (fun _ => level) marked
    let b := runFrom (fun _ => level) (built smallCfg)
    (a (0 + 1)).wires.strobeWord = (b (0 + 1)).wires.strobeWord
      ∧ (a (0 + 2)).wires.strobeWord = (b (0 + 2)).wires.strobeWord := by decide

/-- The filtered block with history bits set. -/
def markedPlain : State :=
  { built plainCfg with regs := { (built plainCfg).regs with
    arb := { (built plainCfg).regs.arb with vh0 := true, vh2 := true } } }

theorem markedPlain_inv : markedPlain.Inv :=
  ⟨plain_inv.configured, by decide, plain_inv.inp, plain_inv.out, plain_inv.strobeWord, plain_inv.padIn, plain_inv.wrap⟩
/-- Filtered history, three slots without a command, and the first step that starts after them. -/
theorem witness_InitialValuesAreForgotten_filtered :
    let a := runFrom (burst 1 2) markedPlain
    IsRun (burst 1 2) a ∧ IsRun (burst 1 2) (runOn plainCfg (burst 1 2)) ∧ (a 0).Inv
      ∧ (runOn plainCfg (burst 1 2) 0).Inv ∧ (a 0).cfg = (runOn plainCfg (burst 1 2) 0).cfg
      ∧ (a 0).cfg.arbHistory = .filtered ∧ (∀ d < 3, slotValid (a 0).cfg.R (burst 1 2) (1 + d) = false)
      ∧ 1 + 3 ≤ (a 0).cfg.R * 1 :=
  ⟨isRun_runFrom _ _ (burst_shaped 1 2), isRun_runFrom _ _ (burst_shaped 1 2), markedPlain_inv, plain_inv, rfl, rfl,
    by decide, by decide⟩

/-- The wrapped block with a mark in its read buffers and input queues. -/
def markedWrapped : State :=
  { built wrapCfg with
    regs := { (built wrapCfg).regs with rdDq := List.replicate 8 ⟨List.replicate 16 true, 5⟩ }
    wrap := { (built wrapCfg).wrap with desq := { (built wrapCfg).wrap.desq with
      dqI := List.replicate 8 (List.replicate 2 (List.replicate 4 true)) } } }

theorem markedWrapped_inv : markedWrapped.Inv :=
  ⟨wrapped_inv.configured, by decide, wrapped_inv.inp, wrapped_inv.out, wrapped_inv.strobeWord, wrapped_inv.padIn,
    by decide⟩
theorem witness_InitialValuesAreForgotten_wrapped :
    let a := runFrom traffic markedWrapped
    IsRun traffic a ∧ IsRun traffic (runOn wrapCfg traffic) ∧ (a 0).Inv ∧ (runOn wrapCfg traffic 0).Inv
      ∧ (a 0).cfg = (runOn wrapCfg traffic 0).cfg ∧ (a 0).cfg.wrapped = true
      ∧ (a 0).cfg.rhDes ≤ 2 * 1 ∧ (a 0).cfg.rhDes + 4 ≤ 2 * 3 :=
  ⟨isRun_runFrom _ _ traffic_shaped, wrapped_run, markedWrapped_inv, wrapped_inv, rfl, rfl, by decide, by decide⟩

/-- A block with `readLatency = 4` and `wrtap = 2`, for which R42's joint bound is 4. -/
def quickCfg : Cfg := { smallCfg with table := [⟨⟨1, 1000000000⟩, 2, 6⟩] }

/-- Log entry 9: R203, R210 and R235 do not give R42's joint bound. Two states of one block that differ in the
write-enable line alone have different strobe buffers at step 4 of a quiet run, and the same from `wrtap + 4 = 6` on. -/
theorem test_strobe_buffers_outlast_the_bound :
    let line := [false, true, false, false]
    let s := { built quickCfg with regs := { (built quickCfg).regs with wrLine := line } }
    let a := runFrom (fun _ => smallQuiet) s
    let b := runOn quickCfg (fun _ => smallQuiet)
    max (max (b 0).settings.readLatency ((b 0).settings.wrtap + 2)) 3 = 4
      ∧ (a 4).regs.wrDqs.map Transcoder.buf ≠ (b 4).regs.wrDqs.map Transcoder.buf
      ∧ (a 6).regs.wrDqs.map Transcoder.buf = (b 6).regs.wrDqs.map Transcoder.buf := by
  decide +kernel

theorem witness_EveryOperationKeepsTheInvariant :
    marked.Inv ∧ (∃ t, exec (.phyStep (traffic 0)) marked = .next t) ∧ ∃ t, exec (.phyConstruct wrapCfg) marked = .next t :=
  ⟨marked_inv, ⟨_, steps (traffic_shaped 0)⟩, ⟨_, rfl⟩⟩
theorem witness_EveryStepKeepsTheInvariant : marked.Inv ∧ ∃ t, step (marked.withFetchWord 16 1) = .next t :=
  ⟨marked_inv, _, rfl⟩

end Sys2Proof.Machine.Slice0
end

section
/-! Latency Algebra (R110 to R113): what `LAT.ADD` returns, its carry and its neutral operand. -/

namespace Sys2Proof.Machine

/-! ### The sum of two latencies -/

@[simp] theorem canonical_iff {R : Nat} {l : Latency} : l.canonical R = true ↔ l.fastTicks < R := by
  simp [Latency.canonical]

theorem latAdd_comm (a b : Latency) (R : Nat) : latAdd a b R = latAdd b a R := by
  simp only [latAdd, Nat.add_comm]

/-- A canonical latency has no excess of fast ticks to carry (R110). -/
theorem latAdd_zero_right {a : Latency} {R : Nat} (ha : a.fastTicks < R) : latAdd a ⟨0, 0⟩ R = a := by
  simp only [latAdd, Nat.add_zero, Nat.div_eq_of_lt ha, Nat.mod_eq_of_lt ha]

theorem latAdd_zero_left {b : Latency} {R : Nat} (hb : b.fastTicks < R) : latAdd ⟨0, 0⟩ b R = b := by
  rw [latAdd_comm, latAdd_zero_right hb]

/-- The fast ticks of two canonical latencies stay below two slow cycles. -/
theorem latAdd_carry_le_one {a b : Latency} {R : Nat} (ha : a.fastTicks < R) (hb : b.fastTicks < R) :
    (a.fastTicks + b.fastTicks) / R ≤ 1 := by
  have two_cycles : a.fastTicks + b.fastTicks < R * 2 := by omega
  exact Nat.le_of_lt_succ (Nat.div_lt_of_lt_mul two_cycles)

/-! ### The operation -/

/-- The range check of `LAT.ADD` passes on canonical operands, and only the returned value changes (R112). -/
theorem exec_latAdd_of_canonical {a b : Latency} {R : Nat} (s : State) (ha : a.fastTicks < R)
    (hb : b.fastTicks < R) : exec (.latAdd a b R) s = .next { s with ret := .latency (latAdd a b R) } := by
  have typed : (decide (0 < R) && a.canonical R && b.canonical R) = true := by
    simp [ha, hb, Nat.zero_lt_of_lt ha]
  change execLatAdd a b R s = _
  rw [execLatAdd, typed, whenTyped_true, returning]

/-- A construction-time function carries no record, so no number encodes it (R94). -/
theorem encode_latAdd (a b : Latency) (R R' N' : Nat) : encode R' N' (.latAdd a b R) = none := rfl

/-- Settles O2: the operation returns `latAdd`, whose carry is at most 1 and whose neutral operand is `(0, 0)`. -/
theorem latAddSumsThenNormalizes : Obligations.LatAddSumsThenNormalizes := by
  intro a b R s hR ha hb
  refine ⟨exec_latAdd_of_canonical s ha hb, encode_latAdd a b R, latAdd_carry_le_one ha hb, ?_, ?_⟩
  · rw [exec_latAdd_of_canonical s ha hR, latAdd_zero_right ha]
  · rw [exec_latAdd_of_canonical s hR hb, latAdd_zero_left hb]

end Sys2Proof.Machine
end

section
/-! Timing Resolver (R121): the order of the table's thresholds, and the entry that `TR.LOOKUP` selects. -/

namespace Sys2Proof.Machine

/-! ### The order of fractions -/

theorem reaches_iff {tCK T : Ratio} : reaches tCK T = true ↔ T.num * tCK.den ≤ tCK.num * T.den := by
  simp [reaches]

theorem reaches_eq_false_iff {tCK T : Ratio} :
    reaches tCK T = false ↔ tCK.num * T.den < T.num * tCK.den := by
  simp [reaches]

/-- The comparison is inclusive: a period that equals the threshold reaches it (R121). -/
theorem reaches_self (T : Ratio) : reaches T T = true := reaches_iff.2 le_rfl

/-- "Strictly below" is transitive, denominators of 0 included: `b` lies between two others, so neither of its parts is
0, and its denominator cancels from the product of the two comparisons. -/
theorem reaches_eq_false_trans {a b c : Ratio} (hab : reaches a b = false) (hbc : reaches b c = false) :
    reaches a c = false := by
  rw [reaches_eq_false_iff] at hab hbc ⊢
  have a_den_pos : 0 < a.den := Nat.pos_of_mul_pos_left (Nat.zero_lt_of_lt hab)
  refine lt_of_mul_lt_mul_right (a := b.den) ?_ (Nat.zero_le _)
  calc a.num * c.den * b.den = a.num * b.den * c.den := Nat.mul_right_comm ..
    _ ≤ b.num * a.den * c.den := Nat.mul_le_mul_right _ hab.le
    _ = b.num * c.den * a.den := Nat.mul_right_comm ..
    _ < c.num * b.den * a.den := Nat.mul_lt_mul_of_pos_right hbc a_den_pos
    _ = c.num * a.den * b.den := Nat.mul_right_comm ..

/-! ### The order of the table -/

/-- The threshold of `e` exceeds that of `f`: a period that equals the latter does not reach the former. -/
def ThresholdExceeds (e f : TimingEntry) : Prop := reaches f.threshold e.threshold = false

theorem thresholdExceeds_iff {e f : TimingEntry} :
    ThresholdExceeds e f ↔ f.threshold.num * e.threshold.den < e.threshold.num * f.threshold.den :=
  reaches_eq_false_iff

theorem thresholdExceeds_isTrans : IsTrans TimingEntry ThresholdExceeds :=
  ⟨fun _ _ _ hef hfg => reaches_eq_false_trans hfg hef⟩

/-- What the check of a table says: positive thresholds, each one below the one before it (R121). -/
theorem thresholdsDecrease_iff (tbl : List TimingEntry) :
    thresholdsDecrease tbl = true
      ↔ (∀ e ∈ tbl, e.threshold.positive = true) ∧ tbl.IsChain ThresholdExceeds := by
  induction tbl using thresholdsDecrease.induct with
  | case1 => simp [thresholdsDecrease]
  | case2 e => simp [thresholdsDecrease]
  | case3 e f rest ih =>
    rw [thresholdsDecrease, Bool.and_eq_true, Bool.and_eq_true, ih, decide_eq_true_iff, ← thresholdExceeds_iff,
      List.isChain_cons_cons, List.forall_mem_cons (l := f :: rest)]
    tauto

/-- Every threshold of the table lies below all those before it, not only below its neighbour. -/
theorem thresholdExceeds_of_lt {tbl : List TimingEntry} (htbl : thresholdsDecrease tbl = true) {i j : Nat}
    {e e' : TimingEntry} (hji : j < i) (he : tbl[i]? = some e) (he' : tbl[j]? = some e') :
    ThresholdExceeds e' e := by
  obtain ⟨-, chain⟩ := (thresholdsDecrease_iff tbl).1 htbl
  have := thresholdExceeds_isTrans
  obtain ⟨hi, rfl⟩ := List.getElem?_eq_some_iff.1 he
  obtain ⟨hj, rfl⟩ := List.getElem?_eq_some_iff.1 he'
  exact List.pairwise_iff_getElem.1 chain.pairwise j i hj hi hji

/-! ### The operation -/

/-- On typed operands the operation answers with the lookup's pair, or with the fault where there is none. -/
theorem exec_trLookup {tCK : Ratio} {tbl : List TimingEntry} (s : State) (hpos : tCK.positive = true)
    (htbl : thresholdsDecrease tbl = true) :
    exec (.trLookup tCK tbl) s = match lookup tCK tbl with
      | some (cl, cwl) => .next { s with ret := .casPair cl cwl }
      | none => .fault .unsupportedTiming := by
  change execTrLookup tCK tbl s = _
  rw [execTrLookup, hpos, htbl, Bool.and_true, whenTyped_true]
  rfl

/-- The operation returns the pair of the first entry that the period reaches (R121). -/
theorem exec_trLookup_of_first_reached {tCK : Ratio} {tbl : List TimingEntry} (s : State)
    (hpos : tCK.positive = true) (htbl : thresholdsDecrease tbl = true) {i : Nat} {e : TimingEntry}
    (he : tbl[i]? = some e) (reached : reaches tCK e.threshold = true)
    (first : ∀ j < i, ∀ e' : TimingEntry, tbl[j]? = some e' → reaches tCK e'.threshold = false) :
    exec (.trLookup tCK tbl) s = .next { s with ret := .casPair e.cl e.cwl } := by
  have found : lookup tCK tbl = some (e.cl, e.cwl) :=
    (lookup_eq_some tCK tbl e.cl e.cwl).2 ⟨i, e, he, reached, first, rfl, rfl⟩
  rw [exec_trLookup s hpos htbl, found]

/-- The operation ends in the fault where the period reaches no entry (R121). -/
theorem exec_trLookup_of_none_reached {tCK : Ratio} {tbl : List TimingEntry} (s : State)
    (hpos : tCK.positive = true) (htbl : thresholdsDecrease tbl = true)
    (unreached : ∀ e ∈ tbl, reaches tCK e.threshold = false) :
    exec (.trLookup tCK tbl) s = .fault .unsupportedTiming := by
  rw [exec_trLookup s hpos htbl, (lookup_eq_none tCK tbl).2 unreached]

/-- A period that equals an entry's threshold selects that entry: it reaches it, and lies below every earlier one. -/
theorem exec_trLookup_of_exact_threshold {tbl : List TimingEntry} (s : State)
    (htbl : thresholdsDecrease tbl = true) {e : TimingEntry} (he : e ∈ tbl) :
    exec (.trLookup e.threshold tbl) s = .next { s with ret := .casPair e.cl e.cwl } := by
  obtain ⟨positive, -⟩ := (thresholdsDecrease_iff tbl).1 htbl
  obtain ⟨i, hi⟩ := List.mem_iff_getElem?.1 he
  exact exec_trLookup_of_first_reached s (positive e he) htbl hi (reaches_self e.threshold)
    (fun _ hj _ he' => thresholdExceeds_of_lt htbl hj hi he')

/-- A construction-time function carries no record, so no number encodes it (R94). -/
theorem encode_trLookup (tCK : Ratio) (tbl : List TimingEntry) (R N : Nat) :
    encode R N (.trLookup tCK tbl) = none := rfl

/-- Settles O5: the lookup finds the least index reached, and the thresholds' order makes an exact one the first. -/
theorem lookupSelectsTheFirstReachedEntry : Obligations.LookupSelectsTheFirstReachedEntry := by
  intro tCK tbl s hpos htbl
  refine ⟨?_, ?_, fun e he => exec_trLookup_of_exact_threshold s htbl he, encode_trLookup tCK tbl⟩
  · intro i e he reached first
    exact exec_trLookup_of_first_reached s hpos htbl he (reaches_iff.2 reached)
      (fun j hj e' he' => reaches_eq_false_iff.2 (first j hj e' he'))
  · intro unreached
    exact exec_trLookup_of_none_reached s hpos htbl (fun e he => reaches_eq_false_iff.2 (unreached e he))

end Sys2Proof.Machine
end

section
/-! Tapped delay lines (R150 to R152): what `TDL.STEP` and `TDL.READ` do on either line. -/

namespace Sys2Proof.Machine

/-! ### The shift -/

/-- Tap 0 takes the driving value (R151); a line without taps has none to take it. -/
theorem bitAt_tdlShift_zero {taps : List Bool} (x : Bool) (h : 0 < taps.length) :
    bitAt (tdlShift taps x) 0 = x := by
  simp [bitAt_tdlShift, h]

/-- Every other tap takes its newer neighbour's value (R151). -/
theorem bitAt_tdlShift_succ {taps : List Bool} (x : Bool) {k : Nat} (h : k + 1 < taps.length) :
    bitAt (tdlShift taps x) (k + 1) = bitAt taps k := by
  simp [bitAt_tdlShift, h]

/-! ### The operations -/

theorem exec_tdlStep (line : Line) (x : Bool) (s : State) :
    exec (.tdlStep line x) s = .next (setLine s line (tdlShift (lineTaps s line) x)) := rfl

theorem exec_tdlRead (line : Line) (x : Bool) (s : State) :
    exec (.tdlRead line x) s = .next { s with ret := .taps x (lineTaps s line) (tdlOutput (lineTaps s line)) } := rfl

/-- R151 on either line: the step replaces that line alone, by a line of the same length, one position on. -/
theorem exec_tdlStep_shifts (line : Line) (x : Bool) (s : State) :
    ∃ taps, exec (.tdlStep line x) s = .next (setLine s line taps)
      ∧ taps.length = (lineTaps s line).length ∧ (0 < taps.length → bitAt taps 0 = x)
      ∧ ∀ k, k + 1 < taps.length → bitAt taps (k + 1) = bitAt (lineTaps s line) k := by
  have kept : (tdlShift (lineTaps s line) x).length = (lineTaps s line).length := length_tdlShift _ x
  refine ⟨_, exec_tdlStep line x s, kept, fun h => ?_, fun k h => ?_⟩
  · exact bitAt_tdlShift_zero x (kept ▸ h)
  · exact bitAt_tdlShift_succ x (kept ▸ h)

/-- Settles O21: the step's law on each of the two lines, and the read's equation, which names the oldest tap. -/
theorem delayLineShiftsAndReads : Obligations.DelayLineShiftsAndReads := by
  intro s x
  exact ⟨exec_tdlStep_shifts .rdLine x s, exec_tdlStep_shifts .wrLine x s,
    exec_tdlRead .rdLine x s, exec_tdlRead .wrLine x s⟩

end Sys2Proof.Machine
end

section
/-! The record of a step as a number (R95, R100): the decoder and the encoder are inverse to each other. -/

namespace Sys2Proof

open Machine (Words)

/-! ### The shapes of a record -/

theorem wordsShaped_iff {n W : Nat} {ws : List Bits} : wordsShaped n W ws = true ↔ Words n W ws := by
  simp [wordsShaped]

theorem padShaped_iff {R N : Nat} {p : PadInLanes Bits} : padShaped R N p = true
    ↔ Words N (2 * R) p.dqI ∧ Words (N / 8) (2 * R) p.dmiI ∧ Words (N / 8) (2 * R) p.dqsI := by
  rw [padShaped, Bool.and_eq_true, Bool.and_eq_true, wordsShaped_iff, wordsShaped_iff, wordsShaped_iff, and_assoc]

theorem shaped_iff {R N : Nat} {inp : In} : inp.shaped R N = true
    ↔ inp.phases.length = R ∧ inp.phases.all (Phase.shaped N) = true ∧ inp.ctl.shaped R N = true
      ∧ padShaped R N inp.pad = true := by
  simp only [In.shaped, Bool.and_eq_true, decide_eq_true_eq, and_assoc]

/-! ### The two round trips of a record -/

theorem unpackWords_packWords_of_words {n W : Nat} {vs : List Bits} (h : Words n W vs) (rest : Nat) :
    unpackWords W n (packWords vs rest) = (vs, rest) := by
  obtain ⟨rfl, hw⟩ := h
  exact unpackWords_packWords W vs rest hw

/-- The decoder, with the parts it reads named by their position (R95, R100). -/
theorem decodeIn_eq (R N w : Nat) :
    decodeIn R N w =
      let above := w / 2 ^ cwBits R N
      let phases := unpackPhases N R (above / 2 ^ cwPad R N)
      let dqI := unpackWords (2 * R) N phases.2
      let dmiI := unpackWords (2 * R) (N / 8) dqI.2
      let dqsI := unpackWords (2 * R) (N / 8) dmiI.2
      if dqsI.2 ≠ 0 then .error .beyondRecord
      else if above % 2 ^ cwPad R N ≠ 0 then .error .reservedBits
      else .ok { phases := phases.1, ctl := Ctl.ofWord R N w, pad := ⟨dqI.1, dmiI.1, dqsI.1⟩ } := rfl

/-- Reading the number of a record gives the record, field by field. -/
theorem decodeIn_encodeIn {R N : Nat} {inp : In} (hR : ratioTyped R = true) (h : inp.shaped R N = true) :
    decodeIn R N (encodeIn R N inp) = .ok inp := by
  obtain ⟨hlen, hphases, hctl, hpad⟩ := shaped_iff.1 h
  obtain ⟨hdq, hdm, hdqs⟩ := padShaped_iff.1 hpad
  have hsel : inp.ctl.dlySel.length = N / 8 := by
    simp only [Ctl.shaped, Bool.and_eq_true, decide_eq_true_eq] at hctl; exact hctl.2
  have hread : ∀ rest, unpackPhases N R (packPhases inp.phases rest) = (inp.phases, rest) := fun rest => by
    rw [← hlen]; exact unpackPhases_packPhases N inp.phases rest hphases
  simp only [decodeIn_eq, encodeIn, pack_div R N inp.ctl _ hsel, ofWord_pack R N inp.ctl _ hR hctl, putNat_div,
    putNat_mod, hread, unpackWords_packWords_of_words hdq, unpackWords_packWords_of_words hdm,
    unpackWords_packWords_of_words hdqs, Nat.zero_mod, ne_eq, not_true_eq_false, if_false]

/-- A number that decodes is the number of the record it decodes to: nothing lies in the fill bits or beyond. -/
theorem encodeIn_of_decodeIn {R N w : Nat} {inp : In} (hR : ratioTyped R = true) (h : decodeIn R N w = .ok inp) :
    inp.shaped R N = true ∧ encodeIn R N inp = w := by
  rw [decodeIn_eq] at h
  dsimp only at h
  split_ifs at h with hbeyond hfill
  obtain rfl := Except.ok.inj h
  generalize hx : w / 2 ^ cwBits R N = above at *
  obtain ⟨eph, lph, sph⟩ := packPhases_unpackPhases N R (above / 2 ^ cwPad R N)
  generalize unpackPhases N R (above / 2 ^ cwPad R N) = ph at *
  obtain ⟨edq, sdq⟩ := packWords_unpackWords (2 * R) N ph.2
  generalize unpackWords (2 * R) N ph.2 = dq at *
  obtain ⟨edm, sdm⟩ := packWords_unpackWords (2 * R) (N / 8) dq.2
  generalize unpackWords (2 * R) (N / 8) dq.2 = dm at *
  obtain ⟨edqs, sdqs⟩ := packWords_unpackWords (2 * R) (N / 8) dm.2
  generalize unpackWords (2 * R) (N / 8) dm.2 = dqs at *
  have hend : dqs.2 = 0 := not_not.1 hbeyond
  have hzero : above % 2 ^ cwPad R N = 0 := not_not.1 hfill
  rw [hend] at edqs
  constructor
  · exact shaped_iff.2 ⟨lph, sph, ofWord_shaped R N w hR,
      padShaped_iff.2 ⟨wordsShaped_iff.1 sdq, wordsShaped_iff.1 sdm, wordsShaped_iff.1 sdqs⟩⟩
  · have habove : putNat (cwPad R N) 0 (above / 2 ^ cwPad R N) = above := by
      rw [← hzero]; exact putNat_getNat _ _
    rw [encodeIn, edqs, edm, edq, eph, habove, ← hx, pack_ofWord]

/-! ### The two round trips of an operation -/

/-- Settles O15: the operation's record is read back whole, and names the operation. -/
theorem decodeOfEncode : Obligations.DecodeOfEncode := by
  intro R N w i hR hi hw
  obtain ⟨inp, hrec, rfl⟩ := Option.map_eq_some_iff.1 hw
  obtain ⟨hname, hshape⟩ := ofIn_record hi hrec
  rw [decode, decodeIn_encodeIn hR hshape, ← hname]

/-- Settles O16: what a number decodes to is named by a record of the block's shape, whose number it is. -/
theorem encodeOfDecode : Obligations.EncodeOfDecode := by
  intro R N w i hR hd
  unfold decode at hd
  cases hin : decodeIn R N w with
  | error e => rw [hin] at hd; cases hd
  | ok inp =>
    rw [hin] at hd
    obtain rfl := Except.ok.inj hd
    obtain ⟨hshape, henc⟩ := encodeIn_of_decodeIn hR hin
    exact ⟨wellFormed_ofIn R N inp hshape, by rw [encode, record_ofIn, Option.map_some, henc]⟩

/-- Settles O17: each quoted word read bit by bit. -/
theorem controlWordsOfTheBaseDesign : Obligations.ControlWordsOfTheBaseDesign := by
  unfold Obligations.ControlWordsOfTheBaseDesign
  refine ⟨?_, ?_, ?_, ?_, ?_, ?_, ?_, ?_, ?_⟩ <;> decide

end Sys2Proof
end

section
/-! The invariant (R22 to R30, R85, R86, R253): every part that an operation makes has its size, a construction meets
the invariant, and every operation and every step keeps it. -/

namespace Sys2Proof.Machine

/-! ### The ratio of a typed configuration -/

/-- A ratio is even, so a lane word of `R` bits has two whole halves. -/
theorem ratioTyped_two_halves {R : Nat} (h : ratioTyped R = true) : 2 * (R / 2) = R := by
  have hpow := two_pow_phaseBits h
  have hge := ratioTyped_pos h
  obtain ⟨k, hk⟩ : ∃ k, phaseBits R = k + 1 := by
    cases hb : phaseBits R with
    | zero => rw [hb] at hpow; omega
    | succ k => exact ⟨k, rfl⟩
  rw [hk, Nat.pow_succ] at hpow
  omega

theorem wellTyped_two_halves {c : Cfg} (h : c.wellTyped = true) : 2 * (c.R / 2) = c.R := by
  simp only [Cfg.wellTyped, Bool.and_eq_true] at h
  exact ratioTyped_two_halves h.1.1.1.1.1.1

theorem cfg_W (c : Cfg) : c.W = 2 * c.R := rfl

/-! ### Words of the lanes -/

theorem words_replicate {n k : Nat} {w : Bits} (h : w.length = k) : Words n k (List.replicate n w) :=
  ⟨List.length_replicate, fun _ hv => (List.eq_of_mem_replicate hv) ▸ h⟩

theorem length_wordAt {n k b : Nat} {ws : List Bits} (h : Words n k ws) (hb : b < n) : (wordAt ws b).length = k := by
  have hlt : b < ws.length := h.1 ▸ hb
  rw [wordAt, List.getD_eq_getElem _ _ hlt]
  exact h.2 _ (List.getElem_mem hlt)

theorem maskWords_words {c : Cfg} {ts : List Transcoder} (h : Group (if c.maskedWrite then c.NB else 0) c.W ts) :
    Words c.NB c.W (maskWords c ts) := by
  unfold maskWords
  split_ifs with hm
  · rw [if_pos hm] at h; exact windows_words h
  · exact words_replicate (length_zeros _)

theorem rdData_words (R N : Nat) (ws : List Bits) : Words R (2 * N) ((List.range R).map (rdDataOf N ws)) := by
  refine ⟨by simp, fun w hw => ?_⟩
  obtain ⟨p, -, rfl⟩ := List.mem_map.1 hw
  exact length_rdDataOf N ws p

/-- The strobe word is one of the configuration's patterns (R235). -/
theorem length_strobeWordOf {c : Cfg} (hc : c.wellTyped = true) (ctl : Ctl) (pre post : Bool) :
    (strobeWordOf c ctl pre post).length = c.W := by
  obtain ⟨-, toggle, pre', post', idle, strobe⟩ := wellTyped_patterns hc
  simp only [strobeWordOf]
  split_ifs <;> assumption

/-! ### Groups of transcoders -/

theorem group_replicate {n W sReset : Nat} (h : sReset < W) :
    Group n W (List.replicate n (Transcoder.cleared W sReset)) :=
  ⟨List.length_replicate, fun _ ht => (List.eq_of_mem_replicate ht) ▸ ⟨length_zeros _, h⟩⟩

theorem group_set {n W k : Nat} {ts : List Transcoder} {i : Transcoder} (hg : Group n W ts) (hi : i.Fits W) :
    Group n W (ts.set k i) :=
  ⟨by simp [hg.1], fun t ht => (List.mem_or_eq_of_mem_set ht).elim (hg.2 t) (fun e => e ▸ hi)⟩

theorem wrDqNext_group {c : Cfg} {ts : List Transcoder} (inp : In) (hs : c.sReset < c.W) (hg : Group c.N c.W ts) :
    Group c.N c.W (wrDqNext c inp ts) := transcodeAll_group hg (fun _ _ => length_wrIn ..) hs

theorem wrDmNext_group {n : Nat} {c : Cfg} {ts : List Transcoder} (inp : In) (hs : c.sReset < c.W)
    (hg : Group n c.W ts) : Group n c.W (wrDmNext c inp ts) := transcodeAll_group hg (fun _ _ => length_dmIn ..) hs

theorem wrDqsNext_group {c : Cfg} {sw : Bits} {ts : List Transcoder} (inp : In) (hs : c.sReset < c.W)
    (hw : sw.length = c.W) (hg : Group c.NB c.W ts) : Group c.NB c.W (wrDqsNext c inp sw ts) :=
  transcodeAll_group hg (fun _ _ => hw) hs

theorem rdDqNext_group {c : Cfg} {pad : PadInLanes Bits} {ts : List Transcoder} (inp : In) (hs : c.sReset < c.W)
    (hp : padShaped c.R c.N pad = true) (hg : Group c.N c.W ts) : Group c.N c.W (rdDqNext c inp pad ts) :=
  transcodeAll_group hg (fun _ hk => length_wordAt (padShaped_iff.1 hp).1 hk) hs

/-! ### The wrapper's queues -/

/-- The two halves of a word of `2·h` bits. -/
theorem length_of_mem_halvesOf {h : Nat} {w v : Bits} (hw : w.length = 2 * h) (hv : v ∈ halvesOf w) : v.length = h := by
  rw [halvesOf_eq, List.mem_pair] at hv
  rcases hv with rfl | rfl <;> simp <;> omega

/-- Everything in a lane's stream, the queue and then the step's two halves, is a half-word. -/
theorem length_of_mem_stream {k h : Nat} {q : List Bits} {w v : Bits} (hq : Words k h q) (hw : w.length = 2 * h)
    (hv : v ∈ q ++ halvesOf w) : v.length = h :=
  (List.mem_append.1 hv).elim (hq.2 v) (length_of_mem_halvesOf hw)

theorem queueAfter_words {k h : Nat} {q : List Bits} {w : Bits} (hq : Words k h q) (hw : w.length = 2 * h) :
    Words k h (queueAfter q (halvesOf w)) :=
  ⟨by rw [halvesOf_eq, length_queueAfter]; exact hq.1,
    fun _ hv => length_of_mem_stream hq hw (List.mem_of_mem_drop hv)⟩

/-- The word that the input stage makes has the lane's width (R255). -/
theorem length_desWord {k h : Nat} {q : List Bits} {w : Bits} (hq : Words k h q) (hw : w.length = 2 * h) :
    (desWord q w).length = 2 * h := by
  have half : ∀ i < 2, ((q ++ halvesOf w).getD i []).length = h := fun i hi => by
    have hlt : i < (q ++ halvesOf w).length := by rw [halvesOf_eq]; simp; omega
    rw [List.getD_eq_getElem _ _ hlt]
    exact length_of_mem_stream hq hw (List.getElem_mem hlt)
  rw [desWord, List.length_append]
  show ((q ++ halvesOf w).getD 0 []).length + ((q ++ halvesOf w).getD 1 []).length = _
  rw [half 0 (by omega), half 1 (by omega)]; omega

/-- Lane by lane: what holds of each result for fitting arguments holds of all results. -/
theorem forall_mem_zipWith {α β γ : Type} {f : α → β → γ} {as : List α} {bs : List β} {P : γ → Prop}
    (h : ∀ a ∈ as, ∀ b ∈ bs, P (f a b)) : ∀ c ∈ List.zipWith f as bs, P c := by
  intro c hc
  obtain ⟨i, hi, rfl⟩ := List.mem_iff_getElem.1 hc
  rw [List.getElem_zipWith]
  exact h _ (List.getElem_mem _) _ (List.getElem_mem _)

theorem queuesAfter_queues {n k h : Nat} {qs : List (List Bits)} {ws : List Bits} (hq : Queues n k h qs)
    (hw : Words n (2 * h) ws) : Queues n k h (List.zipWith (fun q w => queueAfter q (halvesOf w)) qs ws) :=
  ⟨by simp [hq.1, hw.1], forall_mem_zipWith fun q hq' w hw' => queueAfter_words (hq.2 q hq') (hw.2 w hw')⟩

theorem desWords_words {n k h : Nat} {qs : List (List Bits)} {ws : List Bits} (hq : Queues n k h qs)
    (hw : Words n (2 * h) ws) : Words n (2 * h) (List.zipWith desWord qs ws) :=
  ⟨by simp [hq.1, hw.1], forall_mem_zipWith fun q hq' w hw' => length_desWord (hq.2 q hq') (hw.2 w hw')⟩

/-! ### What construction leaves -/

theorem idleIn_shaped {R N rd wr : Nat} (hrd : rd < R) (hwr : wr < R) : (idleIn R N rd wr).shaped R N = true := by
  refine shaped_iff.2 ⟨by simp [idleIn], ?_, by simp [Ctl.shaped, idleIn, hrd, hwr], ?_⟩
  · simp [idleIn, Phase.shaped, Phase.idle]
  · exact padShaped_iff.2 ⟨words_replicate (length_zeros _), words_replicate (length_zeros _),
      words_replicate (length_zeros _)⟩

theorem idleOut_fits (c : Cfg) : (idleOut c.R c.N).Fits c :=
  ⟨words_replicate (length_zeros _), by simp [idleOut], by simp [idleOut, idlePadOut, cfg_W],
    by simp [idleOut, idlePadOut], by simp [idleOut, idlePadOut], by simp [idleOut, idlePadOut],
    by simp [idleOut, idlePadOut], words_replicate (length_zeros _), words_replicate (length_zeros _),
    words_replicate (length_zeros _), words_replicate (length_zeros _)⟩

theorem initial_fits {c : Cfg} (hc : c.wellTyped = true) (st : Settings) : (Regs.initial c st).Fits c st := by
  have hs := wellTyped_sReset hc
  exact ⟨length_zeros _, length_zeros _, List.length_replicate, length_zeros _, length_zeros _, length_zeros _,
    group_replicate hs, group_replicate hs, group_replicate hs, group_replicate hs⟩

/-- The output queues at construction, lane by lane (R252, R253). -/
theorem zeroQueues_serq (c : Cfg) : (zeroQueues c).serq =
    { clk := List.replicate c.rhSer (zeros c.R), cke := List.replicate c.rhSer (zeros (c.R / 2))
      odt := List.replicate c.rhSer (zeros (c.R / 2)), resetN := List.replicate c.rhSer (zeros (c.R / 2))
      cs := List.replicate c.rhSer (zeros (c.R / 2))
      ca := List.replicate 6 (List.replicate c.rhSer (zeros (c.R / 2)))
      dqO := List.replicate c.N (List.replicate c.rhSer (zeros c.R)), dqOe := List.replicate c.rhSer false
      dmiO := List.replicate c.NB (List.replicate c.rhSer (zeros c.R)), dmiOe := List.replicate c.rhSer false
      dqsO := List.replicate c.NB (List.replicate c.rhSer (zeros c.R)), dqsOe := List.replicate c.rhSer false } := by
  simp only [zeroQueues, PadLanes.map, idlePadOut, length_zeros, List.map_replicate,
    Nat.mul_div_cancel_left _ Nat.two_pos, Cfg.NB]

/-- The input queues at construction (R253). -/
theorem zeroQueues_desq (c : Cfg) : (zeroQueues c).desq =
    { dqI := List.replicate c.N (List.replicate c.rhDes (zeros c.R))
      dmiI := List.replicate c.NB (List.replicate c.rhDes (zeros c.R))
      dqsI := List.replicate c.NB (List.replicate c.rhDes (zeros c.R)) } := by
  simp only [zeroQueues, padInMap, idlePad, List.map_replicate, Cfg.NB]

theorem queues_replicate {n k h : Nat} : Queues n k h (List.replicate n (List.replicate k (zeros h))) :=
  ⟨List.length_replicate, fun _ hq => (List.eq_of_mem_replicate hq) ▸ words_replicate (length_zeros h)⟩

theorem zeroQueues_fits (c : Cfg) : (zeroQueues c).Fits c := by
  have word : ∀ h, Words c.rhSer h (List.replicate c.rhSer (zeros h)) := fun h => words_replicate (length_zeros h)
  simp only [WrapQueues.Fits, zeroQueues_serq, zeroQueues_desq]
  exact ⟨word _, word _, word _, word _, word _, queues_replicate, queues_replicate, queues_replicate,
    queues_replicate, List.length_replicate, List.length_replicate, List.length_replicate, queues_replicate,
    queues_replicate, queues_replicate⟩

/-- Construction ends in a state that meets the invariant (R290, R40, R253). -/
theorem constructed_inv {c : Cfg} {st : Settings} (hN : c.N % 8 = 0) (hc : c.wellTyped = true)
    (hst : resolve (coreCfg c) = .ok st) (pending : List Stimulus) :
    (constructed c (coreCfg c) st pending).Inv := by
  have hR : 0 < (coreCfg c).R := by rw [coreCfg_R]; exact Nat.lt_of_lt_of_le (by decide) (wellTyped_ratio hc)
  obtain ⟨-, rd, -, wr, -⟩ := resolve_eq_ok _ st hR hst
  rw [coreCfg_R] at rd wr
  have e : constructed c (coreCfg c) st pending = { constructed c c st pending with
      regs := Regs.initial c st } := by
    simp only [constructed, initial_coreCfg, coreCfg_R, coreCfg_N]
  have answers : (resolve (coreCfg c)).toOption = some st := by rw [hst]; rfl
  rw [e]
  refine ⟨⟨hN, hc, answers⟩, initial_fits hc st, idleIn_shaped rd wr, idleOut_fits c, ?_, ?_, ?_⟩
  · exact length_zeros _
  · exact padShaped_iff.2 ⟨words_replicate (length_zeros _), words_replicate (length_zeros _),
      words_replicate (length_zeros _)⟩
  · intro (hw : c.wrapped = true)
    show (if c.wrapped then zeroQueues c else noQueues).Fits c
    rw [if_pos hw]; exact zeroQueues_fits c

/-- Settles O58: the reset state is the base design as construction leaves it. -/
theorem resetMeetsTheInvariant : Obligations.ResetMeetsTheInvariant :=
  constructed_inv (c := baseCfg) (st := baseSettings) (by decide) (by decide) (by decide) []

/-! ### The parts of the state that an operation replaces -/

namespace State.Inv

variable {s : State}

theorem typed (h : s.Inv) : s.cfg.wellTyped = true := h.configured.2.1

theorem sReset_lt (h : s.Inv) : s.cfg.sReset < s.cfg.W := wellTyped_sReset h.typed

theorem R_pos (h : s.Inv) : 0 < s.cfg.R := Nat.lt_of_lt_of_le (by decide) (wellTyped_ratio h.typed)

/-- The constants are settings that the resolver gives for the block that steps (R290). -/
theorem resolved (h : s.Inv) : resolve (coreCfg s.cfg) = .ok s.settings := by
  have hst := h.configured.2.2
  cases hr : resolve (coreCfg s.cfg) with
  | error f => rw [hr] at hst; cases hst
  | ok st => rw [hr] at hst; rw [Option.some.inj hst]

theorem withRegs (h : s.Inv) {r : Regs} (hr : r.Fits s.cfg s.settings) : { s with regs := r }.Inv :=
  ⟨h.configured, hr, h.inp, h.out, h.strobeWord, h.padIn, h.wrap⟩

theorem withOut (h : s.Inv) {o : Out} (ho : o.Fits s.cfg) : { s with out := o }.Inv :=
  ⟨h.configured, h.regs, h.inp, ho, h.strobeWord, h.padIn, h.wrap⟩

theorem withOutRegs (h : s.Inv) {o : Out} {r : Regs} (ho : o.Fits s.cfg) (hr : r.Fits s.cfg s.settings) :
    { s with out := o, regs := r }.Inv := (h.withOut ho).withRegs hr

theorem withInp (h : s.Inv) {inp : In} (hi : inp.shaped s.cfg.R s.cfg.N = true) : { s with inp := inp }.Inv :=
  ⟨h.configured, h.regs, hi, h.out, h.strobeWord, h.padIn, h.wrap⟩

theorem withWires (h : s.Inv) {w : Wires} (hs : w.strobeWord.length = s.cfg.W)
    (hp : padShaped s.cfg.R s.cfg.N w.padIn = true) : { s with wires := w }.Inv :=
  ⟨h.configured, h.regs, h.inp, h.out, hs, hp, h.wrap⟩

theorem withRet (h : s.Inv) (v : Ret) : { s with ret := v }.Inv :=
  ⟨h.configured, h.regs, h.inp, h.out, h.strobeWord, h.padIn, h.wrap⟩

theorem withPending (h : s.Inv) (p : List Stimulus) : { s with pending := p }.Inv :=
  ⟨h.configured, h.regs, h.inp, h.out, h.strobeWord, h.padIn, h.wrap⟩

/-- The pad inputs that the inner block reads have the widths of R85, with the wrapper and without it (R255). -/
theorem padInputs_shaped (h : s.Inv) : padShaped s.cfg.R s.cfg.N (padInputs s) = true := by
  unfold padInputs
  split_ifs
  · exact h.padIn
  · exact (shaped_iff.1 h.inp).2.2.2

/-! ### The step of R291 -/

theorem outOf_fits (h : s.Inv) : (outOf s).Fits s.cfg := by
  obtain ⟨-, -, outw, cke, odt, rstn, wrDq, wrDm, wrDqs, -⟩ := h.regs
  have hca : Words 6 s.cfg.R (caLanes s.regs.arb.outw) := outw ▸ caLanes_words s.regs.arb.outw
  exact ⟨rdData_words .., List.length_replicate, (wellTyped_patterns h.typed).1, cke, odt, rstn,
    (length_laneOf ..).trans outw, hca, windows_words wrDq, maskWords_words wrDm, windows_words wrDqs⟩

theorem regsNext_fits (h : s.Inv) : (regsNext s).Fits s.cfg s.settings := by
  obtain ⟨rdLine, wrLine, -, -, -, -, wrDq, wrDm, wrDqs, rdDq⟩ := h.regs
  have phases : s.inp.phases.length = s.cfg.R := (shaped_iff.1 h.inp).1
  exact ⟨(length_tdlShift ..).trans rdLine, (length_tdlShift ..).trans wrLine, length_arbiterNext_outw ..,
    (List.length_map ..).trans phases, (List.length_map ..).trans phases, (List.length_map ..).trans phases,
    wrDqNext_group _ h.sReset_lt wrDq, wrDmNext_group _ h.sReset_lt wrDm,
    wrDqsNext_group _ h.sReset_lt (length_strobeWordOf h.typed ..) wrDqs,
    rdDqNext_group _ h.sReset_lt h.padInputs_shaped rdDq⟩

theorem advance (h : s.Inv) : (advance s).Inv :=
  ((h.withOut h.outOf_fits).withWires (w := wiresOf s) (length_strobeWordOf h.typed ..) h.padIn).withRegs
    h.regsNext_fits

/-- The input stage keeps the sizes of its queues, and makes words of the lanes' widths (R255). -/
theorem deserialize (h : s.Inv) : (deserialize s).Inv := by
  unfold Machine.deserialize
  split_ifs with hw
  · obtain ⟨clk, cke, odt, rstn, cs, ca, dqO, dmiO, dqsO, dqOe, dmiOe, dqsOe, dqI, dmiI, dqsI⟩ := h.wrap hw
    obtain ⟨pdq, pdm, pdqs⟩ := padShaped_iff.1 (shaped_iff.1 h.inp).2.2.2
    exact ⟨h.configured, h.regs, h.inp, h.out, h.strobeWord,
      padShaped_iff.2 ⟨desWords_words dqI pdq, desWords_words dmiI pdm, desWords_words dqsI pdqs⟩,
      fun _ => ⟨clk, cke, odt, rstn, cs, ca, dqO, dmiO, dqsO, dqOe, dmiOe, dqsOe, queuesAfter_queues dqI pdq,
        queuesAfter_queues dmiI pdm, queuesAfter_queues dqsI pdqs⟩⟩
  · exact h

/-- The output stage keeps the sizes of its queues (R254). -/
theorem serialize (h : s.Inv) : (serialize s).Inv := by
  unfold Machine.serialize
  split_ifs with hw
  · obtain ⟨clk, cke, odt, rstn, cs, ca, dqO, dmiO, dqsO, dqOe, dmiOe, dqsOe, desq⟩ := h.wrap hw
    obtain ⟨-, -, oclk, ocke, oodt, orstn, ocs, oca, odq, odm, odqs⟩ := h.out
    have halves : 2 * (s.cfg.R / 2) = s.cfg.R := wellTyped_two_halves h.typed
    rw [← halves] at ocke oodt orstn ocs oca
    exact ⟨h.configured, h.regs, h.inp, h.out, h.strobeWord, h.padIn,
      fun _ => ⟨queueAfter_words clk oclk, queueAfter_words cke ocke, queueAfter_words odt oodt,
        queueAfter_words rstn orstn, queueAfter_words cs ocs, queuesAfter_queues ca oca, queuesAfter_queues dqO odq,
        queuesAfter_queues dmiO odm, queuesAfter_queues dqsO odqs, (length_queueAfter ..).trans dqOe,
        (length_queueAfter ..).trans dmiOe, (length_queueAfter ..).trans dqsOe, desq⟩⟩
  · exact h

/-- A step on a record keeps the invariant. -/
theorem takeStep (h : s.Inv) {inp : In} (hi : inp.shaped s.cfg.R s.cfg.N = true) : (takeStep inp s).Inv :=
  (h.withInp hi).deserialize.advance.serialize

theorem stepOn (h : s.Inv) {inp : In} {t : State} (ht : stepOn inp s = .next t) : t.Inv := by
  obtain ⟨hi, rfl⟩ := stepOn_next.1 ht
  exact h.takeStep hi

/-! ### One part of the registers or of the outputs -/

theorem setLine (h : s.Inv) {line : Line} {taps : List Bool} (hl : taps.length = (lineTaps s line).length) :
    (setLine s line taps).Inv := by
  obtain ⟨rdLine, wrLine, rest⟩ := h.regs
  cases line with
  | rdLine => exact h.withRegs ⟨hl.trans rdLine, wrLine, rest⟩
  | wrLine => exact h.withRegs ⟨rdLine, hl.trans wrLine, rest⟩

/-- An existing transcoder has its size (R29, R30). -/
theorem fits_of_instanceAt (h : s.Inv) {lane : Lane} {i : Transcoder} (hi : instanceAt s lane = some i) :
    i.Fits s.cfg.W := by
  obtain ⟨-, -, -, -, -, -, wrDq, wrDm, wrDqs, rdDq⟩ := h.regs
  cases lane with
  | wrDq b => exact wrDq.2 i (List.mem_of_getElem? hi)
  | wrDm y => exact wrDm.2 i (List.mem_of_getElem? hi)
  | wrDqs y => exact wrDqs.2 i (List.mem_of_getElem? hi)
  | rdDq b => exact rdDq.2 i (List.mem_of_getElem? hi)

theorem setInstance (h : s.Inv) {lane : Lane} {i : Transcoder} (hi : i.Fits s.cfg.W) :
    (setInstance s lane i).Inv := by
  obtain ⟨rdLine, wrLine, outw, cke, odt, rstn, wrDq, wrDm, wrDqs, rdDq⟩ := h.regs
  cases lane with
  | wrDq b => exact h.withRegs ⟨rdLine, wrLine, outw, cke, odt, rstn, group_set wrDq hi, wrDm, wrDqs, rdDq⟩
  | wrDm y => exact h.withRegs ⟨rdLine, wrLine, outw, cke, odt, rstn, wrDq, group_set wrDm hi, wrDqs, rdDq⟩
  | wrDqs y => exact h.withRegs ⟨rdLine, wrLine, outw, cke, odt, rstn, wrDq, wrDm, group_set wrDqs hi, rdDq⟩
  | rdDq b => exact h.withRegs ⟨rdLine, wrLine, outw, cke, odt, rstn, wrDq, wrDm, wrDqs, group_set rdDq hi⟩

/-- An operation that keeps the size of the transcoder it names keeps the invariant. -/
theorem onInstance (h : s.Inv) {lane : Lane} {f : Transcoder → Transcoder} {t : State}
    (hf : ∀ i : Transcoder, i.Fits s.cfg.W → (f i).Fits s.cfg.W) (ht : onInstance lane f s = .next t) : t.Inv := by
  obtain ⟨i, hi, rfl⟩ := onInstance_next.1 ht
  exact h.setInstance (hf i (h.fits_of_instanceAt hi))

end State.Inv

/-- A construction that completes ends in the invariant, whatever the state was. -/
theorem construct_inv {c : Cfg} {s t : State} (h : construct c s = .next t) : t.Inv := by
  obtain ⟨hN, hc, st, hst, rfl⟩ := construct_next.1 h
  exact constructed_inv hN hc hst s.pending

/-! ### Every operation -/

theorem execBsOut_next {lane : Lane} {s t : State} (h : execBsOut lane s = .next t) :
    ∃ v, t = { s with ret := v } := by
  unfold execBsOut at h
  cases hi : instanceAt s lane with
  | none => rw [hi] at h; cases h
  | some i => rw [hi] at h; exact ⟨_, (Host.Outcome.next.inj h).symm⟩

/-- A construction-time function that completes, the two constructions apart, only returns a value. -/
theorem exec_func_next {i : Instr} {s t : State} (hf : i.format = .func)
    (hc : ∀ c, i ≠ .phyConstruct c ∧ i ≠ .rhWrap c) (h : exec i s = .next t) : ∃ v, t = { s with ret := v } := by
  cases i <;> simp only [Instr.format, reduceCtorEq] at hf
  case latMake | latAdd | trPeriod | trSyslat | trRawphase | trBorrow =>
    exact ⟨_, (returning_next ..).1 (whenTyped_next.1 h).2⟩
  case trRdlat | trWrlat => exact ⟨_, (returning_next ..).1 h⟩
  case trLookup tCK tbl =>
    obtain ⟨-, h⟩ := whenTyped_next.1 h
    cases hl : lookup tCK tbl with
    | none => rw [hl] at h; cases h
    | some pair => rw [hl] at h; exact ⟨_, (returning_next ..).1 h⟩
  case trWrtap n =>
    change execTrWrtap n s = _ at h
    unfold execTrWrtap at h
    cases hw : wrtapOf n with
    | none => rw [hw] at h; cases h
    | some k => rw [hw] at h; exact ⟨_, (returning_next ..).1 h⟩
  case trResolve c =>
    obtain ⟨-, h⟩ := whenTyped_next.1 h
    cases hr : resolve c with
    | error f => rw [hr] at h; cases h
    | ok st => rw [hr] at h; exact ⟨_, (returning_next ..).1 h⟩
  case rhWrap c => exact absurd rfl (hc c).2
  case phyConstruct c => exact absurd rfl (hc c).1

/-- Settles O59: by the operation, each through the lemma about the part of the state it replaces. -/
theorem everyOperationKeepsTheInvariant : Obligations.EveryOperationKeepsTheInvariant := by
  intro i s t h ht
  obtain ⟨rdLine, wrLine, outw, cke, odt, rstn, wrDq, wrDm, wrDqs, rdDq⟩ := h.regs
  obtain ⟨odata, ovalid, oclk, ocke, oodt, orstn, ocs, oca, odq, odm, odqs⟩ := h.out
  have phases : s.inp.phases.length = s.cfg.R := (shaped_iff.1 h.inp).1
  cases i with
  | latMake | latAdd | trLookup | trPeriod | trSyslat | trRawphase | trBorrow | trRdlat | trWrlat | trWrtap
  | trResolve =>
    obtain ⟨v, rfl⟩ := exec_func_next rfl (by simp) ht
    exact h.withRet v
  | tdlRead line x =>
    obtain rfl := Host.Outcome.next.inj ht
    exact h.withRet _
  | bsOut lane =>
    obtain ⟨v, rfl⟩ := execBsOut_next ht
    exact h.withRet v
  | bsStep lane x rst =>
    obtain ⟨hx, ht⟩ := whenTyped_next.1 ht
    exact h.onInstance (fun _ hi => shiftIn_fits hi (of_decide_eq_true hx)) ht
  | bsInc lane inc rst => exact h.onInstance (fun _ => rotate_fits) ht
  | bsRst lane rst => exact h.onInstance (fun _ hi => clear_fits hi h.sReset_lt) ht
  | tdlStep line x =>
    obtain rfl := Host.Outcome.next.inj ht
    exact h.setLine (length_tdlShift ..)
  | rdvStep =>
    obtain rfl := Host.Outcome.next.inj ht
    exact h.setLine (line := .rdLine) (length_tdlShift ..)
  | wrenStep =>
    obtain rfl := Host.Outcome.next.inj ht
    exact h.setLine (line := .wrLine) (length_tdlShift ..)
  | arbHist | arbAllow | arbSlip | arbOr | sfPre | sfPost =>
    obtain rfl := Host.Outcome.next.inj ht
    exact h.withWires h.strobeWord h.padIn
  | sfWord =>
    obtain rfl := Host.Outcome.next.inj ht
    exact h.withWires (length_strobeWordOf h.typed ..) h.padIn
  | rdvOut =>
    obtain rfl := Host.Outcome.next.inj ht
    exact h.withOut ⟨odata, List.length_replicate, oclk, ocke, oodt, orstn, ocs, oca, odq, odm, odqs⟩
  | arbOut =>
    obtain rfl := Host.Outcome.next.inj ht
    exact h.withOut ⟨odata, ovalid, oclk, ocke, oodt, orstn, (length_laneOf ..).trans outw,
      outw ▸ caLanes_words s.regs.arb.outw, odq, odm, odqs⟩
  | clkOut =>
    obtain rfl := Host.Outcome.next.inj ht
    exact h.withOut ⟨odata, ovalid, (wellTyped_patterns h.typed).1, ocke, oodt, orstn, ocs, oca, odq, odm, odqs⟩
  | rdDist =>
    obtain rfl := Host.Outcome.next.inj ht
    exact h.withOut ⟨rdData_words .., ovalid, oclk, ocke, oodt, orstn, ocs, oca, odq, odm, odqs⟩
  | sfDqoe | sfDqsoe =>
    obtain rfl := Host.Outcome.next.inj ht
    exact h.withOut ⟨odata, ovalid, oclk, ocke, oodt, orstn, ocs, oca, odq, odm, odqs⟩
  | arbStep =>
    obtain rfl := Host.Outcome.next.inj ht
    exact h.withRegs ⟨rdLine, wrLine, length_arbiterNext_outw .., cke, odt, rstn, wrDq, wrDm, wrDqs, rdDq⟩
  | simpleStep =>
    obtain rfl := Host.Outcome.next.inj ht
    exact h.withOutRegs
      ⟨odata, ovalid, oclk, cke, odt, rstn, ocs, oca, odq, odm, odqs⟩
      ⟨rdLine, wrLine, outw, (List.length_map ..).trans phases, (List.length_map ..).trans phases,
        (List.length_map ..).trans phases, wrDq, wrDm, wrDqs, rdDq⟩
  | wrdqPath =>
    obtain rfl := Host.Outcome.next.inj ht
    exact h.withOutRegs
      ⟨odata, ovalid, oclk, ocke, oodt, orstn, ocs, oca, windows_words wrDq, odm, odqs⟩
      ⟨rdLine, wrLine, outw, cke, odt, rstn, wrDqNext_group _ h.sReset_lt wrDq, wrDm, wrDqs, rdDq⟩
  | wrdmPath =>
    obtain rfl := Host.Outcome.next.inj ht
    exact h.withOutRegs
      ⟨odata, ovalid, oclk, ocke, oodt, orstn, ocs, oca, odq, maskWords_words wrDm, odqs⟩
      ⟨rdLine, wrLine, outw, cke, odt, rstn, wrDq, wrDmNext_group _ h.sReset_lt wrDm, wrDqs, rdDq⟩
  | wrdqsPath =>
    obtain rfl := Host.Outcome.next.inj ht
    exact h.withOutRegs
      ⟨odata, ovalid, oclk, ocke, oodt, orstn, ocs, oca, odq, odm, windows_words wrDqs⟩
      ⟨rdLine, wrLine, outw, cke, odt, rstn, wrDq, wrDm, wrDqsNext_group _ h.sReset_lt h.strobeWord wrDqs, rdDq⟩
  | rddqPath =>
    obtain rfl := Host.Outcome.next.inj ht
    exact (h.withWires (w := { s.wires with rdWord := windows s.cfg.W s.regs.rdDq }) h.strobeWord h.padIn).withRegs
      ⟨rdLine, wrLine, outw, cke, odt, rstn, wrDq, wrDm, wrDqs,
        rdDqNext_group _ h.sReset_lt h.padInputs_shaped rdDq⟩
  | rhSer =>
    obtain rfl := Host.Outcome.next.inj ht
    exact h.serialize
  | rhDes =>
    obtain rfl := Host.Outcome.next.inj ht
    exact h.deserialize
  | rhWrap c => exact construct_inv (whenTyped_next.1 ht).2
  | phyConstruct c => exact construct_inv ht
  | ctlRst | ctlWlevelEn | ctlWlevelStrobe | ctlDlySel | ctlRdBsRst | ctlRdBsInc | ctlWrBsRst | ctlWrBsInc
  | ctlRdphase | ctlWrphase | phyStep => exact h.stepOn ht

/-- Settles O60: the machine's step runs an operation on the state with its stimulus taken. -/
theorem everyStepKeepsTheInvariant : Obligations.EveryStepKeepsTheInvariant := by
  intro s t h ht
  unfold step at ht
  split at ht
  case h_1 i rest _ => exact everyOperationKeepsTheInvariant i _ t (h.withPending rest) ht
  case h_2 => cases ht

end Sys2Proof.Machine
end

section
/-! Latency Algebra and Timing Resolver (R110 to R133): durations, the closed form of the borrow, and what each
construction-time function returns. -/

namespace Sys2Proof.Machine

/-! ### Latency Algebra -/

/-- Settles O1: the range check passes, and a carry of 0 leaves the pair as it is. -/
theorem latMakeCarriesIntoSlowCycles : Obligations.LatMakeCarriesIntoSlowCycles := by
  intro slow fast R s hR
  refine ⟨?_, fun _ _ => rfl, Nat.mod_lt _ hR, fun hlt => ?_⟩
  · change execLatMake slow fast R s = _
    rw [execLatMake, decide_eq_true hR, whenTyped_true, returning, latMake]
  · rw [Nat.div_eq_of_lt hlt, Nat.mod_eq_of_lt hlt, Nat.add_zero]

/-- The fast ticks of a latency in all (R113). -/
def duration (R : Nat) (l : Latency) : Nat := l.slowCycles * R + l.fastTicks

/-- Addition keeps the duration: what the fast ticks lose, the carry gains (R113). -/
theorem duration_latAdd (a b : Latency) (R : Nat) : duration R (latAdd a b R) = duration R a + duration R b := by
  have carry := Nat.div_add_mod' (a.fastTicks + b.fastTicks) R
  simp only [duration, latAdd, Nat.add_mul]
  omega

theorem latAdd_canonical (a b : Latency) {R : Nat} (hR : 0 < R) : (latAdd a b R).fastTicks < R := Nat.mod_lt _ hR

/-- A canonical latency is the quotient and the remainder of its duration (R113). -/
theorem eq_of_duration_eq {a b : Latency} {R : Nat} (ha : a.fastTicks < R) (hb : b.fastTicks < R)
    (h : duration R a = duration R b) : a = b := by
  have fast : ∀ l : Latency, l.fastTicks < R → duration R l % R = l.fastTicks := fun l hl => by
    rw [duration, Nat.mul_comm, Nat.mul_add_mod, Nat.mod_eq_of_lt hl]
  have slow : ∀ l : Latency, l.fastTicks < R → duration R l / R = l.slowCycles := fun l hl => by
    rw [duration, Nat.mul_comm, Nat.mul_add_div (Nat.zero_lt_of_lt hl), Nat.div_eq_of_lt hl, Nat.add_zero]
  have hfast : a.fastTicks = b.fastTicks := by rw [← fast a ha, h, fast b hb]
  have hslow : a.slowCycles = b.slowCycles := by rw [← slow a ha, h, slow b hb]
  cases a; cases b
  simp_all

/-- Settles O3: both sides of the associative law are canonical and have one duration. -/
theorem latencyAdditionLaws : Obligations.LatencyAdditionLaws := by
  intro a b c R ha hb hc
  have hR : 0 < R := Nat.zero_lt_of_lt ha
  refine ⟨?_, latAdd_comm a b R, latAdd_zero_right ha, latAdd_canonical a b hR, duration_latAdd a b R,
    eq_of_duration_eq ha hb⟩
  refine eq_of_duration_eq (latAdd_canonical _ _ hR) (latAdd_canonical _ _ hR) ?_
  rw [duration_latAdd, duration_latAdd, duration_latAdd, duration_latAdd, Nat.add_assoc]

/-! ### Whole cycles and the borrow -/

/-- `sysLat(x)` is the least number of cycles that holds `x` ticks (R123). -/
theorem sysLat_le_iff {x R q : Nat} (hR : 0 < R) : sysLat x R ≤ q ↔ x ≤ q * R := by
  rw [sysLat, Nat.div_le_iff_le_mul_add_pred hR, Nat.mul_comm]
  omega

theorem le_sysLat_mul (x : Nat) {R : Nat} (hR : 0 < R) : x ≤ sysLat x R * R := (sysLat_le_iff hR).1 le_rfl

/-- A whole number of cycles that exceeds `x` ticks by less than one cycle is `sysLat(x)`. -/
theorem eq_sysLat {x R sys phase : Nat} (hphase : phase < R) (h : sys * R = x + phase) : sys = sysLat x R := by
  have hR : 0 < R := Nat.zero_lt_of_lt hphase
  have upper : sysLat x R ≤ sys := (sysLat_le_iff hR).2 (by omega)
  have lower : sys ≤ sysLat x R := by
    by_contra hlt
    have step : (sysLat x R + 1) * R ≤ sys * R := Nat.mul_le_mul_right R (by omega)
    have := le_sysLat_mul x hR
    rw [Nat.add_one_mul] at step
    omega
  omega

/-- The closed form of the loop: it ends with `ceil(X/R)` cycles and what they exceed `X` by (R125). -/
theorem borrow_closedForm {raw : Int} {sys0 X R : Nat} (hR : 0 < R) (hraw : raw = (sys0 : Int) * R - X)
    (hlt : raw < R) :
    borrow raw sys0 R = (sysLat X R * R - X, sysLat X R) ∧ sysLat X R * R - X < R := by
  obtain ⟨k, he, h0, hbelow, -⟩ := borrow_spec raw sys0 R hR
  have hphase := hbelow hlt
  have htotal : raw + k * R = ((sys0 + k) * R : Nat) - (X : Int) := by rw [hraw]; push_cast; ring
  have hsys : sys0 + k = sysLat X R :=
    eq_sysLat (phase := (raw + k * R).toNat) (by omega) (by omega)
  rw [← hsys]
  exact ⟨by rw [he]; congr 1; omega, by omega⟩

theorem exec_trBorrow {R : Nat} (raw : Int) (sys0 : Nat) (s : State) (hR : 0 < R) :
    exec (.trBorrow raw sys0 R) s
      = .next { s with ret := .borrowed (borrow raw sys0 R).1 (borrow raw sys0 R).2 } := by
  change execTrBorrow raw sys0 R s = _
  rw [execTrBorrow, decide_eq_true hR, whenTyped_true, returning]

/-- Settles O6: a round changes neither side of `raw = sys0·R − X`, so it does not change the closed form. -/
theorem borrowLoopsToItsClosedForm : Obligations.BorrowLoopsToItsClosedForm := by
  intro raw sys0 R s hR
  refine ⟨fun h0 => ?_, fun hneg => ?_, fun X hraw hlt => ?_⟩
  · obtain ⟨k, he, -, -, hk⟩ := borrow_spec raw sys0 R hR
    obtain rfl := hk h0
    rw [exec_trBorrow raw sys0 s hR, he]
    simp
  · have hX : raw = (sys0 : Int) * R - (((sys0 : Int) * R - raw).toNat : Int) := by
      have : 0 ≤ (sys0 : Int) * R := by positivity
      omega
    have hX' : raw + R = ((sys0 + 1 : Nat) : Int) * R - (((sys0 : Int) * R - raw).toNat : Int) := by
      push_cast
      rw [Int.add_mul]
      omega
    rw [exec_trBorrow raw sys0 s hR, exec_trBorrow (raw + R) (sys0 + 1) s hR,
      (borrow_closedForm hR hX (by omega)).1, (borrow_closedForm hR hX' (by omega)).1]
  · obtain ⟨he, hphase⟩ := borrow_closedForm hR hraw hlt
    have := le_sysLat_mul X hR
    refine ⟨_, _, exec_trBorrow raw sys0 s hR, ?_⟩
    rw [he]
    exact ⟨hphase, by dsimp only; omega, rfl⟩

/-! ### The other functions of the family -/

/-- Settles O4: each function on operands of its range; the quotient of `TR.SYSLAT` is the least that is enough. -/
theorem timingFunctionsReturnTheirFormulas : Obligations.TimingFunctionsReturnTheirFormulas := by
  intro s
  refine ⟨fun f R hnum hden hR => ?_, fun x R hR => ?_, ?_, fun _ _ _ => rfl, fun _ => rfl⟩
  · change execTrPeriod f R s = _
    have typed : (f.positive && decide (0 < R)) = true := by simp [Ratio.positive, hnum, hden, hR]
    rw [execTrPeriod, typed, whenTyped_true, returning, period]
  · refine ⟨sysLat x R, ?_, rfl, le_sysLat_mul x hR, fun _ => (sysLat_le_iff hR).2⟩
    change execTrSyslat x R s = _
    rw [execTrSyslat, decide_eq_true hR, whenTyped_true, returning]
  · intro cl cwl clSys0 cwlSys0 cmdLat serTicks desTicks R hser hdes
    change execTrRawphase cl cwl clSys0 cwlSys0 cmdLat serTicks desTicks R s = _
    rw [execTrRawphase, decide_eq_true hser, decide_eq_true hdes, Bool.and_true, whenTyped_true, returning]
    simp only [rawPhase, readTicks, writeTicks]
    push_cast
    rfl

/-! ### The tap index and the resolver -/

@[simp] theorem wrtapOf_zero : wrtapOf 0 = none := rfl

@[simp] theorem wrtapOf_succ (n : Nat) : wrtapOf (n + 1) = some n := by
  have nonneg : ¬ ((n + 1 : Nat) : Int) - 1 < 0 := by omega
  have value : (((n + 1 : Nat) : Int) - 1).toNat = n := by omega
  simp only [wrtapOf, nonneg, if_false, value]

theorem exec_trResolve_ok {c : Cfg} {st : Settings} (s : State) (hc : c.wellTyped = true)
    (h : resolve c = .ok st) : exec (.trResolve c) s = .next { s with ret := .settings st } := by
  change execTrResolve c s = _
  rw [execTrResolve, admitsConfig, hc, whenTyped_true, h]
  rfl

theorem exec_trResolve_error {c : Cfg} {f : Fault} (s : State) (hc : c.wellTyped = true)
    (h : resolve c = .error f) : exec (.trResolve c) s = .fault f := by
  change execTrResolve c s = _
  rw [execTrResolve, admitsConfig, hc, whenTyped_true, h]
  rfl

/-- Everything `TR.RESOLVE` can answer with: the settings of the resolver, on a typed configuration. -/
theorem exec_trResolve_next {c : Cfg} {s t : State} (h : exec (.trResolve c) s = .next t) :
    c.wellTyped = true ∧ ∃ st, resolve c = .ok st ∧ t = { s with ret := .settings st } := by
  obtain ⟨hc, -⟩ := whenTyped_next.1 h
  refine ⟨hc, ?_⟩
  cases hr : resolve c with
  | error f => rw [exec_trResolve_error s hc hr] at h; cases h
  | ok st => rw [exec_trResolve_ok s hc hr] at h; exact ⟨st, rfl, (Host.Outcome.next.inj h).symm⟩

theorem wellTyped_R_pos {c : Cfg} (h : c.wellTyped = true) : 0 < c.R :=
  Nat.lt_of_lt_of_le (by decide) (wellTyped_ratio h)

/-- Settles O7: the resolver ends in the error exactly where no tick of write latency is left. -/
theorem wrtapIsCheckedNotWrapped : Obligations.WrtapIsCheckedNotWrapped := by
  intro s
  refine ⟨rfl, fun n => ?_, fun c cl cwl hc hl => ?_⟩
  · change execTrWrtap (n + 1) s = _
    rw [execTrWrtap, wrtapOf_succ]
    rfl
  · obtain ⟨hpos, hzero⟩ := resolve_of_lookup c cl cwl (wellTyped_R_pos hc) hl
    constructor
    · intro hfault
      by_contra hne
      obtain ⟨st, hst⟩ := hpos (Nat.pos_of_ne_zero hne)
      rw [exec_trResolve_ok s hc hst] at hfault
      cases hfault
    · exact fun h0 => exec_trResolve_error s hc (hzero h0)

/-- Settles O8: the resolver answers, and its answer has the properties of `resolve_eq_ok`. -/
theorem resolveReturnsTheSettings : Obligations.ResolveReturnsTheSettings := by
  intro c s cl cwl hc hl hpos
  obtain ⟨st, hst⟩ := (resolve_of_lookup c cl cwl (wellTyped_R_pos hc) hl).1 hpos
  obtain ⟨hl', rd, clSys, wr, cwlSys, -, -, latencies⟩ := resolve_eq_ok c st (wellTyped_R_pos hc) hst
  obtain ⟨hcl, hcwl⟩ : cl = st.cl ∧ cwl = st.cwl := by
    rw [hl] at hl'; simpa using hl'
  rw [← hcl] at clSys
  rw [← hcwl] at cwlSys
  exact ⟨st, exec_trResolve_ok s hc hst, hcl.symm, hcwl.symm, rd, clSys, wr, cwlSys, latencies⟩

/-- Settles O9: the ranges and congruences read off the resolver's equations. -/
theorem resolvedSettingsRanges : Obligations.ResolvedSettingsRanges := by
  intro c s st h
  obtain ⟨hc, st', hst, heq⟩ := exec_trResolve_next h
  obtain rfl : st = st' := Ret.settings.inj (congrArg State.ret heq)
  obtain ⟨-, rd, clSys, wr, cwlSys, hcl, hcwl, readLat, writeLat, wrtap, -⟩ :=
    resolve_eq_ok c st (wellTyped_R_pos hc) hst
  refine ⟨rd, wr, hcl, hcwl, by omega, by omega, by omega, ?_, ?_⟩
  · rw [show st.readPhase + (st.cl + c.cmdLatency + c.serLatency.fastTicks + c.desLatency.fastTicks)
      = st.clSys * c.R by omega]
    exact Nat.mul_mod_left _ _
  · rw [show st.writePhase + (st.cwl + c.cmdLatency) = st.cwlSys * c.R by omega]
    exact Nat.mul_mod_left _ _

end Sys2Proof.Machine
end

section
/-! Construction and the machine's step (R290, R291, R305 to R317, R332): the three errors, the initial state, what the
first step shows, what is refused, and the rows of the control surface. -/

namespace Sys2Proof.Machine

/-! ### The errors of the resolver -/

/-- Everything the resolver can answer: settings, or one of two errors by the lookup and the ticks of write latency. -/
theorem resolve_cases {c : Cfg} (hR : 0 < c.R) :
    (lookup (period c.targetFreq c.R) c.table = none ∧ resolve c = .error .unsupportedTiming)
      ∨ ∃ cl cwl, lookup (period c.targetFreq c.R) c.table = some (cl, cwl)
        ∧ (cwl + c.cmdLatency = 0 ∧ resolve c = .error .negativeTapIndex
          ∨ 0 < cwl + c.cmdLatency ∧ ∃ st, resolve c = .ok st) := by
  cases hl : lookup (period c.targetFreq c.R) c.table with
  | none => exact .inl ⟨rfl, by unfold resolve; rw [hl]⟩
  | some pair =>
    obtain ⟨hpos, hzero⟩ := resolve_of_lookup c pair.1 pair.2 hR hl
    refine .inr ⟨pair.1, pair.2, rfl, ?_⟩
    rcases Nat.eq_zero_or_pos (pair.2 + c.cmdLatency) with h | h
    · exact .inl ⟨h, hzero h⟩
    · exact .inr ⟨h, hpos h⟩

theorem resolve_eq_unsupportedTiming_iff {c : Cfg} (hR : 0 < c.R) :
    resolve c = .error .unsupportedTiming ↔ lookup (period c.targetFreq c.R) c.table = none := by
  rcases resolve_cases hR with ⟨hl, hr⟩ | ⟨cl, cwl, hl, ⟨-, hr⟩ | ⟨-, st, hr⟩⟩ <;> simp [hl, hr]

theorem resolve_eq_negativeTapIndex_iff {c : Cfg} (hR : 0 < c.R) :
    resolve c = .error .negativeTapIndex
      ↔ ∃ cl, lookup (period c.targetFreq c.R) c.table = some (cl, 0) ∧ c.cmdLatency = 0 := by
  rcases resolve_cases hR with ⟨hl, hr⟩ | ⟨cl, cwl, hl, ⟨h0, hr⟩ | ⟨hpos, st, hr⟩⟩
  · simp [hl, hr]
  · obtain ⟨rfl, hcmd⟩ := Nat.add_eq_zero_iff.1 h0
    simp [hl, hr, hcmd]
  · simp only [hl, hr, Option.some.injEq, Prod.mk.injEq, reduceCtorEq, false_iff, not_exists, not_and]
    omega

theorem resolve_ne_invalidLaneWidth {c : Cfg} (hR : 0 < c.R) : resolve c ≠ .error .invalidLaneWidth := by
  rcases resolve_cases hR with ⟨-, hr⟩ | ⟨cl, cwl, -, ⟨-, hr⟩ | ⟨-, st, hr⟩⟩ <;> simp [hr]

/-! ### The errors of construction -/

theorem construct_of_laneWidth {c : Cfg} (s : State) (h : c.N % 8 ≠ 0) :
    construct c s = .fault .invalidLaneWidth := if_pos h

theorem construct_of_illTyped {c : Cfg} (s : State) (hN : c.N % 8 = 0) (hc : c.wellTyped = false) :
    construct c s = .refused .illTypedConfig := by
  rw [construct, if_neg (not_not.2 hN), admitsConfig, hc, whenTyped_false]

theorem construct_of_error {c : Cfg} {f : Fault} (s : State) (hN : c.N % 8 = 0) (hc : c.wellTyped = true)
    (h : resolve (coreCfg c) = .error f) : construct c s = .fault f := by
  rw [construct, if_neg (not_not.2 hN), admitsConfig, hc, whenTyped_true, h]
  rfl

theorem construct_of_ok {c : Cfg} {st : Settings} (s : State) (hN : c.N % 8 = 0) (hc : c.wellTyped = true)
    (h : resolve (coreCfg c) = .ok st) : construct c s = .next (constructed c (coreCfg c) st s.pending) :=
  construct_next.2 ⟨hN, hc, st, h, rfl⟩

/-- Everything construction can fail with: the lane width, and behind it and the ranges what the resolver says
(R310). -/
theorem construct_fault_iff {c : Cfg} {s : State} {f : Fault} : construct c s = .fault f
    ↔ c.N % 8 ≠ 0 ∧ f = .invalidLaneWidth
      ∨ c.N % 8 = 0 ∧ c.wellTyped = true ∧ resolve (coreCfg c) = .error f := by
  by_cases hN : c.N % 8 = 0
  · cases hc : c.wellTyped with
    | false => simp [construct_of_illTyped s hN hc, hN]
    | true =>
      cases hr : resolve (coreCfg c) with
      | error g => simp [construct_of_error s hN hc hr, hN]
      | ok st => simp [construct_of_ok s hN hc hr, hN]
  · rw [construct_of_laneWidth s hN, Host.Outcome.fault.injEq]
    exact ⟨fun h => .inl ⟨hN, h.symm⟩, fun h => h.elim (fun h => h.2.symm) (fun h => absurd h.1 hN)⟩

/-- Settles O10: the wrapper changes neither the period, the table nor the command latency, so the resolver's errors
are those of the configuration. -/
theorem constructionErrorsExactlyWhen : Obligations.ConstructionErrorsExactlyWhen := by
  intro c s
  have core_R_pos : c.wellTyped = true → 0 < (coreCfg c).R := fun hc => by
    rw [coreCfg_R]; exact wellTyped_R_pos hc
  refine ⟨?_, ?_, ?_⟩
  · refine construct_fault_iff.trans ⟨?_, fun h => .inl ⟨h, rfl⟩⟩
    rintro (⟨h, -⟩ | ⟨-, hc, hr⟩)
    · exact h
    · exact absurd hr (resolve_ne_invalidLaneWidth (core_R_pos hc))
  · refine construct_fault_iff.trans ?_
    rw [or_iff_right (by simp)]
    refine and_congr_right fun _ => and_congr_right fun hc => ?_
    rw [resolve_eq_unsupportedTiming_iff (core_R_pos hc), coreCfg_R, coreCfg_targetFreq, coreCfg_table,
      lookup_eq_none]
    exact forall₂_congr fun e _ => reaches_eq_false_iff
  · refine construct_fault_iff.trans ?_
    rw [or_iff_right (by simp)]
    refine and_congr_right fun _ => and_congr_right fun hc => ?_
    rw [resolve_eq_negativeTapIndex_iff (core_R_pos hc), coreCfg_R, coreCfg_targetFreq, coreCfg_table,
      coreCfg_cmdLatency]

/-! ### The initial state -/

theorem coreCfg_of_not_wrapped {c : Cfg} (h : c.wrapped = false) : coreCfg c = c := by simp [coreCfg, h]

theorem coreCfg_of_wrapped {c : Cfg} (h : c.wrapped = true) : coreCfg c = innerCfg c := by simp [coreCfg, h]

/-- Settles O11: construction completes with the resolver's settings, and `Regs.initial` holds the zeros. -/
theorem constructionLeavesTheInitialState : Obligations.ConstructionLeavesTheInitialState := by
  intro c s cl cwl hN hc hw hl hpos
  obtain ⟨st, hst⟩ := (resolve_of_lookup c cl cwl (wellTyped_R_pos hc) hl).1 hpos
  have hcore := coreCfg_of_not_wrapped hw
  refine ⟨constructed c c st s.pending, st, ?_, exec_trResolve_ok s hc hst, rfl, rfl, rfl, rfl, rfl, rfl, rfl, rfl,
    rfl, rfl, rfl, rfl, rfl⟩
  rw [← hcore] at hst
  have built := construct_of_ok s hN hc hst
  rwa [hcore] at built

/-- Settles O12: a wrapped block is constructed from the inner configuration, whose lookup is the outer one's. -/
theorem wrapConstructsTheInnerBlock : Obligations.WrapConstructsTheInnerBlock := by
  intro c s cl cwl hN hc hw hl hpos wide narrow enable input
  have hcore := coreCfg_of_wrapped hw
  have hR : 0 < (coreCfg c).R := by rw [coreCfg_R]; exact wellTyped_R_pos hc
  obtain ⟨st, hst⟩ := (resolve_of_lookup (coreCfg c) cl cwl hR (by simpa using hl)).1 (by simpa using hpos)
  have built : exec (.phyConstruct c) s = .next (constructed c (coreCfg c) st s.pending) :=
    construct_of_ok s hN hc hst
  have queues : (constructed c (coreCfg c) st s.pending).wrap = zeroQueues c := if_pos hw
  have half : c.W / 2 = c.R := by rw [cfg_W]; omega
  refine ⟨_, ?_, built, rfl, by rw [hcore] at hst; exact hst, initial_coreCfg c st, ?_, ?_⟩
  · change execRhWrap c s = _
    rw [execRhWrap, hw, whenTyped_true]
    exact built
  · rw [queues, zeroQueues_serq]
    simp only [wide, narrow, enable, half, zeros]
  · rw [queues, zeroQueues_desq]
    simp only [input, half, zeros]

/-- Settles O13: the base design is accepted and resolves to the settings of R129. -/
theorem resetIsTheConstructedBaseDesign : Obligations.ResetIsTheConstructedBaseDesign :=
  construct_of_ok (c := baseCfg) (st := baseSettings) State.reset (by decide) (by decide) (by decide)

/-! ### The step on a record -/

theorem exec_phyStep {inp : In} {s : State} (h : inp.shaped s.cfg.R s.cfg.N = true) :
    exec (.phyStep inp) s = .next (takeStep inp s) := stepOn_next.2 ⟨h, rfl⟩

/-- Everything `PHY.STEP` can answer with. -/
theorem exec_phyStep_next {inp : In} {s t : State} :
    exec (.phyStep inp) s = .next t ↔ inp.shaped s.cfg.R s.cfg.N = true ∧ t = takeStep inp s := stepOn_next

theorem stepOn_of_not_shaped {inp : In} {s : State} (h : inp.shaped s.cfg.R s.cfg.N = false) :
    stepOn inp s = .refused .illTypedInput := by rw [stepOn, admitsInput, h, whenTyped_false]

theorem deserialize_of_not_wrapped {s : State} (h : s.cfg.wrapped = false) : deserialize s = s := by
  simp [deserialize, h]

theorem serialize_of_not_wrapped {s : State} (h : s.cfg.wrapped = false) : serialize s = s := by
  simp [serialize, h]

/-! ### What the first step shows -/

theorem window_cleared {W sReset : Nat} (h : sReset < W) : window W (Transcoder.cleared W sReset) = zeros W := by
  have fits : (Transcoder.cleared W sReset).Fits W := ⟨length_zeros _, h⟩
  refine bits_ext ((length_window fits).trans (length_zeros W).symm) fun i hi => ?_
  rw [bitAt_window (length_window fits ▸ hi), bitAt_zeros]
  exact bitAt_zeros _ _

theorem windows_cleared {W sReset : Nat} (n : Nat) (h : sReset < W) :
    windows W (List.replicate n (Transcoder.cleared W sReset)) = List.replicate n (zeros W) := by
  rw [windows, List.map_replicate, window_cleared h]

theorem bitAt_wordAt_replicate_zeros (n k b i : Nat) : bitAt (wordAt (List.replicate n (zeros k)) b) i = false := by
  rw [wordAt, List.getD_eq_getElem?_getD, List.getElem?_replicate]
  split_ifs
  · exact bitAt_zeros k i
  · exact bitAt_nil i

theorem rdDataOf_zeros (N n k p : Nat) : rdDataOf N (List.replicate n (zeros k)) p = zeros (2 * N) := by
  simp only [rdDataOf, bitAt_wordAt_replicate_zeros, List.map_const', List.length_range]
  rfl

theorem laneOf_zero (R l : Nat) : laneOf (List.replicate R 0) l = List.replicate R false := by
  simp [laneOf]

theorem caLanes_zero (R : Nat) : caLanes (List.replicate R 0) = List.replicate 6 (List.replicate R false) := by
  simp only [caLanes, laneOf_zero, List.map_const', List.length_range]

/-- On an empty line the preamble is the step's own write enable, and only where the line's input is its operand. -/
theorem preambleOf_zeros (wrtap n : Nat) (input : Bool) :
    preambleOf wrtap input (zeros n) = (decide (wrtap = 0) && input) := by
  cases wrtap <;> simp [preambleOf]

/-- Settles O14: without the wrapper the step shows `outOf` of the constructed state, whose registers are zero. -/
theorem firstStepShowsTheInitialState : Obligations.FirstStepShowsTheInitialState := by
  intro c s t t' inp hw hbuilt hstep
  obtain ⟨-, hc, st, -, rfl⟩ := construct_next.1 hbuilt
  obtain ⟨-, rfl⟩ := exec_phyStep_next.1 hstep
  have hs := wellTyped_sReset hc
  rw [coreCfg_of_not_wrapped hw, takeStep_out, deserialize_of_not_wrapped hw]
  have dq : windows c.W (List.replicate c.N (Transcoder.cleared c.W c.sReset)) = _ := windows_cleared c.N hs
  refine ⟨?_, ?_, rfl, rfl, rfl, rfl, laneOf_zero .., caLanes_zero .., dq, ?_, ?_, ?_, windows_cleared c.NB hs, ?_⟩
  · show (List.range c.R).map (rdDataOf c.N (windows c.W (List.replicate c.N (Transcoder.cleared c.W c.sReset)))) = _
    rw [dq, List.map_congr_left fun p _ => rdDataOf_zeros c.N c.N c.W p, List.map_const', List.length_range]
    rfl
  · show List.replicate c.R (bitAt (zeros st.readLatency) _) = _
    rw [bitAt_zeros]
  · exact bitAt_zeros _ _
  · show (if c.maskedWrite then windows c.W (List.replicate (if c.maskedWrite then c.NB else 0) _) else _) = _
    split_ifs
    · exact windows_cleared c.NB hs
    · rfl
  · show (c.maskedWrite && bitAt (zeros (st.wrtap + 2)) st.wrtap) = false
    rw [bitAt_zeros, Bool.and_false]
  · show (inp.ctl.wlevelEn || preambleOf st.wrtap (wrEnAny inp) (zeros (st.wrtap + 2))
      || dqOeOf st.wrtap (zeros (st.wrtap + 2)) || postambleOf st.wrtap (zeros (st.wrtap + 2))) = _
    simp only [preambleOf_zeros, dqOeOf, postambleOf, bitAt_zeros, Bool.or_false, Bool.false_and]
    rfl

/-! ### What the machine runs next -/

theorem step_of_fetch {s : State} {i : Instr} {rest : List Stimulus} (h : fetch s = .ok (i, rest)) :
    step s = exec i { s with pending := rest } := by
  unfold step; rw [h]

theorem step_of_fetch_error {s : State} {why : Refusal} (h : fetch s = .error why) : step s = .refused why := by
  unfold step; rw [h]

/-- Settles O18: what `fetch` finds, in each of its three cases. -/
theorem stepRunsTheDecodedOperation : Obligations.StepRunsTheDecodedOperation := by
  intro s i rest
  refine ⟨fun w hp hd => ?_, fun hp hf => ?_, fun hp => ?_⟩
  · exact step_of_fetch (by unfold fetch; rw [hp]; simp only [hd])
  · exact step_of_fetch (by unfold fetch; rw [hp]; simp only [hf, if_true])
  · exact step_of_fetch (by unfold fetch; rw [hp]; rfl)

/-! ### The rows of the control surface -/

/-- A row on a record in which its inputs are already asserted is the step on that record. -/
theorem stepAsserting_of_asserted {assert : Ctl → Ctl} {inp : In} {s : State} (h : assert inp.ctl = inp.ctl) :
    stepAsserting assert inp s = exec (.phyStep inp) s := by
  unfold stepAsserting; rw [h]; rfl

theorem exec_ctlRst {inp : In} {s : State} (h : inp.ctl.rst = true) :
    exec (.ctlRst inp) s = exec (.phyStep inp) s :=
  stepAsserting_of_asserted (assert := fun c => { c with rst := true }) (by rw [← h])

theorem exec_ctlWlevelEn {inp : In} {s : State} (h : inp.ctl.wlevelEn = true) :
    exec (.ctlWlevelEn inp) s = exec (.phyStep inp) s :=
  stepAsserting_of_asserted (assert := fun c => { c with wlevelEn := true }) (by rw [← h])

theorem exec_ctlWlevelStrobe {inp : In} {s : State} (hen : inp.ctl.wlevelEn = true)
    (hstrobe : inp.ctl.wlevelStrobe = true) : exec (.ctlWlevelStrobe inp) s = exec (.phyStep inp) s := by
  refine stepAsserting_of_asserted (assert := fun c => { c with wlevelEn := true, wlevelStrobe := true }) ?_
  calc ({ inp.ctl with wlevelEn := true, wlevelStrobe := true } : Ctl)
      = { inp.ctl with wlevelEn := inp.ctl.wlevelEn, wlevelStrobe := inp.ctl.wlevelStrobe } := by
        rw [hen, hstrobe]
    _ = inp.ctl := rfl

theorem exec_ctlRdBsRst {inp : In} {s : State} (h : inp.ctl.rdBsRst = true) :
    exec (.ctlRdBsRst inp) s = exec (.phyStep inp) s :=
  stepAsserting_of_asserted (assert := fun c => { c with rdBsRst := true }) (by rw [← h])

theorem exec_ctlRdBsInc {inp : In} {s : State} (h : inp.ctl.rdBsInc = true) :
    exec (.ctlRdBsInc inp) s = exec (.phyStep inp) s :=
  stepAsserting_of_asserted (assert := fun c => { c with rdBsInc := true }) (by rw [← h])

theorem exec_ctlWrBsRst {inp : In} {s : State} (h : inp.ctl.wrBsRst = true) :
    exec (.ctlWrBsRst inp) s = exec (.phyStep inp) s :=
  stepAsserting_of_asserted (assert := fun c => { c with wrBsRst := true }) (by rw [← h])

theorem exec_ctlWrBsInc {inp : In} {s : State} (h : inp.ctl.wrBsInc = true) :
    exec (.ctlWrBsInc inp) s = exec (.phyStep inp) s :=
  stepAsserting_of_asserted (assert := fun c => { c with wrBsInc := true }) (by rw [← h])

theorem names_iff {R N : Nat} {row : StepRow} {inp : In} :
    inp.names R N row = true ↔ inp.shaped R N = true ∧ inp.ctl.stepRow = row := by
  simp only [In.names, Bool.and_eq_true, decide_eq_true_eq]

/-- A row on a record that names it is `PHY.STEP` on that record: the name says that its inputs are asserted. -/
theorem exec_ofIn (inp : In) (s : State) : exec (Instr.ofIn inp) s = exec (.phyStep inp) s := by
  have asserted := Laws.RowSelection.stepRow_fields inp.ctl
  unfold Instr.ofIn
  cases hrow : inp.ctl.stepRow <;> rw [hrow] at asserted
  case ctlRst => exact exec_ctlRst asserted
  case ctlWlevelEn => exact exec_ctlWlevelEn asserted
  case ctlWlevelStrobe => exact exec_ctlWlevelStrobe asserted.1 asserted.2
  case ctlRdBsRst => exact exec_ctlRdBsRst asserted
  case ctlRdBsInc => exact exec_ctlRdBsInc asserted
  case ctlWrBsRst => exact exec_ctlWrBsRst asserted
  case ctlWrBsInc => exact exec_ctlWrBsInc asserted
  case ctlDlySel | ctlRdphase | ctlWrphase => rfl

/-- Settles O19: a well-formed row is the operation that its record names. -/
theorem stepsOnWellFormedRecordsComplete : Obligations.StepsOnWellFormedRecordsComplete := by
  intro s inp
  refine ⟨fun h => ⟨_, exec_phyStep h, takeStep_inp inp s⟩, fun i hi hwf => ?_⟩
  have carries : i.record = some inp := by
    simp only [List.mem_cons, List.not_mem_nil, or_false] at hi
    rcases hi with rfl | rfl | rfl | rfl | rfl | rfl | rfl | rfl | rfl | rfl <;> rfl
  obtain ⟨named, shaped⟩ := ofIn_record hwf carries
  refine ⟨_, ?_, exec_phyStep shaped⟩
  rw [← named, exec_ofIn, exec_phyStep shaped]

/-! ### What is refused -/

theorem onInstance_of_none {lane : Lane} {f : Transcoder → Transcoder} {s : State} (h : instanceAt s lane = none) :
    onInstance lane f s = .refused .noSuchInstance := by unfold onInstance; rw [h]

/-- Without `maskedWrite` the block has no mask lane's transcoder (R30). -/
theorem State.Inv.instanceAt_wrDm {s : State} (h : s.Inv) (hm : s.cfg.maskedWrite = false) (y : Nat) :
    instanceAt s (.wrDm y) = none := by
  obtain ⟨-, -, -, -, -, -, -, wrDm, -⟩ := h.regs
  have empty : s.regs.wrDm.length = 0 := by rw [wrDm.1, hm]; rfl
  exact List.getElem?_eq_none (by omega)

/-- Settles O20: each check fails on its ill-typed operand. -/
theorem illTypedTermsAreRefused : Obligations.IllTypedTermsAreRefused := by
  intro s
  refine ⟨?_, fun _ _ => rfl, ?_, ?_, ?_, fun _ => rfl, ?_, fun _ _ => rfl, ?_, ?_, ?_, ?_, ?_, ?_, ?_⟩
  · intro inp h i hi
    simp only [List.mem_cons, List.not_mem_nil, or_false] at hi
    rcases hi with rfl | rfl | rfl | rfl | rfl | rfl | rfl | rfl | rfl | rfl | rfl <;>
      exact stepOn_of_not_shaped h
  · intro a b R h
    change execLatAdd a b R s = _
    rw [execLatAdd, Bool.and_assoc, h, Bool.and_false, whenTyped_false]
  · intro tCK tbl h
    change execTrLookup tCK tbl s = _
    rw [execTrLookup, h, whenTyped_false]
  · intro f R h
    change execTrPeriod f R s = _
    have untyped : (f.positive && decide (0 < R)) = false := by
      rcases h with h | rfl
      · rw [h, Bool.false_and]
      · exact Bool.and_false _
    rw [execTrPeriod, untyped, whenTyped_false]
  · intro cl cwl clSys0 cwlSys0 cmdLat serTicks desTicks R h
    change execTrRawphase cl cwl clSys0 cwlSys0 cmdLat serTicks desTicks R s = _
    have untyped : (decide (serTicks < R) && decide (desTicks < R)) = false := by
      rw [← Bool.decide_and]; exact decide_eq_false (by omega)
    rw [execTrRawphase, untyped, whenTyped_false]
  · intro c h
    change execTrResolve c s = _
    rw [execTrResolve, admitsConfig, h, whenTyped_false]
  · intro c hN h
    refine ⟨construct_of_illTyped s hN h, ?_⟩
    change execRhWrap c s = _
    unfold execRhWrap
    cases c.wrapped
    · rfl
    · exact construct_of_illTyped s hN h
  · intro c h
    change execRhWrap c s = _
    rw [execRhWrap, h, whenTyped_false]
  · intro lane x inc rst
    refine ⟨fun h => ⟨?_, fun hx => ?_, onInstance_of_none h, onInstance_of_none h⟩, fun hx => ?_⟩
    · change execBsOut lane s = _
      unfold execBsOut; rw [h]
    · change execBsStep lane x rst s = _
      rw [execBsStep, decide_eq_true hx, whenTyped_true, onInstance_of_none h]
    · change execBsStep lane x rst s = _
      rw [execBsStep, decide_eq_false hx, whenTyped_false]
  · exact fun hm h y => h.instanceAt_wrDm hm y
  · intro w e rest hp hd
    exact step_of_fetch_error (by unfold fetch; rw [hp]; simp only [hd])
  · intro i rest hp hf
    exact step_of_fetch_error (by unfold fetch; rw [hp]; simp only [hf, if_false])

/-! ### The constants -/

/-- The constants and the list of stimuli are those of another state. -/
def SameConstants (t s : State) : Prop := t.cfg = s.cfg ∧ t.settings = s.settings ∧ t.pending = s.pending

theorem SameConstants.stepOn {inp : In} {s t : State} (h : stepOn inp s = .next t) : SameConstants t s := by
  obtain ⟨-, rfl⟩ := stepOn_next.1 h
  exact ⟨takeStep_cfg inp s, takeStep_settings inp s, takeStep_pending inp s⟩

theorem SameConstants.onInstance {lane : Lane} {f : Transcoder → Transcoder} {s t : State}
    (h : onInstance lane f s = .next t) : SameConstants t s := by
  obtain ⟨i, -, rfl⟩ := onInstance_next.1 h
  exact ⟨setInstance_cfg .., setInstance_settings .., setInstance_pending ..⟩

theorem ret_of_stepOn {inp : In} {s t : State} (h : stepOn inp s = .next t) : t.ret = s.ret := by
  obtain ⟨-, rfl⟩ := stepOn_next.1 h
  exact takeStep_ret inp s

/-- Settles O56: by the operation; the functions return, the rows write registers, records or signals. -/
theorem onlyConstructionChangesTheConstants : Obligations.OnlyConstructionChangesTheConstants := by
  refine ⟨fun i s t hc h => ?_, fun i s t hrec h => ?_⟩
  · change SameConstants t s
    cases i with
    | latMake | latAdd | trLookup | trPeriod | trSyslat | trRawphase | trBorrow | trRdlat | trWrlat | trWrtap
    | trResolve =>
      obtain ⟨v, rfl⟩ := exec_func_next rfl hc h
      exact ⟨rfl, rfl, rfl⟩
    | rhWrap c => exact absurd rfl (hc c).2
    | phyConstruct c => exact absurd rfl (hc c).1
    | bsOut lane =>
      obtain ⟨v, rfl⟩ := execBsOut_next h
      exact ⟨rfl, rfl, rfl⟩
    | bsStep => exact .onInstance (whenTyped_next.1 h).2
    | bsInc | bsRst => exact .onInstance h
    | tdlStep line x =>
      obtain rfl := Host.Outcome.next.inj h
      exact ⟨setLine_cfg .., setLine_settings .., setLine_pending ..⟩
    | rhSer =>
      obtain rfl := Host.Outcome.next.inj h
      exact ⟨serialize_cfg s, serialize_settings s, serialize_pending s⟩
    | rhDes =>
      obtain rfl := Host.Outcome.next.inj h
      exact ⟨deserialize_cfg s, deserialize_settings s, deserialize_pending s⟩
    | tdlRead | rdvStep | rdvOut | wrenStep | arbHist | arbAllow | arbSlip | arbOr | arbOut | arbStep | clkOut
    | simpleStep | wrdqPath | wrdmPath | wrdqsPath | rddqPath | rdDist | sfDqoe | sfPre | sfPost | sfDqsoe | sfWord =>
      obtain rfl := Host.Outcome.next.inj h
      exact ⟨rfl, rfl, rfl⟩
    | ctlRst | ctlWlevelEn | ctlWlevelStrobe | ctlDlySel | ctlRdBsRst | ctlRdBsInc | ctlWrBsRst | ctlWrBsInc
    | ctlRdphase | ctlWrphase | phyStep => exact .stepOn h
  · cases i with
    | ctlRst | ctlWlevelEn | ctlWlevelStrobe | ctlDlySel | ctlRdBsRst | ctlRdBsInc | ctlWrBsRst | ctlWrBsInc
    | ctlRdphase | ctlWrphase | phyStep => exact ret_of_stepOn h
    | _ => exact absurd rfl hrec

end Sys2Proof.Machine
end

section
/-! Delay lines and strobe framing along a run (R150 to R157, R230 to R239): what each tap holds, and the enables and
pulses around a burst. -/

namespace Sys2Proof.Machine

/-! ### A run keeps the invariant -/

theorem IsRun.inv {ins : Nat → In} {states : Nat → State} (h : IsRun ins states) (h0 : (states 0).Inv) (t : Nat) :
    (states t).Inv := by
  induction t with
  | zero => exact h0
  | succ t ih => rw [(h.step t).1]; exact ih.takeStep (h.step t).2

/-- The latencies of a block's settings (R126 to R128, R130). -/
theorem State.Inv.latencies {s : State} (h : s.Inv) :
    0 < s.settings.readLatency ∧ s.settings.writeLatency = s.settings.wrtap + 1 := by
  have hR : 0 < (coreCfg s.cfg).R := by rw [coreCfg_R]; exact h.R_pos
  obtain ⟨-, -, -, -, -, -, -, readLat, writeLat, wrtap, -⟩ := resolve_eq_ok _ _ hR h.resolved
  omega

/-! ### The taps of a line -/

/-- A line that shifts in every step holds in tap `k` what drove it `k + 1` steps before, and before that its initial
taps, shifted (R153). -/
theorem bitAt_line {line : Nat → List Bool} {x : Nat → Bool} (h : ∀ t, line (t + 1) = tdlShift (line t) (x t))
    {k : Nat} (hk : k < (line 0).length) (t : Nat) :
    bitAt (line t) k = if k < t then x (t - k - 1) else bitAt (line 0) (k - t) := by
  have length : ∀ t, (line t).length = (line 0).length := fun t => by
    induction t with
    | zero => rfl
    | succ t ih => rw [h t, length_tdlShift, ih]
  induction t generalizing k with
  | zero => simp
  | succ t ih =>
    rw [h t, bitAt_tdlShift, length t, decide_eq_true hk, Bool.true_and]
    cases k with
    | zero => simp
    | succ k =>
      rw [if_neg (Nat.succ_ne_zero k), Nat.add_sub_cancel, ih (by omega)]
      simp only [Nat.add_lt_add_iff_right, Nat.add_sub_add_right]

section
variable {ins : Nat → In} {states : Nat → State} (h : IsRun ins states)
include h

theorem IsRun.rdLine (t : Nat) :
    (states (t + 1)).regs.rdLine = tdlShift (states t).regs.rdLine (rdEnAny (ins t)) := by
  rw [(h.step t).1, takeStep_regs_rdLine]

theorem IsRun.wrLine (t : Nat) :
    (states (t + 1)).regs.wrLine = tdlShift (states t).regs.wrLine (wrEnAny (ins t)) := by
  rw [(h.step t).1, takeStep_regs_wrLine]

variable (h0 : (states 0).Inv)
include h0

theorem IsRun.bitAt_rdLine {k : Nat} (hk : k < (states 0).settings.readLatency) (t : Nat) :
    bitAt (states t).regs.rdLine k
      = if k < t then rdEnAny (ins (t - k - 1)) else bitAt (states 0).regs.rdLine (k - t) := by
  obtain ⟨length, -⟩ := h0.regs
  exact bitAt_line (line := fun t => (states t).regs.rdLine) h.rdLine (hk.trans_eq length.symm) t

theorem IsRun.bitAt_wrLine {k : Nat} (hk : k < (states 0).settings.wrtap + 2) (t : Nat) :
    bitAt (states t).regs.wrLine k
      = if k < t then wrEnAny (ins (t - k - 1)) else bitAt (states 0).regs.wrLine (k - t) := by
  obtain ⟨-, length, -⟩ := h0.regs
  exact bitAt_line (line := fun t => (states t).regs.wrLine) h.wrLine (hk.trans_eq length.symm) t

/-- The input of the write-enable line followed by its taps: entry `k` is the write enable of `k` steps before
(R230). -/
theorem IsRun.bitAt_input_wrLine {k : Nat} (hk : k < (states 0).settings.wrtap + 3) {t : Nat} (hkt : k ≤ t) :
    bitAt (wrEnAny (ins t) :: (states t).regs.wrLine) k = wrEnAny (ins (t - k)) := by
  cases k with
  | zero => rfl
  | succ k => rw [bitAt_cons_succ, h.bitAt_wrLine h0 (by omega), if_pos (by omega), Nat.sub_sub]

end

/-- Settles O22: a shift of either line is `TDL.STEP` of that line. -/
theorem validAndEnableLines : Obligations.ValidAndEnableLines := by
  intro s
  exact ⟨rfl, rfl, ⟨_, _, rfl, rfl⟩, rfl⟩

/-- Settles O23: `bitAt_line` on each of the two lines. -/
theorem tapsHoldTheInputsOfThePast : Obligations.TapsHoldTheInputsOfThePast := by
  intro ins states h h0 t k
  exact ⟨fun hk => h.bitAt_rdLine h0 hk t, fun hk => h.bitAt_wrLine h0 hk t⟩

/-- Settles O24: both signals are one tap of their line, and the tap index is the latency less one. -/
theorem validAndEnableComeTheirLatencyLater : Obligations.ValidAndEnableComeTheirLatencyLater := by
  intro ins states h h0 t
  obtain ⟨hread, hwrite⟩ := h0.latencies
  obtain ⟨dqOe, -⟩ := h.enables t
  refine ⟨fun hle => ?_, fun hle => ?_, ?_⟩
  · have shown : (states (t + 1)).out.rdValid = List.replicate (states 0).cfg.R
        (bitAt (states t).regs.rdLine ((states 0).settings.readLatency - 1)) := by
      rw [(h.step t).1, takeStep_out, ← (h.constants t).1, ← (h.constants t).2]
      simp [outOf, rdValidOf]
    rw [shown, h.bitAt_rdLine h0 (by omega), if_pos (by omega)]
    rw [show t - ((states 0).settings.readLatency - 1) - 1 = t - (states 0).settings.readLatency by omega]
    rfl
  · rw [dqOe, h.bitAt_wrLine h0 (by omega), if_pos (by omega), hwrite, Nat.sub_sub]
    rfl
  · rw [(h.step t).1, takeStep_out, ← (h.constants t).1]
    simp [outOf, dmiOeOf]

/-! ### The framing signals -/

/-- The preamble by its operand: the tap below `wrtap`, or the line's input where there is none (R230, R232). -/
theorem preambleOf_eq (wrtap : Nat) (input : Bool) (wrLine : List Bool) :
    preambleOf wrtap input wrLine
      = ((if wrtap = 0 then input else bitAt wrLine (wrtap - 1)) && !bitAt wrLine wrtap) := by
  cases wrtap <;> rfl

/-- Settles O42: each signal is its formula; the preamble's operand depends on `wrtap`. -/
theorem strobeFramingSignals : Obligations.StrobeFramingSignals := by
  intro s
  refine ⟨rfl, ?_, rfl, rfl⟩
  show execSfPre s = _
  rw [execSfPre, preambleOf_eq]
  rfl

/-- Settles O43: the branches of `strobeWordOf`; with both pulses the second of the exchanged pair wins. -/
theorem strobeWordFollowsModeAndPulses : Obligations.StrobeWordFollowsModeAndPulses := by
  intro s
  refine ⟨strobeWordOf s.cfg s.inp.ctl s.wires.preamble s.wires.postamble, rfl, fun hen => ?_,
    fun hen hpre hpost => ?_, fun hen hpre hpost => ?_, fun hen hpre hpost => ?_,
    fun hen hpre hpost => ⟨fun hswap => ?_, fun hswap => .inl ?_⟩⟩
  · simp [strobeWordOf, hen]
  · simp [strobeWordOf, hen, hpre, hpost]
  · cases hswap : s.cfg.frameSwap <;> simp [strobeWordOf, hen, hpre, hpost, hswap]
  · cases hswap : s.cfg.frameSwap <;> simp [strobeWordOf, hen, hpre, hpost, hswap]
  · simp [strobeWordOf, hen, hpost, hswap]
  · simp [strobeWordOf, hen, hpre, hswap]

/-! ### Bursts -/

/-- Neither pulse meets the data enable, on any line (R237). -/
theorem pulses_exclude_dqOe (wrtap : Nat) (input : Bool) (wrLine : List Bool) :
    (preambleOf wrtap input wrLine = true → dqOeOf wrtap wrLine = false)
      ∧ (postambleOf wrtap wrLine = true → dqOeOf wrtap wrLine = false) := by
  simp [preambleOf, postambleOf, dqOeOf]

/-- On an empty line a burst of `L` write enables from step `t0` stands at entry `k` of input and taps `k` steps
later. -/
theorem IsRun.bitAt_burst {ins : Nat → In} {states : Nat → State} (h : IsRun ins states) (h0 : (states 0).Inv)
    {t0 L : Nat} (hline : (states 0).regs.wrLine = List.replicate ((states 0).settings.wrtap + 2) false)
    (hburst : ∀ t, wrEnAny (ins t) = decide (t0 ≤ t ∧ t < t0 + L)) {k : Nat}
    (hk : k < (states 0).settings.wrtap + 3) (t : Nat) :
    bitAt (wrEnAny (ins t) :: (states t).regs.wrLine) k = decide (t0 + k ≤ t ∧ t < t0 + k + L) := by
  by_cases hkt : k ≤ t
  · rw [h.bitAt_input_wrLine h0 hk hkt, hburst]
    exact decide_eq_decide.2 (by omega)
  · obtain ⟨k, rfl⟩ : ∃ k', k = k' + 1 := ⟨k - 1, by omega⟩
    rw [bitAt_cons_succ, h.bitAt_wrLine h0 (by omega), if_neg (by omega), hline]
    exact (bitAt_zeros _ _).trans (decide_eq_false (by omega)).symm

/-- Settles O44: every signal reads two neighbouring entries of the line, at which the burst stands one step apart. -/
theorem burstIsFramedByOneStepEachSide : Obligations.BurstIsFramedByOneStepEachSide := by
  intro ins states h h0
  refine ⟨fun t => ?_, fun t => ?_, ?_⟩
  · obtain ⟨dqOe, pre, -⟩ := h.enables t
    rw [dqOe, pre]; exact (pulses_exclude_dqOe _ _ _).1
  · obtain ⟨dqOe, -, post, -⟩ := h.enables t
    rw [dqOe, post]; exact (pulses_exclude_dqOe _ (wrEnAny (ins t)) _).2
  · intro t0 L hL hline hburst hlevel start t
    obtain ⟨dqOe, pre, post, dqsOe⟩ := h.enables t
    have entry := fun k hk => h.bitAt_burst h0 hline hburst (k := k) hk t
    have before := entry (states 0).settings.wrtap (by omega)
    have tap := entry ((states 0).settings.wrtap + 1) (by omega)
    have after := entry ((states 0).settings.wrtap + 2) (by omega)
    rw [bitAt_cons_succ] at tap after
    have pulse : (states (t + 1)).wires.preamble = decide (t + 1 = start) := by
      rw [pre, preambleOf, before, tap, ← decide_not, ← Bool.decide_and]
      exact decide_eq_decide.2 (by omega)
    have enable : (states (t + 1)).out.pad.dqOe = decide (start ≤ t ∧ t < start + L) := by
      rw [dqOe, tap]
      exact decide_eq_decide.2 (by omega)
    have trailing : (states (t + 1)).wires.postamble = decide (t = start + L) := by
      rw [post, postambleOf, after, tap, ← decide_not, ← Bool.decide_and]
      exact decide_eq_decide.2 (by omega)
    refine ⟨pulse, enable, trailing, ?_⟩
    rw [dqsOe, hlevel t, pulse, enable, trailing, Bool.false_or, ← Bool.decide_or, ← Bool.decide_or]
    exact decide_eq_decide.2 (by omega)

/-- Settles O45: in the shared step the line holds the first burst's end, the idle step and the second's start. -/
theorem burstsOneIdleStepApartShareAStep : Obligations.BurstsOneIdleStepApartShareAStep := by
  intro ins states t0 h h0 (hon : wrEnAny (ins t0) = true) (hoff : wrEnAny (ins (t0 + 1)) = false) t
  have dqOe_at : ∀ d, (states (t0 + (states 0).settings.wrtap + d + 2)).out.pad.dqOe = wrEnAny (ins (t0 + d)) := by
    intro d
    rw [(h.enables (t0 + (states 0).settings.wrtap + d + 1)).1, h.bitAt_wrLine h0 (by omega), if_pos (by omega)]
    congr 2; omega
  have before := h.bitAt_input_wrLine h0 (k := (states 0).settings.wrtap) (t := t) (by omega) (by omega)
  have tap := h.bitAt_input_wrLine h0 (k := (states 0).settings.wrtap + 1) (t := t) (by omega) (by omega)
  have after := h.bitAt_input_wrLine h0 (k := (states 0).settings.wrtap + 2) (t := t) (by omega) (by omega)
  rw [show t - (states 0).settings.wrtap = t0 + 2 by omega] at before
  rw [bitAt_cons_succ, show t - ((states 0).settings.wrtap + 1) = t0 + 1 by omega, hoff] at tap
  rw [bitAt_cons_succ, show t - ((states 0).settings.wrtap + 2) = t0 by omega, hon] at after
  obtain ⟨-, pre, post, -⟩ := h.enables t
  have postamble : (states (t + 1)).wires.postamble = true := by rw [post, postambleOf, after, tap]; rfl
  have preamble : (states (t + 1)).wires.preamble = wrEnAny (ins (t0 + 2)) := by
    rw [pre, preambleOf, before, tap, Bool.not_false, Bool.and_true]
  refine ⟨postamble, (dqOe_at 1).trans hoff, preamble, fun (hnext : wrEnAny (ins (t0 + 2)) = true) d hd => ?_⟩
  have dqsOe_of_dqOe : ∀ u, (states (u + 1)).out.pad.dqOe = true → (states (u + 1)).out.pad.dqsOe = true :=
    fun u hu => by rw [(h.enables u).2.2.2, hu]; simp
  rcases (by omega : d = 0 ∨ d = 1 ∨ d = 2) with rfl | rfl | rfl
  · exact dqsOe_of_dqOe _ ((dqOe_at 0).trans hon)
  · rw [(h.enables t).2.2.2, postamble, Bool.or_true]
  · exact dqsOe_of_dqOe _ ((dqOe_at 2).trans hnext)

end Sys2Proof.Machine
end

section
/-! Bit lane transcoders (R200 to R216): the operations on one of them, the data paths, and the delay of a bit stream
that passes through one or two of them. -/

namespace Sys2Proof.Machine

/-! ### One transcoder replaced in the state -/

theorem onInstance_of_some {lane : Lane} {f : Transcoder → Transcoder} {s : State} {t : Transcoder}
    (h : instanceAt s lane = some t) : onInstance lane f s = .next (setInstance s lane (f t)) :=
  onInstance_next.2 ⟨t, h, rfl⟩

theorem instanceAt_setInstance {s : State} {lane : Lane} {t : Transcoder} (h : instanceAt s lane = some t)
    (t' : Transcoder) : instanceAt (setInstance s lane t') lane = some t' := by
  cases lane <;> exact List.getElem?_set_self (List.getElem?_eq_some_iff.1 h).1

theorem instanceAt_setInstance_of_ne {s : State} {lane other : Lane} (h : other ≠ lane) (t' : Transcoder) :
    instanceAt (setInstance s lane t') other = instanceAt s other := by
  cases lane with
  | wrDq b =>
    cases other with
    | wrDq b' => exact List.getElem?_set_ne (by rintro rfl; exact h rfl)
    | _ => rfl
  | wrDm y =>
    cases other with
    | wrDm y' => exact List.getElem?_set_ne (by rintro rfl; exact h rfl)
    | _ => rfl
  | wrDqs y =>
    cases other with
    | wrDqs y' => exact List.getElem?_set_ne (by rintro rfl; exact h rfl)
    | _ => rfl
  | rdDq b =>
    cases other with
    | rdDq b' => exact List.getElem?_set_ne (by rintro rfl; exact h rfl)
    | _ => rfl

/-- Writing back what a group holds changes nothing. -/
theorem list_set_of_getElem? {ts : List Transcoder} {k : Nat} {t : Transcoder} (h : ts[k]? = some t) :
    ts.set k t = ts := by
  obtain ⟨hk, rfl⟩ := List.getElem?_eq_some_iff.1 h
  exact List.set_getElem_self hk

theorem setInstance_self {s : State} {lane : Lane} {t : Transcoder} (h : instanceAt s lane = some t) :
    setInstance s lane t = s := by
  cases lane <;> simp only [setInstance, list_set_of_getElem? h]

/-! ### The four operations -/

section
variable {s : State} {lane : Lane} {t : Transcoder} (h : instanceAt s lane = some t)
include h

theorem exec_bsOut : exec (.bsOut lane) s = .next { s with ret := .word (window s.cfg.W t) } := by
  change execBsOut lane s = _
  unfold execBsOut; rw [h]; rfl

theorem exec_bsStep {x : Bits} (rst : Bool) (hx : x.length = s.cfg.W) :
    exec (.bsStep lane x rst) s = .next (setInstance s lane (shiftIn s.cfg.W x rst t)) := by
  change execBsStep lane x rst s = _
  rw [execBsStep, decide_eq_true hx, whenTyped_true, onInstance_of_some h]

theorem exec_bsInc (inc rst : Bool) :
    exec (.bsInc lane inc rst) s = .next (setInstance s lane (rotate s.cfg.W inc rst t)) := onInstance_of_some h

theorem exec_bsRst (rst : Bool) :
    exec (.bsRst lane rst) s = .next (setInstance s lane (clear s.cfg.W s.cfg.sReset rst t)) := onInstance_of_some h

end

/-- The rotation rule as an update of the rotation (R204). -/
theorem rotate_eq (W : Nat) (inc rst : Bool) (t : Transcoder) :
    rotate W inc rst t = { t with rot := if !rst && inc then (t.rot + 1) % W else t.rot } := by
  cases rst <;> cases inc <;> rfl

/-- Settles O34: each operation replaces the named transcoder by what its rule makes of it. -/
theorem operationsOnOneTranscoder : Obligations.OperationsOnOneTranscoder := by
  intro s lane t hs h
  have fits := hs.fits_of_instanceAt h
  refine ⟨⟨_, exec_bsOut h, length_window fits, fun i hi => bitAt_window hi⟩, fun x rst hx => ?_, fun inc rst => ?_,
    exec_bsRst h true, ?_, fun t' => ⟨instanceAt_setInstance h t', fun _ hne => instanceAt_setInstance_of_ne hne t'⟩⟩
  · refine ⟨_, exec_bsStep h rst hx, ?_, ?_, ?_⟩
    · cases rst <;> rfl
    · rintro rfl; rfl
    · rintro rfl
      obtain ⟨length, bits, -⟩ := transcode_transcodes (sReset := 0) false false fits hx
      exact ⟨length, bits⟩
  · rw [exec_bsInc h, rotate_eq]
  · rw [exec_bsRst h]
    exact congrArg _ (setInstance_self h)

/-- Settles O35: the three replacements compose to `transcode`, the table of R206. -/
theorem threeRulesMakeTheTable : Obligations.ThreeRulesMakeTheTable := by
  intro s s1 s2 s3 lane t x rst inc hs h hx h1 h2 h3
  rw [exec_bsStep h rst hx] at h1
  obtain rfl := Host.Outcome.next.inj h1
  have i1 := instanceAt_setInstance h (shiftIn s.cfg.W x rst t)
  rw [exec_bsInc i1] at h2
  obtain rfl := Host.Outcome.next.inj h2
  have i2 := instanceAt_setInstance i1 (rotate s.cfg.W inc rst (shiftIn s.cfg.W x rst t))
  rw [setInstance_cfg, exec_bsRst i2] at h3
  obtain rfl := Host.Outcome.next.inj h3
  refine ⟨_, instanceAt_setInstance i2 _, ?_⟩
  rw [setInstance_cfg, setInstance_cfg, clear_rotate_shiftIn]
  exact transcode_transcodes rst inc (hs.fits_of_instanceAt h) hx

/-- `k` increments without reset (R204). -/
theorem rotate_iterate {W : Nat} {t : Transcoder} (ht : t.Fits W) (k : Nat) :
    (fun u => rotate W true false u)^[k] t = { t with rot := (t.rot + k) % W } := by
  induction k with
  | zero => rw [Nat.add_zero, Nat.mod_eq_of_lt ht.2]; rfl
  | succ k ih =>
    rw [Function.iterate_succ_apply', ih]
    simp only [rotate, Bool.false_eq_true, if_false, if_true, Nat.mod_add_mod, Nat.add_assoc]

/-- Settles O36: `W` increments add `W`, which is 0 modulo `W`. -/
theorem incrementsCountModuloW : Obligations.IncrementsCountModuloW := by
  intro W t k ht
  refine ⟨by rw [rotate_iterate ht], by rw [rotate_iterate ht], ?_⟩
  rw [rotate_iterate ht, Nat.add_mod_right, Nat.mod_eq_of_lt ht.2]

/-! ### The data paths -/

/-- The table of R206 reads the first `W` bits of an input word only. -/
theorem GroupTranscodes.congr {n W sReset : Nat} {x x' : Nat → Nat → Bool} {rst inc : Nat → Bool}
    {ts ts' : List Transcoder} (h : GroupTranscodes n W sReset x rst inc ts ts')
    (hx : ∀ k < n, ∀ i < W, x k i = x' k i) : GroupTranscodes n W sReset x' rst inc ts ts' := by
  obtain ⟨hl, hl', each⟩ := h
  refine ⟨hl, hl', fun k hk t t' ht ht' => ?_⟩
  have step := each k hk t t' ht ht'
  unfold Transcodes at step ⊢
  split_ifs at step ⊢ with hr hi
  · exact step
  · obtain ⟨length, bits, rot⟩ := step
    exact ⟨length, fun i hiW => ⟨(bits i hiW).1, ((bits i hiW).2).trans (hx k hk i hiW)⟩, rot⟩
  · obtain ⟨length, bits, rot⟩ := step
    exact ⟨length, fun i hiW => ⟨(bits i hiW).1, ((bits i hiW).2).trans (hx k hk i hiW)⟩, rot⟩

theorem wrDqNext_groupTranscodes {c : Cfg} {ts : List Transcoder} (inp : In) (hg : Group c.N c.W ts) :
    GroupTranscodes c.N c.W c.sReset (fun b i => bitAt (phaseAt inp (i / 2)).wrData (i % 2 * c.N + b))
      (fun b => wrRst inp.ctl (b / 8)) (fun b => wrInc inp.ctl (b / 8)) ts (wrDqNext c inp ts) :=
  (transcodeAll_groupTranscodes hg fun _ _ => length_wrIn ..).congr fun b _ _ hi => bitAt_wrIn c.R c.N inp b hi

theorem wrDmNext_groupTranscodes {n : Nat} {c : Cfg} {ts : List Transcoder} (inp : In) (hg : Group n c.W ts) :
    GroupTranscodes n c.W c.sReset (fun y i => bitAt (phaseAt inp (i / 2)).wrMask (i % 2 * c.NB + y))
      (wrRst inp.ctl) (wrInc inp.ctl) ts (wrDmNext c inp ts) :=
  (transcodeAll_groupTranscodes hg fun _ _ => length_dmIn ..).congr fun y _ _ hi => bitAt_dmIn c.R c.NB inp y hi

theorem wrDqsNext_groupTranscodes {c : Cfg} {sw : Bits} {ts : List Transcoder} (inp : In) (hw : sw.length = c.W)
    (hg : Group c.NB c.W ts) : GroupTranscodes c.NB c.W c.sReset (fun _ => bitAt sw)
      (wrRst inp.ctl) (wrInc inp.ctl) ts (wrDqsNext c inp sw ts) :=
  transcodeAll_groupTranscodes hg fun _ _ => hw

theorem rdDqNext_groupTranscodes {c : Cfg} {pad : PadInLanes Bits} {ts : List Transcoder} (inp : In)
    (hp : padShaped c.R c.N pad = true) (hg : Group c.N c.W ts) :
    GroupTranscodes c.N c.W c.sReset (fun b => bitAt (wordAt pad.dqI b))
      (fun b => rdRst inp.ctl (b / 8)) (fun b => rdInc inp.ctl (b / 8)) ts (rdDqNext c inp pad ts) :=
  transcodeAll_groupTranscodes hg fun _ hk => length_wordAt (padShaped_iff.1 hp).1 hk

/-- Settles O37: the words are the windows, and the group takes one step with its assembled words. -/
theorem writeDataPath : Obligations.WriteDataPath := by
  intro s hs
  obtain ⟨-, -, -, -, -, -, wrDq, -⟩ := hs.regs
  exact ⟨_, _, rfl, windows_groupShows wrDq, wrDqNext_groupTranscodes s.inp wrDq⟩

/-- Settles O38: with mask lanes as the data path; without them the group is empty and the words are 0. -/
theorem writeMaskAndStrobePaths : Obligations.WriteMaskAndStrobePaths := by
  intro s hs
  obtain ⟨-, -, -, -, -, -, -, wrDm, wrDqs, -⟩ := hs.regs
  refine ⟨⟨_, _, _, rfl, fun hm => ?_, fun hm => ?_⟩, ⟨_, _, rfl, windows_groupShows wrDqs,
    wrDqsNext_groupTranscodes s.inp hs.strobeWord wrDqs⟩⟩
  · rw [if_pos hm] at wrDm
    refine ⟨by rw [dmiOeOf, hm, Bool.true_and], ?_, wrDmNext_groupTranscodes s.inp wrDm⟩
    rw [maskWords, if_pos hm]
    exact windows_groupShows wrDm
  · have empty : s.regs.wrDm = [] := List.eq_nil_of_length_eq_zero (by rw [wrDm.1, hm]; rfl)
    refine ⟨by rw [dmiOeOf, hm, Bool.false_and], ?_, by rw [empty]; rfl⟩
    rw [maskWords, if_neg (by simp [hm])]
    rfl

/-- Settles O39: the read group takes one step with its pad words; each read word is distributed over the phases. -/
theorem readDataPathAndDistribution : Obligations.ReadDataPathAndDistribution := by
  intro s hs
  obtain ⟨-, -, -, -, -, -, -, -, -, rdDq⟩ := hs.regs
  refine ⟨⟨_, _, rfl, windows_groupShows rdDq, rdDqNext_groupTranscodes s.inp hs.padInputs_shaped rdDq⟩,
    ⟨_, rfl, by simp, fun i hi b hb => ⟨rdDataOf s.cfg.N s.wires.rdWord (i / 2), ?_, length_rdDataOf ..,
      bitAt_rdDataOf s.cfg.N s.wires.rdWord i b hb⟩⟩⟩
  have hphase : i / 2 < s.cfg.R := by rw [cfg_W] at hi; omega
  simp [hphase]

/-! ### A bit stream through a transcoder -/

/-- A transcoder that is neither reset nor incremented, step by step (R207). -/
def shifted (W : Nat) (x : Nat → Bits) (inst : Transcoder) : Nat → Transcoder
  | 0 => inst
  | t + 1 => shiftIn W (x t) false (shifted W x inst t)

/-- A step without reset and increment is a shift, whatever the reset value. -/
theorem transcode_false_false (W sReset : Nat) (x : Bits) (t : Transcoder) :
    transcode W sReset x false false t = shiftIn W x false t := rfl

section
variable {W : Nat} {x : Nat → Bits} {inst : Transcoder} (hx : ∀ t, (x t).length = W) (hi : inst.Fits W)

theorem shifted_rot (W : Nat) (x : Nat → Bits) (inst : Transcoder) (t : Nat) :
    (shifted W x inst t).rot = inst.rot := by
  induction t with
  | zero => rfl
  | succ t ih => exact ih

include hx hi

theorem shifted_fits (t : Nat) : (shifted W x inst t).Fits W := by
  induction t with
  | zero => exact hi
  | succ t ih => exact shiftIn_fits ih (hx t)

/-- The high half of the buffer is the word of the step before. -/
theorem bitAt_shifted_high (t : Nat) {i : Nat} (h : i < W) :
    bitAt (shifted W x inst (t + 1)).buf (W + i) = bitAt (x t) i := by
  obtain ⟨-, bits, -⟩ := transcode_transcodes (sReset := 0) false false (shifted_fits hx hi t) (hx t)
  exact (bits i h).2

/-- The low half of the buffer is the word of two steps before. -/
theorem bitAt_shifted_low (t : Nat) {i : Nat} (h : i < W) :
    bitAt (shifted W x inst (t + 2)).buf i = bitAt (x t) i := by
  obtain ⟨-, bits, -⟩ := transcode_transcodes (sReset := 0) false false (shifted_fits hx hi (t + 1)) (hx (t + 1))
  exact ((bits i h).1).trans (bitAt_shifted_high hx hi t h)

/-- Bit `i` of what the transcoder shows, where the window begins below the middle of the buffer. -/
theorem bitAt_window_shifted_low (t : Nat) {i : Nat} (h : inst.rot + i < W) :
    bitAt (window W (shifted W x inst (t + 2))) i = bitAt (x t) (inst.rot + i) := by
  rw [bitAt_window (by omega), shifted_rot, bitAt_shifted_low hx hi t h]

/-- Bit `i` of what the transcoder shows, where the window has reached the newer word. -/
theorem bitAt_window_shifted_high (t : Nat) {i j : Nat} (hiW : i < W) (hj : j < W) (h : inst.rot + i = W + j) :
    bitAt (window W (shifted W x inst (t + 1))) i = bitAt (x t) j := by
  rw [bitAt_window hiW, shifted_rot, h, bitAt_shifted_high hx hi t hj]

end

theorem streamBit_mul_add {W : Nat} (words : Nat → Bits) (q : Nat) {j : Nat} (hj : j < W) :
    streamBit W words (q * W + j) = bitAt (words q) j := by
  rw [streamBit, Nat.mul_comm, Nat.mul_add_div (Nat.zero_lt_of_lt hj), Nat.div_eq_of_lt hj, Nat.add_zero,
    Nat.mul_add_mod, Nat.mod_eq_of_lt hj]

/-- Two steps on, the output stream is the input stream delayed by `2W − S` bits (R207). -/
theorem streamBit_window_shifted {W : Nat} {x : Nat → Bits} {inst : Transcoder} (hx : ∀ t, (x t).length = W)
    (hi : inst.Fits W) {g : Nat} (hg : 2 * W ≤ g) :
    streamBit W (fun t => window W (shifted W x inst t)) g = streamBit W x (g - (2 * W - inst.rot)) := by
  have hW : 0 < W := Nat.zero_lt_of_lt hi.2
  obtain ⟨t, i, hiW, rfl⟩ : ∃ t i, i < W ∧ g = (t + 2) * W + i := by
    have two : 2 ≤ g / W := (Nat.le_div_iff_mul_le hW).2 hg
    refine ⟨g / W - 2, g % W, Nat.mod_lt _ hW, ?_⟩
    rw [Nat.sub_add_cancel two, Nat.div_add_mod']
  rw [streamBit_mul_add _ _ hiW]
  have rot_lt := hi.2
  by_cases hlow : inst.rot + i < W
  · rw [bitAt_window_shifted_low hx hi t hlow,
      show (t + 2) * W + i - (2 * W - inst.rot) = t * W + (inst.rot + i) by rw [Nat.add_mul]; omega,
      streamBit_mul_add _ _ hlow]
  · rw [bitAt_window_shifted_high hx hi (t + 1) (j := inst.rot + i - W) hiW (by omega) (by omega),
      show (t + 2) * W + i - (2 * W - inst.rot) = (t + 1) * W + (inst.rot + i - W) by
        rw [Nat.add_mul, Nat.add_mul]; omega,
      streamBit_mul_add _ _ (by omega)]

/-- Settles O41: a window of the second transcoder lies in two words of the first, whose windows begin `S` later. -/
theorem inverseRotationsRecoverTheStream : Obligations.InverseRotationsRecoverTheStream := by
  intro W S x a b hS hx ha haS hb hbS hanext hbnext t
  have a_eq : ∀ t, a t = shifted W x (a 0) t := fun t => by
    induction t with
    | zero => rfl
    | succ t ih => rw [hanext, ih]; rfl
  have b_eq : ∀ t, b t = shifted W (fun t => window W (a t)) (b 0) t := fun t => by
    induction t with
    | zero => rfl
    | succ t ih => rw [hbnext, ih]; rfl
  have fits : ∀ t, (a t).Fits W := fun t => a_eq t ▸ shifted_fits hx ha t
  have hy : ∀ t, (window W (a t)).length = W := fun t => length_window (fits t)
  rw [b_eq]
  refine bits_ext ((length_window (shifted_fits hy hb _)).trans (hx t).symm) fun i hi => ?_
  rw [length_window (shifted_fits hy hb _)] at hi
  have first_low : ∀ t i, S + i < W → bitAt (window W (a (t + 2))) i = bitAt (x t) (S + i) := fun t i h => by
    rw [a_eq, ← haS]; exact bitAt_window_shifted_low hx ha t (haS ▸ h)
  by_cases hS0 : S = 0
  · subst hS0
    have hb0 : (b 0).rot = 0 := by rw [hbS, Nat.sub_zero, Nat.mod_self]
    rw [if_pos rfl, bitAt_window_shifted_low hy hb (t + 2) (by omega), hb0, Nat.zero_add, first_low t i (by omega),
      Nat.zero_add]
  · have hbrot : (b 0).rot = W - S := by rw [hbS, Nat.mod_eq_of_lt (by omega)]
    rw [if_neg hS0]
    by_cases hlow : i < S
    · rw [bitAt_window_shifted_low hy hb (t + 1) (by omega), hbrot, a_eq,
        bitAt_window_shifted_high hx ha t (j := i) (by omega) hi (by omega)]
    · rw [bitAt_window_shifted_high hy hb (t + 2) (j := i - S) hi (by omega) (by omega),
        first_low t (i - S) (by omega), show S + (i - S) = i by omega]

/-! ### The lanes of a run -/

theorem length_of_some {n W k : Nat} {ts : List Transcoder} {i : Transcoder} (hg : Group n W ts)
    (hi : ts[k]? = some i) : k < n ∧ i.Fits W :=
  ⟨hg.1 ▸ (List.getElem?_eq_some_iff.1 hi).1, hg.2 i (List.mem_of_getElem? hi)⟩

/-- A lane of a group that steps with the run, neither reset nor incremented, delays its stream by `2W − S` bits. -/
theorem streamBit_windows {W sReset k : Nat} {group : Nat → List Transcoder} {x : Nat → Nat → Bits}
    {rst inc : Nat → Nat → Bool} {inst : Transcoder} (hi : inst.Fits W) (h0 : (group 0)[k]? = some inst)
    (hstep : ∀ t, group (t + 1) = transcodeAll W sReset (x t) (rst t) (inc t) (group t))
    (hx : ∀ t, (x t k).length = W) (still : ∀ t, rst t k = false ∧ inc t k = false) {g : Nat} (hg : 2 * W ≤ g) :
    streamBit W (fun t => wordAt (windows W (group t)) k) g
      = streamBit W (fun t => x t k) (g - (2 * W - inst.rot)) := by
  have lane : ∀ t, (group t)[k]? = some (shifted W (fun t => x t k) inst t) := fun t => by
    induction t with
    | zero => exact h0
    | succ t ih =>
      rw [hstep, getElem?_transcodeAll, ih, (still t).1, (still t).2, Option.map_some, transcode_false_false]
      rfl
  have shown : (fun t => wordAt (windows W (group t)) k) = fun t => window W (shifted W (fun t => x t k) inst t) := by
    funext t
    rw [wordAt, windows, List.getD_eq_getElem?_getD, List.getElem?_map, lane t]
    rfl
  rw [shown, streamBit_window_shifted hx hi hg]

/-- The read-data transcoders take the inner block's pad words: the step's, or those the wrapper made (R211, R255). -/
theorem takeStep_regs_rdDq_eq (inp : In) (s : State) : (takeStep inp s).regs.rdDq
    = rdDqNext s.cfg inp (if s.cfg.wrapped then (takeStep inp s).wires.padIn else inp.pad) s.regs.rdDq := by
  simp [takeStep_regs, takeStep_wires, regsNext, wiresOf, padInputs]

theorem takeStep_out_dqO (inp : In) (s : State) :
    (takeStep inp s).out.pad.dqO = windows s.cfg.W s.regs.wrDq := by simp [takeStep_out, outOf]

theorem takeStep_out_dmiO (inp : In) (s : State) :
    (takeStep inp s).out.pad.dmiO = maskWords s.cfg s.regs.wrDm := by simp [takeStep_out, outOf]

theorem takeStep_out_dqsO (inp : In) (s : State) :
    (takeStep inp s).out.pad.dqsO = windows s.cfg.W s.regs.wrDqs := by simp [takeStep_out, outOf]

/-- The strobe group takes the strobe word that the step shows (R210). -/
theorem takeStep_regs_wrDqs_eq (inp : In) (s : State) : (takeStep inp s).regs.wrDqs
    = wrDqsNext s.cfg inp (takeStep inp s).wires.strobeWord s.regs.wrDqs := by
  rw [takeStep_regs_wrDqs, takeStep_wires_strobeWord]

/-- Settles O40: the four groups of a run step with the words of their paths and show their windows. -/
theorem lanesDelayByTwoWMinusS : Obligations.LanesDelayByTwoWMinusS := by
  intro ins states inst h h0 c
  obtain ⟨-, -, -, -, -, -, wrDq, wrDm, wrDqs, rdDq⟩ := h0.regs
  have cfg : ∀ t, (states t).cfg = c := fun t => (h.constants t).1
  refine ⟨fun b still hinst g hg => ?_, fun b still hinst g hg => ?_, fun y still => ⟨fun hinst g hg => ?_,
    fun hinst g hg => ?_⟩⟩
  · obtain ⟨hb, fits⟩ := length_of_some rdDq hinst
    have words : (fun t => wordAt (states (t + 1)).wires.rdWord b)
        = fun t => wordAt (windows c.W (states t).regs.rdDq) b := by
      funext t; rw [(h.step t).1, takeStep_wires_rdWord, cfg t]
    rw [words]
    refine streamBit_windows (sReset := c.sReset) (group := fun t => (states t).regs.rdDq)
      (x := fun t => wordAt (if c.wrapped then (states (t + 1)).wires.padIn else (ins t).pad).dqI)
      (rst := fun t b => rdRst (ins t).ctl (b / 8)) (inc := fun t b => rdInc (ins t).ctl (b / 8)) fits hinst
      (fun t => ?_) (fun t => ?_) still hg
    · have next := takeStep_regs_rdDq_eq (ins t) (states t)
      rw [← (h.step t).1, cfg t] at next
      exact next
    · have inv := h.inv h0 (t + 1)
      have shaped := (h.step t).2
      have padIn := inv.padIn
      rw [cfg] at shaped padIn
      refine length_wordAt (n := c.N) ?_ hb
      split_ifs
      · exact (padShaped_iff.1 padIn).1
      · exact (padShaped_iff.1 (shaped_iff.1 shaped).2.2.2).1
  · obtain ⟨hb, fits⟩ := length_of_some wrDq hinst
    have words : (fun t => wordAt (states (t + 1)).out.pad.dqO b)
        = fun t => wordAt (windows c.W (states t).regs.wrDq) b := by
      funext t; rw [(h.step t).1, takeStep_out_dqO, cfg t]
    rw [words]
    refine streamBit_windows (sReset := c.sReset) (group := fun t => (states t).regs.wrDq)
      (x := fun t => wrIn c.R c.N (ins t))
      (rst := fun t b => wrRst (ins t).ctl (b / 8)) (inc := fun t b => wrInc (ins t).ctl (b / 8)) fits hinst
      (fun t => ?_) (fun t => length_wrIn ..) still hg
    rw [(h.step t).1, takeStep_regs_wrDq, cfg t]
    rfl
  · obtain ⟨hy, fits⟩ := length_of_some wrDm hinst
    have live : c.maskedWrite = true := by
      by_contra hm
      have absent := h0.instanceAt_wrDm (by simpa using hm) y
      rw [show instanceAt (states 0) (.wrDm y) = some inst from hinst] at absent
      cases absent
    have words : (fun t => wordAt (states (t + 1)).out.pad.dmiO y)
        = fun t => wordAt (windows c.W (states t).regs.wrDm) y := by
      funext t; rw [(h.step t).1, takeStep_out_dmiO, cfg t, maskWords, if_pos live]
    rw [words]
    refine streamBit_windows (sReset := c.sReset) (x := fun t => dmIn c.R c.NB (ins t)) fits hinst (fun t => ?_)
      (fun t => length_dmIn ..) still hg
    rw [(h.step t).1, takeStep_regs_wrDm, cfg t]
    rfl
  · obtain ⟨hy, fits⟩ := length_of_some wrDqs hinst
    have words : (fun t => wordAt (states (t + 1)).out.pad.dqsO y)
        = fun t => wordAt (windows c.W (states t).regs.wrDqs) y := by
      funext t; rw [(h.step t).1, takeStep_out_dqsO, cfg t]
    rw [words]
    refine streamBit_windows (sReset := c.sReset) (x := fun t _ => (states (t + 1)).wires.strobeWord) fits hinst
      (fun t => ?_) (fun t => ?_) still hg
    · have next := takeStep_regs_wrDqs_eq (ins t) (states t)
      rw [← (h.step t).1, cfg t] at next
      exact next
    · rw [(h.inv h0 (t + 1)).strobeWord, cfg]

end Sys2Proof.Machine
end

section
/-! Command arbiter (R165 to R179): the rows of a step, the slot stream, and the agreement of the registers with it. -/

namespace Sys2Proof.Machine

/-! ### The rows of one step -/

theorem length_phases {s : State} (h : s.Inv) : s.inp.phases.length = s.cfg.R := (shaped_iff.1 h.inp).1

theorem phase_lt {R N p : Nat} {inp : In} {ph : Phase} (h : inp.shaped R N = true) (hp : inp.phases[p]? = some ph) :
    p < R := (shaped_iff.1 h).1 ▸ (List.getElem?_eq_some_iff.1 hp).1

/-- Settles O25: the window and the bits, entry by entry. -/
theorem historyAndAllowedBits : Obligations.HistoryAndAllowedBits := by
  intro s hs
  refine ⟨⟨_, rfl, ?_, rfl, rfl, rfl, fun p ph hp => bitAt_histWindow _ _ _ p ph hp⟩,
    ⟨_, rfl, length_allowedBits .., fun p hp => bitAt_allowedBits _ _ hp⟩⟩
  rw [length_histWindow, length_phases hs]

/-- Settles O26: each entry of the contributions and of the bus window, bit by bit. -/
theorem slippedContributionsAreOred : Obligations.SlippedContributionsAreOred := by
  intro s hs
  refine ⟨⟨_, rfl, length_contribRows .., fun p ph hp => ⟨_, getElem?_contribRows _ _ _ (phase_lt hs.inp hp),
    by simp [lookback], fun m row hm l hl => ?_⟩⟩, ⟨_, rfl, length_busWindow .., fun m row hm l hl => ?_⟩⟩
  · obtain ⟨hlt, rfl⟩ := List.getElem?_eq_some_iff.1 hm
    rw [List.getElem_map, List.getElem_range, phaseAt_of_getElem? hp, getLsbD_contribution, getLsbD_payRow ph _ l hl]
  · have hlt : m < s.cfg.R + 3 := by
      rw [← length_busWindow]; exact (List.getElem?_eq_some_iff.1 hm).1
    have hrow : row = (busWindow s.cfg.R s.regs.arb s.wires.contrib).getD m 0 := by
      rw [List.getD_eq_getElem?_getD, hm]; rfl
    rw [hrow, getD_busWindow _ _ _ hlt, getLsbD_foldl_or]

/-- Settles O27: the lanes are the registers, and the registers take the fields of the phases. -/
theorem commandClockAndSimpleLanes : Obligations.CommandClockAndSimpleLanes := by
  intro s hs
  obtain ⟨-, -, outw, -⟩ := hs.regs
  have phases := length_phases hs
  refine ⟨⟨_, _, rfl, (length_laneOf ..).trans outw, (caLanes_words _).1, fun j row hrow => ⟨bitAt_laneOf 0 hrow,
    fun l lane hlane => ?_⟩⟩, rfl, ⟨_, _, _, rfl, (List.length_map ..).trans phases, (List.length_map ..).trans phases,
    (List.length_map ..).trans phases, fun p ph hp => ⟨bitAt_map _ _ _ _ hp, bitAt_map _ _ _ _ hp,
    bitAt_map _ _ _ _ hp⟩⟩⟩
  have hl : l < 6 := (caLanes_words s.regs.arb.outw).1 ▸ (List.getElem?_eq_some_iff.1 hlane).1
  obtain rfl : laneOf s.regs.arb.outw (l + 1) = lane := Option.some.inj ((getElem?_caLanes _ hl).symm.trans hlane)
  exact ⟨(length_laneOf ..).trans outw, bitAt_laneOf (l + 1) hrow⟩

/-- Settles O28: the window, the bits and the bus of `arbiterNext`. -/
theorem arbiterRegisterForm : Obligations.ArbiterRegisterForm := by
  intro s hs
  refine ⟨_, histWindow s.cfg.arbHistory s.regs.arb s.inp, allowedBits s.cfg.arbEnable s.cfg.R
    (histWindow s.cfg.arbHistory s.regs.arb s.inp), _, rfl, rfl, rfl, rfl, fun p ph hp =>
    ⟨bitAt_allowedBits _ _ (phase_lt hs.inp hp), bitAt_histWindow _ _ _ p ph hp⟩, length_busWindow ..,
    fun m hm l hl => ?_, rfl, rfl, rfl, rfl, rfl, rfl, rfl⟩
  rw [getLsbD_busWindow _ _ _ _ _ _ hm]
  refine or_congr_right ⟨?_, ?_⟩
  · rintro ⟨p, k, hp, hk, rfl, allowed, bit⟩
    have hlt : p < s.inp.phases.length := hp.trans_eq (length_phases hs).symm
    have phase : s.inp.phases[p]? = some s.inp.phases[p] := List.getElem?_eq_getElem hlt
    exact ⟨p, k, _, phase, hk, rfl, allowed, by rwa [phaseAt_of_getElem? phase] at bit⟩
  · rintro ⟨p, k, ph, phase, hk, rfl, allowed, bit⟩
    exact ⟨p, k, phase_lt hs.inp phase, hk, rfl, allowed, by rwa [phaseAt_of_getElem? phase]⟩

/-! ### The slot stream -/

section
variable {mode : ArbHistory} {V : Nat → Bool} {n : Nat}

theorem slotHist_filtered (V : Nat → Bool) (n : Nat) :
    slotHist .filtered V n = (V n && slotAllowed true .filtered V n) := rfl

/-- One slot on, the history moves by one and takes the slot's bit (R167). -/
theorem slotsBefore_succ (mode : ArbHistory) (V : Nat → Bool) (n : Nat) :
    slotsBefore mode V (n + 1)
      = (slotHist mode V n, (slotsBefore mode V n).1, (slotsBefore mode V n).2.1) := by
  cases mode <;> rfl

/-- The three history bits before slot `n`, 0 for a slot before slot 0 (R167). -/
theorem slotsBefore_eq (mode : ArbHistory) (V : Nat → Bool) (n : Nat) :
    slotsBefore mode V n = (decide (1 ≤ n) && slotHist mode V (n - 1), decide (2 ≤ n) && slotHist mode V (n - 2),
      decide (3 ≤ n) && slotHist mode V (n - 3)) := by
  induction n with
  | zero => rfl
  | succ n ih => rw [slotsBefore_succ, ih]; simp

theorem slotAllowed_eq (enable : Bool) (mode : ArbHistory) (V : Nat → Bool) (n : Nat) :
    slotAllowed enable mode V n = if enable then
      !((slotsBefore mode V n).1 || (slotsBefore mode V n).2.1 || (slotsBefore mode V n).2.2) else true := rfl

/-- With masking on, a slot is allowed where the history bits of the three slots before it are 0 (R168). -/
theorem slotAllowed_iff : slotAllowed true mode V n = true
    ↔ ∀ d, 0 < d → d ≤ 3 → d ≤ n → slotHist mode V (n - d) = false := by
  rw [slotAllowed_eq, slotsBefore_eq]
  simp only [if_true, Bool.not_eq_true', Bool.or_eq_false_iff, Bool.and_eq_false_imp, decide_eq_true_eq]
  constructor
  · rintro ⟨⟨h1, h2⟩, h3⟩ d h0 hd hn
    rcases (by omega : d = 1 ∨ d = 2 ∨ d = 3) with rfl | rfl | rfl
    · exact h1 hn
    · exact h2 hn
    · exact h3 hn
  · exact fun h => ⟨⟨h 1 (by omega) (by omega), h 2 (by omega) (by omega)⟩, h 3 (by omega) (by omega)⟩

/-- A history bit is set for a valid slot only. -/
theorem valid_of_slotHist (h : slotHist mode V n = true) : V n = true := by
  cases mode with
  | raw => exact h
  | filtered => rw [slotHist_filtered, Bool.and_eq_true] at h; exact h.1

/-- A valid and allowed slot sets its history bit, in either mode. -/
theorem slotHist_of_allowed (hv : V n = true) (ha : slotAllowed true mode V n = true) :
    slotHist mode V n = true := by
  cases mode with
  | raw => exact hv
  | filtered => rw [slotHist_filtered, hv, ha]; rfl

theorem slotAllowed_of_free (h : ∀ d, 0 < d → d ≤ 3 → d ≤ n → V (n - d) = false) :
    slotAllowed true mode V n = true :=
  slotAllowed_iff.2 fun d h0 h3 hn => by
    by_contra hset
    have := valid_of_slotHist (Bool.not_eq_false _ ▸ hset)
    rw [h d h0 h3 hn] at this
    cases this

theorem not_slotAllowed_of_slotHist {d : Nat} (h0 : 0 < d) (h3 : d ≤ 3) (hset : slotHist mode V n = true) :
    slotAllowed true mode V (n + d) = false := by
  by_contra hallowed
  have := slotAllowed_iff.1 (Bool.not_eq_false _ ▸ hallowed) d h0 h3 (Nat.le_add_left d n)
  rw [Nat.add_sub_cancel, hset] at this
  cases this

/-- Of two valid slots within the lookback of each other one is not allowed, in either mode. -/
theorem allowed_slots_apart {n' : Nat} (hv : V n = true) (ha : slotAllowed true mode V n = true)
    (hv' : V n' = true) (ha' : slotAllowed true mode V n' = true) (hnear : n ≤ n' + 3) (hnear' : n' ≤ n + 3) :
    n = n' := by
  have later : ∀ {a b : Nat}, V a = true → slotAllowed true mode V a = true → slotAllowed true mode V b = true →
      b ≤ a + 3 → ¬ a < b := fun {a b} hva haa hab hle hlt => by
    have := not_slotAllowed_of_slotHist (mode := mode) (V := V) (n := a) (d := b - a) (by omega) (by omega)
      (slotHist_of_allowed hva haa)
    rw [Nat.add_sub_cancel' hlt.le, hab] at this
    cases this
  exact Nat.le_antisymm (Nat.not_lt.1 (later hv' ha' ha hnear)) (Nat.not_lt.1 (later hv ha ha' hnear'))

end

/-! ### Contributions of the stream -/

/-- Everything a slot that contributes to a fast tick is: valid, allowed, and within a command's length before it. -/
theorem of_slotContrib_ne_zero {V allowed : Nat → Bool} {P : Nat → Nat → Row} (hP : ZeroRowsWhenInvalid V P)
    {n m : Nat} (h : slotContrib allowed P n m ≠ 0) : V n = true ∧ allowed n = true ∧ n ≤ m ∧ m ≤ n + 3 := by
  unfold slotContrib at h
  split_ifs at h with hm
  · obtain ⟨hle, hlt⟩ := hm
    refine ⟨?_, ?_, hle, Nat.le_of_lt_succ hlt⟩
    · by_contra hv
      exact h (by rw [hP n (by simpa using hv)]; simp)
    · by_contra ha
      exact h (by simp [repRow, ha])
  · exact absurd rfl h

theorem slotContrib_of_allowed {allowed : Nat → Bool} (P : Nat → Nat → Row) {n k : Nat} (hk : k < 4)
    (ha : allowed n = true) : slotContrib allowed P n (n + k) = P n k := by
  have inside : n ≤ n + k ∧ n + k < n + cmdTicks := ⟨by omega, Nat.add_lt_add_left hk n⟩
  rw [slotContrib, if_pos inside, ha, repRow, if_pos rfl, BitVec.allOnes_and, Nat.add_sub_cancel_left]

/-- Settles O32: two slots that reach one fast tick lie within the lookback of each other. -/
theorem atMostOneCommandOnTheBus : Obligations.AtMostOneCommandOnTheBus := by
  intro mode V P hP n n' m h h'
  obtain ⟨hv, ha, hle, hge⟩ := of_slotContrib_ne_zero hP h
  obtain ⟨hv', ha', hle', hge'⟩ := of_slotContrib_ne_zero hP h'
  exact allowed_slots_apart hv ha hv' ha' (by omega) (by omega)

/-- Settles O31: an allowed command is alone on its four fast ticks; in the raw history a valid slot shuts the next
three out. -/
theorem spacedCommandsAppearAndCloseOnesVanish : Obligations.SpacedCommandsAppearAndCloseOnesVanish := by
  intro mode V P hP
  refine ⟨fun n hv hfree k hk => ?_, fun n d h0 h3 hn hv m => ?_⟩
  · have ha : slotAllowed true mode V n = true := slotAllowed_of_free hfree
    have back : ∀ d ≤ 3, slotContribBack (slotAllowed true mode V) P (n + k) d = if d = k then P n k else 0 := by
      intro d hd
      unfold slotContribBack
      split_ifs with hle hdk hdk
      · rw [hdk, Nat.add_sub_cancel]; exact slotContrib_of_allowed P hk ha
      · by_contra hne
        obtain ⟨hv', ha', -, -⟩ := of_slotContrib_ne_zero hP hne
        have := allowed_slots_apart hv ha hv' ha' (by omega) (by omega)
        omega
      · omega
      · rfl
    rw [slotBus, back 0 (by omega), back 1 (by omega), back 2 (by omega), back 3 (by omega)]
    rcases (by omega : k = 0 ∨ k = 1 ∨ k = 2 ∨ k = 3) with rfl | rfl | rfl | rfl <;> simp
  · have shut : slotAllowed true .raw V n = false := by
      have := not_slotAllowed_of_slotHist (mode := .raw) (V := V) (n := n - d) h0 h3 hv
      rwa [Nat.sub_add_cancel hn] at this
    by_contra hne
    unfold slotContrib at hne
    simp [shut, repRow] at hne

/-- Settles O33: in either mode the first slot shuts the second out; only in the raw history does the second, shut
out, still shut out the third. -/
theorem historyModesOnAChainOfCommands : Obligations.HistoryModesOnAChainOfCommands := by
  intro V n hfree h0 h1 h2 h3 h4
  have start : ∀ mode, slotAllowed true mode V n = true := fun mode => slotAllowed_of_free hfree
  have second : ∀ mode, slotAllowed true mode V (n + 2) = false := fun mode =>
    not_slotAllowed_of_slotHist (by omega) (by omega) (slotHist_of_allowed h0 (start mode))
  refine ⟨start _, second _, ?_, start _, second _, ?_⟩
  · exact not_slotAllowed_of_slotHist (n := n + 2) (d := 2) (by omega) (by omega) h2
  · refine slotAllowed_iff.2 fun d hd hd3 _ => ?_
    rw [slotHist_filtered]
    rcases (by omega : d = 1 ∨ d = 2 ∨ d = 3) with rfl | rfl | rfl
    · rw [show n + 4 - 1 = n + 3 by omega, h3, Bool.false_and]
    · rw [show n + 4 - 2 = n + 2 by omega, second, Bool.and_false]
    · rw [show n + 4 - 3 = n + 1 by omega, h1, Bool.false_and]

/-! ### What the first slots have placed on a fast tick -/

/-- The or of the contributions of the first `b` slots to fast tick `m`. -/
def placed (contrib : Nat → Nat → Row) (b m : Nat) : Row :=
  (List.range b).foldl (fun acc n => acc ||| contrib n m) 0

theorem placed_add (contrib : Nat → Nat → Row) (b k m : Nat) : placed contrib (b + k) m
    = (List.range k).foldl (fun acc p => acc ||| contrib (b + p) m) (placed contrib b m) := by
  rw [placed, placed, List.range_add, List.foldl_append, List.foldl_map]

theorem getLsbD_placed (contrib : Nat → Nat → Row) (b m l : Nat) :
    (placed contrib b m).getLsbD l = true ↔ ∃ n < b, (contrib n m).getLsbD l = true := by
  rw [placed, getLsbD_foldl_or (fun n => contrib n m)]
  simp

section
variable (allowed : Nat → Bool) (P : Nat → Nat → Row)

/-- No slot reaches beyond its four fast ticks (R169). -/
theorem slotContrib_eq_zero {n m : Nat} (h : n + 4 ≤ m) : slotContrib allowed P n m = 0 := by
  have outside : ¬ (n ≤ m ∧ m < n + cmdTicks) := fun hm => absurd hm.2 (Nat.not_lt.2 h)
  rw [slotContrib, if_neg outside]

theorem placed_eq_zero {b m : Nat} (h : b + 3 ≤ m) : placed (slotContrib allowed P) b m = 0 := by
  refine BitVec.eq_of_getLsbD_eq fun l _ => ?_
  change _ = (0#7).getLsbD l
  rw [BitVec.getLsbD_zero]
  refine Bool.eq_false_iff.2 fun hbit => ?_
  obtain ⟨n, hn, hbit⟩ := (getLsbD_placed ..).1 hbit
  rw [slotContrib_eq_zero allowed P (by omega)] at hbit
  simp at hbit

/-- Once the slots up to fast tick `m` are in, the bus has its value there (R170). -/
theorem placed_eq_slotBus {b m : Nat} (h : m < b) : placed (slotContrib allowed P) b m = slotBus allowed P m := by
  refine BitVec.eq_of_getLsbD_eq fun l _ => Bool.eq_iff_iff.2 ?_
  rw [getLsbD_placed]
  simp only [slotBus, BitVec.getLsbD_or, Bool.or_eq_true]
  have back : ∀ d, (slotContribBack allowed P m d).getLsbD l = true
      ↔ d ≤ m ∧ (slotContrib allowed P (m - d) m).getLsbD l = true := fun d => by
    unfold slotContribBack
    split_ifs with hd <;> simp [hd]
  constructor
  · rintro ⟨n, -, hbit⟩
    have near : n ≤ m ∧ m < n + 4 := by
      by_contra hfar
      have outside : ¬ (n ≤ m ∧ m < n + cmdTicks) := hfar
      rw [slotContrib, if_neg outside] at hbit
      simp at hbit
    have slot : (slotContribBack allowed P m (m - n)).getLsbD l = true := by
      rw [back, Nat.sub_sub_self near.1]; exact ⟨by omega, hbit⟩
    rcases (by omega : m - n = 0 ∨ m - n = 1 ∨ m - n = 2 ∨ m - n = 3) with hd | hd | hd | hd <;>
      rw [hd] at slot <;> simp [slot]
  · have slot : ∀ d, (slotContribBack allowed P m d).getLsbD l = true →
        ∃ n < b, (slotContrib allowed P n m).getLsbD l = true :=
      fun d hd => ⟨m - d, by omega, ((back d).1 hd).2⟩
    rintro (((hd | hd) | hd) | hd)
    · exact slot 0 hd
    · exact slot 1 hd
    · exact slot 2 hd
    · exact slot 3 hd

end

/-! ### One step against the stream -/

theorem slotValid_mul_add (ins : Nat → In) (t : Nat) {R p : Nat} (hp : p < R) :
    slotValid R ins (R * t + p) = (phaseAt (ins t) p).cmdValid := by
  rw [slotValid, Nat.mul_add_div (Nat.zero_lt_of_lt hp), Nat.div_eq_of_lt hp, Nat.add_zero, Nat.mul_add_mod,
    Nat.mod_eq_of_lt hp]

theorem slotRow_mul_add (ins : Nat → In) (t k : Nat) {R p : Nat} (hp : p < R) :
    slotRow R ins (R * t + p) k = payRow (phaseAt (ins t) p) k := by
  rw [slotRow, Nat.mul_add_div (Nat.zero_lt_of_lt hp), Nat.div_eq_of_lt hp, Nat.add_zero, Nat.mul_add_mod,
    Nat.mod_eq_of_lt hp]

/-- Phase `p` of a record of `R` phases. -/
theorem getElem?_phases {R N p : Nat} {inp : In} (h : inp.shaped R N = true) (hp : p < R) :
    inp.phases[p]? = some (phaseAt inp p) := by
  have hlt : p < inp.phases.length := hp.trans_eq (shaped_iff.1 h).1.symm
  have phase : inp.phases[p]? = some inp.phases[p] := List.getElem?_eq_getElem hlt
  rw [phase, phaseAt_of_getElem? phase]

/-- Three neighbouring entries of the window, newest first. -/
def historyAt (H : List Bool) (p : Nat) : Bool × Bool × Bool := (bitAt H (p + 2), bitAt H (p + 1), bitAt H p)

/-- The history bits before the next slot, from those before a slot and the slot's validity bit (R167). -/
def pushSlot (mode : ArbHistory) (valid : Bool) (h : Bool × Bool × Bool) : Bool × Bool × Bool :=
  (match mode with
    | .raw => valid
    | .filtered => valid && !(h.1 || h.2.1 || h.2.2), h.1, h.2.1)

/-- The history bits before slot `n`, where those before slot 0 are `h0`. -/
def historyFrom (mode : ArbHistory) (V : Nat → Bool) (h0 : Bool × Bool × Bool) : Nat → Bool × Bool × Bool
  | 0 => h0
  | n + 1 => pushSlot mode (V n) (historyFrom mode V h0 n)

theorem slotsBefore_eq_historyFrom (mode : ArbHistory) (V : Nat → Bool) (n : Nat) :
    slotsBefore mode V n = historyFrom mode V (false, false, false) n := by
  induction n with
  | zero => rfl
  | succ n ih => rw [historyFrom, ← ih]; cases mode <;> rfl

theorem historyAt_succ {mode : ArbHistory} {arb : Arbiter} {inp : In} {p : Nat} {ph : Phase}
    (h : inp.phases[p]? = some ph) : historyAt (histWindow mode arb inp) (p + 1)
      = pushSlot mode ph.cmdValid (historyAt (histWindow mode arb inp) p) := by
  have entry := bitAt_histWindow mode arb inp p ph h
  rw [Nat.add_comm] at entry
  cases mode with
  | raw => exact congrArg (·, _) entry
  | filtered =>
    have newest_to_oldest : before (histWindow .filtered arb inp) p = (bitAt (histWindow .filtered arb inp) (p + 2)
        || bitAt (histWindow .filtered arb inp) (p + 1) || bitAt (histWindow .filtered arb inp) p) := by
      simp only [before, Bool.or_assoc, Bool.or_comm]
    dsimp only at entry
    rw [newest_to_oldest] at entry
    exact congrArg (·, _) entry

/-- Where the registers hold the history before the step's first slot, the window holds it before every slot (R172). -/
theorem historyAt_histWindow {c : Cfg} {ins : Nat → In} {t : Nat} {arb : Arbiter} {h0 : Bool × Bool × Bool}
    (hin : (ins t).shaped c.R c.N = true)
    (harb : historyOf arb = historyFrom c.arbHistory (slotValid c.R ins) h0 (c.R * t)) {p : Nat} (hp : p ≤ c.R) :
    historyAt (histWindow c.arbHistory arb (ins t)) p
      = historyFrom c.arbHistory (slotValid c.R ins) h0 (c.R * t + p) := by
  induction p with
  | zero => exact harb
  | succ p ih =>
    rw [historyAt_succ (getElem?_phases hin (by omega)), ih (by omega), ← slotValid_mul_add ins t (by omega : p < c.R)]
    rfl

/-- The arbiter at the start of step `t` holds what the slots before that step have left (R173). -/
structure AgreesWithStream (c : Cfg) (ins : Nat → In) (t : Nat) (arb : Arbiter) : Prop where
  history : historyOf arb = slotsBefore c.arbHistory (slotValid c.R ins) (c.R * t)
  spill : ∀ m, spillRow arb m = placed (slotContrib (runAllowed c ins) (slotRow c.R ins)) (c.R * t) (c.R * t + m)

theorem agreesWithStream_zero (c : Cfg) (ins : Nat → In) (outw : List Row) :
    AgreesWithStream c ins 0 ⟨false, false, false, 0, 0, 0, outw⟩ where
  history := rfl
  spill
    | 0 | 1 | 2 | _ + 3 => rfl

section
variable {c : Cfg} {ins : Nat → In} {t : Nat} {arb : Arbiter} (hin : (ins t).shaped c.R c.N = true)
  (h : AgreesWithStream c ins t arb)
include hin h

/-- The `allowed` bits of the step are those of its slots (R168). -/
theorem AgreesWithStream.allowed {p : Nat} (hp : p < c.R) :
    bitAt (allowedBits c.arbEnable c.R (histWindow c.arbHistory arb (ins t))) p = runAllowed c ins (c.R * t + p) := by
  have before := historyAt_histWindow hin (h.history.trans (slotsBefore_eq_historyFrom ..)) hp.le
  rw [bitAt_allowedBits _ _ hp, runAllowed, slotAllowed_eq, slotsBefore_eq_historyFrom, ← before, Machine.before,
    historyAt]
  simp only [Bool.or_assoc, Bool.or_comm]

/-- What phase `p` gives to the window is what its slot gives to the stream (R169). -/
theorem AgreesWithStream.contribution {p : Nat} (hp : p < c.R) (m : Nat) :
    contribution (bitAt (allowedBits c.arbEnable c.R (histWindow c.arbHistory arb (ins t))) p) (phaseAt (ins t) p) p m
      = slotContrib (runAllowed c ins) (slotRow c.R ins) (c.R * t + p) (c.R * t + m) := by
  have inside : (p ≤ m ∧ m < p + cmdTicks)
      ↔ (c.R * t + p ≤ c.R * t + m ∧ c.R * t + m < c.R * t + p + cmdTicks) := by omega
  rw [Machine.contribution, slotContrib, h.allowed hin hp, slotRow_mul_add ins t _ hp, Nat.add_sub_add_left]
  exact if_congr inside rfl rfl

/-- The bus window of the step is what all slots so far have placed on its fast ticks (R170, R172). -/
theorem AgreesWithStream.bus {m : Nat} (hm : m < c.R + 3) :
    (busWindow c.R arb (contribRows c.R
        (allowedBits c.arbEnable c.R (histWindow c.arbHistory arb (ins t))) (ins t))).getD m 0
      = placed (slotContrib (runAllowed c ins) (slotRow c.R ins)) (c.R * (t + 1)) (c.R * t + m) := by
  rw [getD_busWindow _ _ _ hm, contribRows, List.foldl_map, Nat.mul_succ, placed_add, ← h.spill]
  refine List.foldl_ext _ _ _ fun acc p hp => ?_
  rw [← h.contribution hin (List.mem_range.1 hp)]
  simp [List.getD_eq_getElem?_getD, lookback, hm]

/-- A step keeps the agreement (R173). -/
theorem AgreesWithStream.next : AgreesWithStream c ins (t + 1) (arbiterNext c arb (ins t)) where
  history := by
    rw [slotsBefore_eq_historyFrom]
    exact historyAt_histWindow hin (h.history.trans (slotsBefore_eq_historyFrom ..)) le_rfl
  spill m := by
    match m with
    | 0 => exact h.bus hin (m := c.R) (by omega)
    | 1 => exact h.bus hin (m := c.R + 1) (by omega)
    | 2 => exact h.bus hin (m := c.R + 2) (by omega)
    | m + 3 => exact (placed_eq_zero _ _ (by omega)).symm

/-- The finished window of a step is the bus on the step's fast ticks (R171, R172). -/
theorem AgreesWithStream.outw {j : Nat} (hj : j < c.R) :
    (arbiterNext c arb (ins t)).outw[j]? = some (runBus c ins (c.R * t + j)) := by
  have entry := h.bus hin (m := j) (by omega)
  have below : c.R * t + j < c.R * (t + 1) := by rw [Nat.mul_succ]; omega
  rw [placed_eq_slotBus _ _ below] at entry
  have hlt : j < (busWindow c.R arb (contribRows c.R
      (allowedBits c.arbEnable c.R (histWindow c.arbHistory arb (ins t))) (ins t))).length := by
    rw [length_busWindow]; omega
  rw [List.getD_eq_getElem _ _ hlt] at entry
  show (List.take c.R _)[j]? = _
  rw [List.getElem?_take_of_lt hj, List.getElem?_eq_getElem hlt, entry]
  rfl

end

/-! ### The run against the stream -/

section
variable {ins : Nat → In} {states : Nat → State} (h : IsRun ins states)
include h

theorem IsRun.arb (t : Nat) :
    (states (t + 1)).regs.arb = arbiterNext (states 0).cfg (states t).regs.arb (ins t) := by
  rw [(h.step t).1, takeStep_regs_arb, (h.constants t).1]

/-- Every record of a run is one of the block's. -/
theorem IsRun.shaped (t : Nat) : (ins t).shaped (states 0).cfg.R (states 0).cfg.N = true := by
  rw [← (h.constants t).1]; exact (h.step t).2

theorem IsRun.agreesWithStream
    (h0 : (states 0).regs.arb = ⟨false, false, false, 0, 0, 0, List.replicate (states 0).cfg.R 0⟩) (t : Nat) :
    AgreesWithStream (states 0).cfg ins t (states t).regs.arb := by
  induction t with
  | zero => rw [h0]; exact agreesWithStream_zero ..
  | succ t ih => rw [h.arb]; exact ih.next (h.shaped t)

/-- The command lanes of a step show the window that the arbiter held at its start (R171). -/
theorem IsRun.commandLanes (t : Nat) : (states (t + 1)).out.pad.cs = laneOf (states t).regs.arb.outw 0
    ∧ (states (t + 1)).out.pad.ca = caLanes (states t).regs.arb.outw := by
  rw [(h.step t).1, takeStep_out]
  simp [outOf]

/-- Bit `j` of each command lane is a bit of row `j` of that window. -/
theorem IsRun.bitAt_commandLanes {t j : Nat} {row : Row} (hrow : (states t).regs.arb.outw[j]? = some row) :
    bitAt (states (t + 1)).out.pad.cs j = row.getLsbD 0
      ∧ ∀ l < 6, bitAt (wordAt (states (t + 1)).out.pad.ca l) j = row.getLsbD (l + 1) := by
  obtain ⟨cs, ca⟩ := h.commandLanes t
  rw [cs, ca]
  refine ⟨bitAt_laneOf 0 hrow, fun l hl => ?_⟩
  rw [wordAt, List.getD_eq_getElem?_getD, getElem?_caLanes _ hl]
  exact bitAt_laneOf (l + 1) hrow

end

/-- Settles O29: the agreement at the start of step `t + 1`, and the window that step `t` finished. -/
theorem arbiterRegistersAgreeWithTheStream : Obligations.ArbiterRegistersAgreeWithTheStream := by
  intro ins states h h0 harb c t
  have agrees := h.agreesWithStream harb (t + 1)
  have history := agrees.history
  have hR : 4 ≤ c.R := wellTyped_ratio h0.typed
  have three : 3 ≤ c.R * (t + 1) := le_trans (by omega) (Nat.le_mul_of_pos_right c.R (Nat.succ_pos t))
  rw [slotsBefore_eq, decide_eq_true (by omega : 1 ≤ c.R * (t + 1)), decide_eq_true (by omega : 2 ≤ c.R * (t + 1)),
    decide_eq_true three] at history
  obtain ⟨vh0, vh1, vh2⟩ := Prod.mk.inj history |>.imp_right Prod.mk.inj
  refine ⟨fun j hj => ?_, fun j _ => agrees.spill j, vh0, vh1, vh2⟩
  rw [h.arb]
  exact (h.agreesWithStream harb t).outw (h.shaped t) hj

/-- Settles O30: the lanes show the zero window first, then the window that the step before finished. -/
theorem commandLanesShowTheBusOneStepLate : Obligations.CommandLanesShowTheBusOneStepLate := by
  intro ins states h h0 harb c
  refine ⟨fun j hj => ?_, fun t j hj => ?_⟩
  · have row : (states 0).regs.arb.outw[j]? = some 0 := by
      rw [harb]; exact List.getElem?_replicate_of_lt hj
    obtain ⟨cs, ca⟩ := h.bitAt_commandLanes row
    exact ⟨cs.trans BitVec.getLsbD_zero, fun l hl => (ca l hl).trans BitVec.getLsbD_zero⟩
  · refine h.bitAt_commandLanes (t := t + 1) ?_
    rw [h.arb]
    exact (h.agreesWithStream harb t).outw (h.shaped t) hj

end Sys2Proof.Machine
end

section
/-! Rate-halving wrapper (R250 to R257): what the two stages do to each lane, and the delay of a lane's half-steps along
a run. -/

namespace Sys2Proof.Machine

/-! ### One step of the stages -/

theorem serialize_of_wrapped {s : State} (h : s.cfg.wrapped = true) : serialize s =
    { s with
      outer := s.wrap.serq.zipWith (fun q w => oldestTwo [] q (halvesOf w)) (fun q e => oldestTwo false q [e, e])
        s.out.pad
      wrap := { s.wrap with
        serq := s.wrap.serq.zipWith (fun q w => queueAfter q (halvesOf w)) (fun q e => queueAfter q [e, e])
          s.out.pad } } := if_pos h

theorem deserialize_of_wrapped {s : State} (h : s.cfg.wrapped = true) : deserialize s =
    { s with
      wires := { s.wires with padIn := padInZip desWord s.wrap.desq s.inp.pad }
      wrap := { s.wrap with desq := padInZip (fun q w => queueAfter q (halvesOf w)) s.wrap.desq s.inp.pad } } :=
  if_pos h

theorem getElem?_zipWith_of_some {α β γ : Type} {f : α → β → γ} {as : List α} {bs : List β} {k : Nat} {a : α} {b : β}
    (ha : as[k]? = some a) (hb : bs[k]? = some b) : (List.zipWith f as bs)[k]? = some (f a b) :=
  List.getElem?_zipWith_eq_some.2 ⟨a, b, ha, hb, rfl⟩

/-- The word lanes of queues combined with outputs, where both have the sizes of one block. -/
theorem wordLanes_zipWith_out {c : Cfg} {q : WrapQueues} {o : Out} {γ ζ : Type} (hq : q.Fits c) (ho : o.Fits c)
    (f : List Bits → Bits → γ) (g : List Bool → Bool → ζ) :
    (q.serq.zipWith f g o.pad).wordLanes = List.zipWith f q.serq.wordLanes o.pad.wordLanes := by
  obtain ⟨-, -, -, -, -, ca, dqO, dmiO, -⟩ := hq
  obtain ⟨-, -, -, -, -, -, -, oca, odq, odm, -⟩ := ho
  exact zipWith_wordLanes f g _ _ (ca.1.trans oca.1.symm) (dqO.1.trans odq.1.symm) (dmiO.1.trans odm.1.symm)

/-- The input lanes of queues combined with pad words, where both have the sizes of one block. -/
theorem padInLanes_zip {c : Cfg} {q : WrapQueues} {p : PadInLanes Bits} {γ : Type} (hq : q.Fits c)
    (hp : padShaped c.R c.N p = true) (f : List Bits → Bits → γ) :
    padInLanes (padInZip f q.desq p) = List.zipWith f (padInLanes q.desq) (padInLanes p) := by
  obtain ⟨-, -, -, -, -, -, -, -, -, -, -, -, dqI, dmiI, -⟩ := hq
  obtain ⟨pdq, pdm, -⟩ := padShaped_iff.1 hp
  exact padInZip_lanes f _ _ (dqI.1.trans pdq.1.symm) (dmiI.1.trans pdm.1.symm)

/-- Settles O46: each stage combines the queues and the words lane by lane. -/
theorem wrapperStagesOnEveryLane : Obligations.WrapperStagesOnEveryLane := by
  intro s
  refine ⟨fun hw => ⟨congrArg _ (serialize_of_not_wrapped hw), congrArg _ (deserialize_of_not_wrapped hw)⟩,
    fun hw hs => ?_⟩
  have fits := hs.wrap hw
  refine ⟨⟨_, _, congrArg _ (serialize_of_wrapped hw), fun k q w hq hword => ?_, fun k q e hq he => ?_⟩,
    ⟨_, _, congrArg _ (deserialize_of_wrapped hw), fun k q w hq hword => ?_⟩⟩
  · rw [wordLanes_zipWith_out fits hs.out, wordLanes_zipWith_out fits hs.out]
    exact ⟨getElem?_zipWith_of_some hq hword, getElem?_zipWith_of_some hq hword⟩
  · rw [zipWith_enables, zipWith_enables]
    exact ⟨getElem?_zipWith_of_some hq he, getElem?_zipWith_of_some hq he⟩
  · have shaped := (shaped_iff.1 hs.inp).2.2.2
    rw [padInLanes_zip fits shaped, padInLanes_zip fits shaped]
    exact ⟨getElem?_zipWith_of_some hq hword, getElem?_zipWith_of_some hq hword⟩

/-! ### A queue of half-steps -/

/-- The stream `v` delayed by `n` half-steps, `z` before its start (R254). -/
def delayed {α : Type} (n : Nat) (z : α) (v : Nat → α) (u : Nat) : α := if u < n then z else v (u - n)

/-- The `n` values of a stream from half-step `u` on. -/
def ahead {α : Type} (n : Nat) (d : Nat → α) (u : Nat) : List α := (List.range n).map fun i => d (u + i)

theorem drop_two_ahead {α : Type} (n : Nat) (d : Nat → α) (u : Nat) :
    (ahead (n + 2) d u).drop 2 = ahead n d (u + 2) := by
  refine List.ext_getElem (by simp [ahead]) fun i _ _ => ?_
  simp [ahead, Nat.add_assoc]

theorem ahead_append_two {α : Type} (n : Nat) (d : Nat → α) (u : Nat) :
    ahead n d u ++ [d (u + n), d (u + (n + 1))] = ahead (n + 2) d u := by
  simp [ahead, List.range_succ]

section
variable {α : Type} {n : Nat} {z : α} {v : Nat → α} {queue : Nat → List α}

/-- The next `n` values of the delayed stream, followed by what enters in the step, are its next `n + 2` values. -/
theorem ahead_append_entering (n : Nat) (z : α) (v : Nat → α) (u : Nat) :
    ahead n (delayed n z v) u ++ [v u, v (u + 1)] = ahead (n + 2) (delayed n z v) u := by
  have entering : ∀ j, delayed n z v (u + (n + j)) = v (u + j) := fun j => by
    rw [delayed, if_neg (by omega)]; congr 1; omega
  rw [← ahead_append_two, entering 1]
  exact congrArg (fun a => _ ++ [a, _]) (entering 0).symm

variable (h0 : queue 0 = List.replicate n z)
  (hstep : ∀ t, queue (t + 1) = queueAfter (queue t) [v (2 * t), v (2 * t + 1)])
include h0 hstep

/-- Along a run the queue holds the next `n` values of the delayed stream (R253, R254). -/
theorem queue_eq_ahead (t : Nat) : queue t = ahead n (delayed n z v) (2 * t) := by
  induction t with
  | zero =>
    have early : ∀ i ∈ List.range n, delayed n z v (0 + i) = z := fun i hi => by
      have := List.mem_range.1 hi
      rw [delayed, if_pos (by omega)]
    rw [h0, ahead, List.map_congr_left early, List.map_const', List.length_range]
  | succ t ih => rw [hstep, queueAfter, ih, ahead_append_entering, drop_two_ahead]; rfl

/-- What leaves the queue in a step is the delayed stream's two half-steps (R254). -/
theorem oldestTwo_eq_delayed (empty : α) (t : Nat) : oldestTwo empty (queue t) [v (2 * t), v (2 * t + 1)]
    = { first := delayed n z v (2 * t), second := delayed n z v (2 * t + 1) } := by
  rw [oldestTwo, queue_eq_ahead h0 hstep, ahead_append_entering]
  simp [ahead]

/-- A lane whose pairs leave such a queue shows the delayed stream (R254). -/
theorem halfStep_eq_delayed {empty : α} {pairs : Nat → Halves α}
    (hpairs : ∀ t, pairs t = oldestTwo empty (queue t) [v (2 * t), v (2 * t + 1)]) (u : Nat) :
    halfStep pairs u = delayed n z v u := by
  rw [halfStep, hpairs, oldestTwo_eq_delayed h0 hstep]
  rcases Nat.mod_two_eq_zero_or_one u with hu | hu
  · rw [if_pos hu, show 2 * (u / 2) = u by omega]
  · rw [if_neg (by omega), show 2 * (u / 2) + 1 = u by omega]

end

/-- The halves of a step's word are the two half-steps of the stream of words. -/
theorem halvesOf_eq_halfOf (words : Nat → Bits) (t : Nat) :
    halvesOf (words t) = [halfOf words (2 * t), halfOf words (2 * t + 1)] := by
  have even : 2 * t / 2 = t := by omega
  have odd : (2 * t + 1) / 2 = t := by omega
  simp [halfOf, even, odd, Nat.add_mod]

/-! ### The lanes of a wrapped block -/

theorem getD_zipWith {α β γ : Type} {f : α → β → γ} {as : List α} {bs : List β} {k : Nat} (ha : k < as.length)
    (hb : k < bs.length) (a : α) (b : β) (c : γ) :
    (List.zipWith f as bs).getD k c = f (as.getD k a) (bs.getD k b) := by
  rw [List.getD_eq_getElem _ _ (by simp [ha, hb]), List.getElem_zipWith, List.getD_eq_getElem _ _ ha,
    List.getD_eq_getElem _ _ hb]

/-- The number of word lanes (R86). -/
theorem length_wordLanes_out {c : Cfg} {o : Out} (h : o.Fits c) : o.pad.wordLanes.length = 11 + c.N + 2 * c.NB := by
  obtain ⟨-, -, -, -, -, -, -, ca, dqO, dmiO, dqsO⟩ := h
  simp only [PadLanes.wordLanes, List.length_cons, List.length_append, ca.1, dqO.1, dmiO.1, dqsO.1]
  omega

theorem length_wordLanes_queues {c : Cfg} {q : WrapQueues} (h : q.Fits c) :
    q.serq.wordLanes.length = 11 + c.N + 2 * c.NB := by
  obtain ⟨-, -, -, -, -, ca, dqO, dmiO, dqsO, -⟩ := h
  simp only [PadLanes.wordLanes, List.length_cons, List.length_append, ca.1, dqO.1, dmiO.1, dqsO.1]
  omega

theorem length_padInLanes {c : Cfg} {p : PadInLanes Bits} (h : padShaped c.R c.N p = true) :
    (padInLanes p).length = c.N + 2 * c.NB := by
  obtain ⟨dqI, dmiI, dqsI⟩ := padShaped_iff.1 h
  simp only [padInLanes, List.length_append, dqI.1, dmiI.1, dqsI.1, Cfg.NB]
  omega

theorem length_padInLanes_queues {c : Cfg} {q : WrapQueues} (h : q.Fits c) :
    (padInLanes q.desq).length = c.N + 2 * c.NB := by
  obtain ⟨-, -, -, -, -, -, -, -, -, -, -, -, dqI, dmiI, dqsI⟩ := h
  simp only [padInLanes, List.length_append, dqI.1, dmiI.1, dqsI.1]
  omega

/-- Every word in a list of lanes has the same width. -/
theorem length_getD_padInLanes {c : Cfg} {p : PadInLanes Bits} (h : padShaped c.R c.N p = true) {k : Nat}
    (hk : k < c.N + 2 * c.NB) : ((padInLanes p).getD k []).length = 2 * c.R := by
  have hlt : k < (padInLanes p).length := (length_padInLanes h).symm ▸ hk
  obtain ⟨dqI, dmiI, dqsI⟩ := padShaped_iff.1 h
  rw [List.getD_eq_getElem _ _ hlt]
  have hmem : (padInLanes p)[k] ∈ p.dqI ++ p.dmiI ++ p.dqsI := List.getElem_mem hlt
  rw [List.mem_append, List.mem_append] at hmem
  rcases hmem with (hm | hm) | hm
  · exact dqI.2 _ hm
  · exact dmiI.2 _ hm
  · exact dqsI.2 _ hm

section
variable {inp : In} {s : State} (hw : s.cfg.wrapped = true)
include hw

/-- What a step of a wrapped block does to the output queues and shows at its pads (R254). -/
theorem takeStep_outer : (takeStep inp s).outer = s.wrap.serq.zipWith (fun q w => oldestTwo [] q (halvesOf w))
    (fun q e => oldestTwo false q [e, e]) (takeStep inp s).out.pad := by
  rw [takeStep_out, takeStep, serialize_of_wrapped (by simpa using hw)]
  simp

theorem takeStep_serq : (takeStep inp s).wrap.serq = s.wrap.serq.zipWith (fun q w => queueAfter q (halvesOf w))
    (fun q e => queueAfter q [e, e]) (takeStep inp s).out.pad := by
  rw [takeStep_out, takeStep, serialize_of_wrapped (by simpa using hw)]
  simp

/-- What a step of a wrapped block does to the input queues and gives to the inner block (R255). -/
theorem takeStep_padIn : (takeStep inp s).wires.padIn = padInZip desWord s.wrap.desq inp.pad := by
  rw [takeStep_wires, deserialize_of_wrapped (by exact hw)]
  rfl

theorem takeStep_desq :
    (takeStep inp s).wrap.desq = padInZip (fun q w => queueAfter q (halvesOf w)) s.wrap.desq inp.pad := by
  rw [takeStep, serialize_desq, advance_wrap, deserialize_of_wrapped (by exact hw)]

end

section
variable {ins : Nat → In} {states : Nat → State} (h : IsRun ins states) (h0 : (states 0).Inv)
  (hw : (states 0).cfg.wrapped = true)
include h h0 hw

theorem IsRun.wrapFits (t : Nat) : (states t).wrap.Fits (states 0).cfg := by
  have fits := (h.inv h0 t).wrap
  rw [(h.constants t).1] at fits
  exact fits hw

omit hw in
theorem IsRun.outFits (t : Nat) : (states t).out.Fits (states 0).cfg := by
  have fits := (h.inv h0 t).out
  rwa [(h.constants t).1] at fits

/-- One word lane of the output stage in one step of a run. -/
theorem IsRun.wordLane {k : Nat} (hk : k < (states 0).out.pad.wordLanes.length) (t : Nat) :
    (states (t + 1)).outer.wordLanes[k]?.getD { first := [], second := [] }
        = oldestTwo [] ((states t).wrap.serq.wordLanes.getD k [])
            (halvesOf ((states (t + 1)).out.pad.wordLanes.getD k []))
      ∧ (states (t + 1)).wrap.serq.wordLanes.getD k []
        = queueAfter ((states t).wrap.serq.wordLanes.getD k [])
            (halvesOf ((states (t + 1)).out.pad.wordLanes.getD k [])) := by
  have wrapped : (states t).cfg.wrapped = true := by rw [(h.constants t).1]; exact hw
  have fits := h.wrapFits h0 hw t
  have out := h.outFits h0 (t + 1)
  rw [length_wordLanes_out (h.outFits h0 0)] at hk
  have hq : k < (states t).wrap.serq.wordLanes.length := (length_wordLanes_queues fits).symm ▸ hk
  have ho : k < (states (t + 1)).out.pad.wordLanes.length := (length_wordLanes_out out).symm ▸ hk
  have outer := takeStep_outer (inp := ins t) wrapped
  have serq := takeStep_serq (inp := ins t) wrapped
  rw [← (h.step t).1] at outer serq
  rw [outer, serq, wordLanes_zipWith_out fits out, wordLanes_zipWith_out fits out, ← List.getD_eq_getElem?_getD]
  exact ⟨getD_zipWith hq ho _ _ _, getD_zipWith hq ho _ _ _⟩

omit h0 in
/-- One enable of the output stage in one step of a run. -/
theorem IsRun.enableLane {k : Nat} (hk : k < 3) (t : Nat) :
    (states (t + 1)).outer.enables[k]?.getD { first := false, second := false }
        = oldestTwo false ((states t).wrap.serq.enables.getD k [])
            [(states (t + 1)).out.pad.enables.getD k false, (states (t + 1)).out.pad.enables.getD k false]
      ∧ (states (t + 1)).wrap.serq.enables.getD k []
        = queueAfter ((states t).wrap.serq.enables.getD k [])
            [(states (t + 1)).out.pad.enables.getD k false, (states (t + 1)).out.pad.enables.getD k false] := by
  have wrapped : (states t).cfg.wrapped = true := by rw [(h.constants t).1]; exact hw
  have outer := takeStep_outer (inp := ins t) wrapped
  have serq := takeStep_serq (inp := ins t) wrapped
  rw [← (h.step t).1] at outer serq
  rw [outer, serq, zipWith_enables, zipWith_enables, ← List.getD_eq_getElem?_getD]
  exact ⟨getD_zipWith hk hk _ _ _, getD_zipWith hk hk _ _ _⟩

/-- One lane of the input stage in one step of a run. -/
theorem IsRun.inputLane {k : Nat} (hk : k < (states 0).cfg.N + 2 * (states 0).cfg.NB) (t : Nat) :
    (padInLanes (states (t + 1)).wires.padIn).getD k []
        = desWord ((padInLanes (states t).wrap.desq).getD k []) ((padInLanes (ins t).pad).getD k [])
      ∧ (padInLanes (states (t + 1)).wrap.desq).getD k []
        = queueAfter ((padInLanes (states t).wrap.desq).getD k [])
            (halvesOf ((padInLanes (ins t).pad).getD k [])) := by
  have wrapped : (states t).cfg.wrapped = true := by rw [(h.constants t).1]; exact hw
  have fits := h.wrapFits h0 hw t
  have shaped := (shaped_iff.1 (h.shaped t)).2.2.2
  have hq : k < (padInLanes (states t).wrap.desq).length := (length_padInLanes_queues fits).symm ▸ hk
  have hp : k < (padInLanes (ins t).pad).length := (length_padInLanes shaped).symm ▸ hk
  have padIn := takeStep_padIn (inp := ins t) wrapped
  have desq := takeStep_desq (inp := ins t) wrapped
  rw [← (h.step t).1] at padIn desq
  rw [padIn, desq, padInLanes_zip fits shaped, padInLanes_zip fits shaped]
  exact ⟨getD_zipWith hq hp _ _ _, getD_zipWith hq hp _ _ _⟩

end

/-! ### The delay of a run -/

/-- What construction of a wrapped block leaves in every queue and shows at every pad (R253). -/
theorem construct_wrapped {c : Cfg} {s t : State} (hw : c.wrapped = true) (h : exec (.phyConstruct c) s = .next t) :
    t.cfg = c ∧ t.wrap = zeroQueues c ∧ t.out.pad = idlePadOut c.R c.N ∧ t.Inv := by
  have inv : t.Inv := construct_inv h
  obtain ⟨-, -, st, -, rfl⟩ := construct_next.1 h
  refine ⟨rfl, if_pos hw, ?_, inv⟩
  show idlePadOut (coreCfg c).R (coreCfg c).N = _
  rw [coreCfg_R, coreCfg_N]

/-- Settles O47: each lane's queue starts with `RH_SER` zeros and takes the lane's two half-steps in every step. -/
theorem wrapperDelaysOutputsByRhSer : Obligations.WrapperDelaysOutputsByRhSer := by
  intro ins states c s hw hbuilt h u
  obtain ⟨hcfg, hwrap, hout, h0⟩ := construct_wrapped hw hbuilt
  have hw0 : (states 0).cfg.wrapped = true := by rw [hcfg]; exact hw
  refine ⟨fun k hk => ?_, fun k hk => ?_⟩
  · have start : (states 0).wrap.serq.wordLanes.getD k []
        = List.replicate c.rhSer (zeros (((states 0).out.pad.wordLanes.getD k []).length / 2)) := by
      rw [hwrap]
      show ((idlePadOut c.R c.N).map _ _).wordLanes.getD k [] = _
      rw [map_wordLanes, ← hout, List.getD_eq_getElem _ _ (by simpa using hk), List.getElem_map,
        List.getD_eq_getElem _ _ hk]
    exact halfStep_eq_delayed (queue := fun t => (states t).wrap.serq.wordLanes.getD k [])
      (v := halfOf fun t => (states (t + 1)).out.pad.wordLanes.getD k []) start
      (fun t => by rw [← halvesOf_eq_halfOf]; exact (h.wordLane h0 hw0 hk t).2)
      (fun t => by rw [← halvesOf_eq_halfOf]; exact (h.wordLane h0 hw0 hk t).1) u
  · have start : (states 0).wrap.serq.enables.getD k [] = List.replicate c.rhSer false := by
      rw [hwrap, zeroQueues_serq]
      rcases (by omega : k = 0 ∨ k = 1 ∨ k = 2) with rfl | rfl | rfl <;> rfl
    have even : ∀ t, 2 * t / 2 = t := fun t => by omega
    have odd : ∀ t, (2 * t + 1) / 2 = t := fun t => by omega
    exact halfStep_eq_delayed (queue := fun t => (states t).wrap.serq.enables.getD k [])
      (v := fun u => (states (u / 2 + 1)).out.pad.enables.getD k false) start
      (fun t => by rw [even, odd]; exact (h.enableLane hw0 hk t).2)
      (fun t => by rw [even, odd]; exact (h.enableLane hw0 hk t).1) u

/-- Half of a word that was made of two halves of one width. -/
theorem halfOf_append {words : Nat → Bits} {first second : Nat → Bits} {n : Nat}
    (hwords : ∀ t, words t = first t ++ second t) (h1 : ∀ t, (first t).length = n) (h2 : ∀ t, (second t).length = n)
    (u : Nat) : halfOf words u = halfStep (fun t => { first := first t, second := second t }) u := by
  have middle : (first (u / 2) ++ second (u / 2)).length / 2 = (first (u / 2)).length := by
    rw [List.length_append, h1, h2]; omega
  rw [halfOf, halfStep, hwords, middle, List.take_left, List.drop_left]

/-- Settles O48: likewise at the input, where the inner word is made of the two half-words that leave the queue. -/
theorem wrapperDelaysInputsByRhDes : Obligations.WrapperDelaysInputsByRhDes := by
  intro ins states c s hw hbuilt h u k hk
  obtain ⟨hcfg, hwrap, -, h0⟩ := construct_wrapped hw hbuilt
  have hw0 : (states 0).cfg.wrapped = true := by rw [hcfg]; exact hw
  have hlane : k < (states 0).cfg.N + 2 * (states 0).cfg.NB := by
    rwa [length_padInLanes (shaped_iff.1 h0.inp).2.2.2] at hk
  have start : (padInLanes (states 0).wrap.desq).getD k [] = List.replicate c.rhDes (zeros c.R) := by
    have hlt := (length_padInLanes_queues (h.wrapFits h0 hw0 0)).symm ▸ hlane
    rw [List.getD_eq_getElem _ _ hlt]
    refine List.eq_of_mem_replicate (n := c.N + c.NB + c.NB) ?_
    have lanes : padInLanes (states 0).wrap.desq
        = List.replicate (c.N + c.NB + c.NB) (List.replicate c.rhDes (zeros c.R)) := by
      rw [hwrap, zeroQueues_desq]
      simp only [padInLanes, List.replicate_append_replicate]
    exact lanes ▸ List.getElem_mem hlt
  have leaves := fun t => oldestTwo_eq_delayed (queue := fun t => (padInLanes (states t).wrap.desq).getD k [])
    (v := halfOf fun t => (padInLanes (ins t).pad).getD k []) start
    (fun t => by rw [← halvesOf_eq_halfOf]; exact (h.inputLane h0 hw0 hlane t).2) [] t
  have width : ∀ u, (delayed c.rhDes (zeros c.R) (halfOf fun t => (padInLanes (ins t).pad).getD k []) u).length
      = c.R := fun u => by
    unfold delayed
    split_ifs
    · exact length_zeros _
    · have word := length_getD_padInLanes (shaped_iff.1 (h.shaped ((u - c.rhDes) / 2))).2.2.2 hlane
      rw [hcfg] at word
      simp only [halfOf]
      split_ifs
      · rw [List.length_take, word]; omega
      · rw [List.length_drop, word]; omega
  rw [halfOf_append (first := fun t => delayed c.rhDes (zeros c.R) _ (2 * t))
    (second := fun t => delayed c.rhDes (zeros c.R) _ (2 * t + 1)) (fun t => ?_) (fun t => width _) (fun t => width _)]
  · exact halfStep_eq_delayed start
      (fun t => by rw [← halvesOf_eq_halfOf]; exact (h.inputLane h0 hw0 hlane t).2)
      (fun t => (leaves t).symm) u
  · rw [(h.inputLane h0 hw0 hlane t).1, desWord, halvesOf_eq_halfOf fun t => (padInLanes (ins t).pad).getD k []]
    rw [leaves t]

end Sys2Proof.Machine
end

section
/-! The one-step function as a whole and the control surface (R66, R67, R265 to R277, R291 to R294): what a step makes
of the control record, and what it does not. -/

namespace Sys2Proof.Machine

/-! ### The rows of a step -/

/-- The rows between the two stages of the wrapper are the inner block's step (R291, R294). -/
theorem rows_eq_advance (s : State) :
    [Instr.clkOut, .arbOut, .arbHist, .arbAllow, .arbSlip, .arbOr, .arbStep, .simpleStep, .rdvOut, .rdvStep, .sfDqoe,
        .sfPre, .sfPost, .sfDqsoe, .sfWord, .wrenStep, .wrdqPath, .wrdmPath, .wrdqsPath, .rddqPath, .rdDist].foldl
      (fun r i => match r with
        | .next t => exec i t
        | .fault f => .fault f
        | .refused f => .refused f) (Host.Outcome.next s) = .next (advance s) := rfl

/-- Settles O54: the stages of the wrapper run before and after the inner block's rows. -/
theorem stepIsTheCompositionOfItsRows : Obligations.StepIsTheCompositionOfItsRows := by
  intro s inp h
  rw [exec_phyStep h]
  have inner := rows_eq_advance (deserialize { s with inp := inp })
  rw [takeStep]
  have outer := congrArg (fun r : Result => match r with
    | .next t => exec .rhSer t
    | .fault f => .fault f
    | .refused f => .refused f) inner
  exact outer.symm

/-! ### A step by its control record -/

/-- The outputs do not depend on what the input stage made (R67). -/
theorem outOf_deserialize (s : State) : outOf (deserialize s) = outOf s := by
  unfold deserialize; split <;> rfl

theorem takeStep_of_not_wrapped {s : State} (inp : In) (h : s.cfg.wrapped = false) :
    takeStep inp s = advance { s with inp := inp } := by
  have inner : (advance { s with inp := inp }).cfg.wrapped = false := h
  have des : deserialize { s with inp := inp } = { s with inp := inp } := deserialize_of_not_wrapped h
  rw [takeStep, des, serialize_of_not_wrapped inner]

/-- The state on which the inner block of a wrapped block steps (R255). -/
def afterDes (inp : In) (s : State) : State :=
  { s with
    inp := inp
    wires := { s.wires with padIn := padInZip desWord s.wrap.desq inp.pad }
    wrap := { s.wrap with desq := padInZip (fun q w => queueAfter q (halvesOf w)) s.wrap.desq inp.pad } }

theorem takeStep_of_wrapped {s : State} (inp : In) (h : s.cfg.wrapped = true) :
    takeStep inp s = { advance (afterDes inp s) with
      outer := s.wrap.serq.zipWith (fun q w => oldestTwo [] q (halvesOf w)) (fun q e => oldestTwo false q [e, e])
        (outOf (afterDes inp s)).pad
      wrap := { (afterDes inp s).wrap with
        serq := s.wrap.serq.zipWith (fun q w => queueAfter q (halvesOf w)) (fun q e => queueAfter q [e, e])
          (outOf (afterDes inp s)).pad } } := by
  have inner : (advance (afterDes inp s)).cfg.wrapped = true := h
  have des : deserialize { s with inp := inp } = afterDes inp s := deserialize_of_wrapped h
  rw [takeStep, des, serialize_of_wrapped inner]
  rfl

/-- Two steps that differ in the control record differ in `dqs_oe` and its queue, the strobe word and the transcoders
only. -/
theorem takeStep_withCtl (inp : In) (ctl : Ctl) (s : State) :
    let t := takeStep inp s
    let t' := takeStep { inp with ctl := ctl } s
    t' = { t with
      inp := { inp with ctl := ctl }
      out := { t.out with pad := { t.out.pad with dqsOe := t'.out.pad.dqsOe } }
      outer := { t.outer with dqsOe := t'.outer.dqsOe }
      wires := { t.wires with strobeWord := t'.wires.strobeWord }
      regs := { t.regs with
        wrDq := t'.regs.wrDq, wrDm := t'.regs.wrDm, wrDqs := t'.regs.wrDqs, rdDq := t'.regs.rdDq }
      wrap := { t.wrap with serq := { t.wrap.serq with dqsOe := t'.wrap.serq.dqsOe } } } := by
  cases hw : s.cfg.wrapped with
  | false => intro t t'; simp only [t, t', takeStep_of_not_wrapped _ hw]; rfl
  | true => intro t t'; simp only [t, t', takeStep_of_wrapped _ hw]; rfl

/-- What a step shows on `dqs_oe` (R234). -/
theorem takeStep_out_dqsOe (inp : In) (s : State) : (takeStep inp s).out.pad.dqsOe
    = dqsOeOf inp.ctl.wlevelEn (preambleOf s.settings.wrtap (wrEnAny inp) s.regs.wrLine)
        (dqOeOf s.settings.wrtap s.regs.wrLine) (postambleOf s.settings.wrtap s.regs.wrLine) := by
  rw [takeStep_out, outOf_deserialize]; rfl

/-- The wrapper passes the enable through its queue (R254). -/
theorem takeStep_outer_dqsOe {s : State} (inp : In) (hw : s.cfg.wrapped = true) :
    (takeStep inp s).outer.dqsOe = oldestTwo false s.wrap.serq.dqsOe
        [(takeStep inp s).out.pad.dqsOe, (takeStep inp s).out.pad.dqsOe]
      ∧ (takeStep inp s).wrap.serq.dqsOe = queueAfter s.wrap.serq.dqsOe
        [(takeStep inp s).out.pad.dqsOe, (takeStep inp s).out.pad.dqsOe] :=
  ⟨congrArg PadLanes.dqsOe (takeStep_outer hw), congrArg PadLanes.dqsOe (takeStep_serq hw)⟩

/-- Without the wrapper a step leaves what belongs to it alone. -/
theorem takeStep_outer_of_not_wrapped {s : State} (inp : In) (hw : s.cfg.wrapped = false) :
    (takeStep inp s).outer = s.outer ∧ (takeStep inp s).wrap = s.wrap := by
  rw [takeStep_of_not_wrapped inp hw]; exact ⟨rfl, rfl⟩

section
variable {inp : In} {ctl : Ctl} {s : State} (hen : ctl.wlevelEn = inp.ctl.wlevelEn)
include hen

/-- Two steps whose control records agree on `wlevelEn` differ in the strobe word and the transcoders only. -/
theorem takeStep_withCtl_of_wlevelEn : takeStep { inp with ctl := ctl } s =
    { takeStep inp s with
      inp := { inp with ctl := ctl }
      wires := { (takeStep inp s).wires with strobeWord := (takeStep { inp with ctl := ctl } s).wires.strobeWord }
      regs := { (takeStep inp s).regs with
        wrDq := (takeStep { inp with ctl := ctl } s).regs.wrDq, wrDm := (takeStep { inp with ctl := ctl } s).regs.wrDm
        wrDqs := (takeStep { inp with ctl := ctl } s).regs.wrDqs
        rdDq := (takeStep { inp with ctl := ctl } s).regs.rdDq } } := by
  have enable : (takeStep { inp with ctl := ctl } s).out.pad.dqsOe = (takeStep inp s).out.pad.dqsOe := by
    rw [takeStep_out_dqsOe, takeStep_out_dqsOe]
    show dqsOeOf ctl.wlevelEn _ _ _ = _
    rw [hen]
    rfl
  have queued : (takeStep { inp with ctl := ctl } s).outer.dqsOe = (takeStep inp s).outer.dqsOe
      ∧ (takeStep { inp with ctl := ctl } s).wrap.serq.dqsOe = (takeStep inp s).wrap.serq.dqsOe := by
    cases hw : s.cfg.wrapped with
    | false =>
      obtain ⟨outer, wrap⟩ := takeStep_outer_of_not_wrapped inp hw
      obtain ⟨outer', wrap'⟩ := takeStep_outer_of_not_wrapped { inp with ctl := ctl } hw
      rw [outer, outer', wrap, wrap']
      exact ⟨rfl, rfl⟩
    | true =>
      obtain ⟨outer, serq⟩ := takeStep_outer_dqsOe inp hw
      obtain ⟨outer', serq'⟩ := takeStep_outer_dqsOe { inp with ctl := ctl } hw
      rw [outer, outer', serq, serq', enable]
      exact ⟨rfl, rfl⟩
  refine (takeStep_withCtl inp ctl s).trans ?_
  rw [enable, queued.1, queued.2]

/-- Such steps show the same outputs, at the pads of the wrapped block too. -/
theorem takeStep_withCtl_outputs : (takeStep { inp with ctl := ctl } s).out = (takeStep inp s).out
    ∧ (takeStep { inp with ctl := ctl } s).outer = (takeStep inp s).outer
    ∧ (takeStep { inp with ctl := ctl } s).wrap = (takeStep inp s).wrap := by
  rw [takeStep_withCtl_of_wlevelEn hen]
  exact ⟨rfl, rfl, rfl⟩

variable (hsw : ∀ pre post, strobeWordOf s.cfg ctl pre post = strobeWordOf s.cfg inp.ctl pre post)
include hsw

omit hen in
theorem takeStep_withCtl_strobeWord :
    (takeStep { inp with ctl := ctl } s).wires.strobeWord = (takeStep inp s).wires.strobeWord := by
  rw [takeStep_wires_strobeWord, takeStep_wires_strobeWord]
  exact hsw _ _

/-- Two steps whose control records choose the same strobe word as well differ in the transcoders only. -/
theorem takeStep_withCtl_of_strobeWord : takeStep { inp with ctl := ctl } s =
    { takeStep inp s with
      inp := { inp with ctl := ctl }
      regs := { (takeStep inp s).regs with
        wrDq := (takeStep { inp with ctl := ctl } s).regs.wrDq, wrDm := (takeStep { inp with ctl := ctl } s).regs.wrDm
        wrDqs := (takeStep { inp with ctl := ctl } s).regs.wrDqs
        rdDq := (takeStep { inp with ctl := ctl } s).regs.rdDq } } := by
  refine (takeStep_withCtl_of_wlevelEn hen).trans ?_
  rw [takeStep_withCtl_strobeWord hsw]

end

/-- The input stage does not read the control record. -/
theorem takeStep_withCtl_padIn (inp : In) (ctl : Ctl) (s : State) :
    (takeStep { inp with ctl := ctl } s).wires.padIn = (takeStep inp s).wires.padIn := by
  have frame := congrArg (fun t : State => t.wires.padIn) (takeStep_withCtl inp ctl s)
  exact frame

/-! ### The transcoders of a step by its control record -/

/-- The strobe word that a step gives to the strobe group. -/
def stepWord (inp : In) (s : State) : Bits := (takeStep inp s).wires.strobeWord

/-- The pad words that a step gives to the read group. -/
def stepPad (inp : In) (s : State) : PadInLanes Bits :=
  if s.cfg.wrapped then (takeStep inp s).wires.padIn else inp.pad

/-- Each group of a step, from its words and the controls of R213. -/
theorem takeStep_groups (inp : In) (ctl : Ctl) (s : State) :
    (takeStep { inp with ctl := ctl } s).regs.wrDq
        = transcodeAll s.cfg.W s.cfg.sReset (wrIn s.cfg.R s.cfg.N inp) (fun b => wrRst ctl (b / 8))
            (fun b => wrInc ctl (b / 8)) s.regs.wrDq
      ∧ (takeStep { inp with ctl := ctl } s).regs.wrDm
        = transcodeAll s.cfg.W s.cfg.sReset (dmIn s.cfg.R s.cfg.NB inp) (wrRst ctl) (wrInc ctl) s.regs.wrDm
      ∧ (takeStep { inp with ctl := ctl } s).regs.wrDqs
        = transcodeAll s.cfg.W s.cfg.sReset (fun _ => stepWord { inp with ctl := ctl } s) (wrRst ctl) (wrInc ctl)
            s.regs.wrDqs
      ∧ (takeStep { inp with ctl := ctl } s).regs.rdDq
        = transcodeAll s.cfg.W s.cfg.sReset (wordAt (stepPad inp s).dqI) (fun b => rdRst ctl (b / 8))
            (fun b => rdInc ctl (b / 8)) s.regs.rdDq := by
  refine ⟨takeStep_regs_wrDq .., takeStep_regs_wrDm .., takeStep_regs_wrDqs_eq .., ?_⟩
  rw [takeStep_regs_rdDq_eq, takeStep_withCtl_padIn]
  rfl

/-- A step whose control record agrees with another's in every effect is that step, but for the recorded input. -/
theorem exec_phyStep_withCtl (inp : In) (ctl : Ctl) (s : State)
    (shaped : In.shaped s.cfg.R s.cfg.N { inp with ctl := ctl } = true) (hen : ctl.wlevelEn = inp.ctl.wlevelEn)
    (hsw : ∀ pre post, strobeWordOf s.cfg ctl pre post = strobeWordOf s.cfg inp.ctl pre post)
    (hwr : wrRst ctl = wrRst inp.ctl) (hwi : wrInc ctl = wrInc inp.ctl) (hrr : rdRst ctl = rdRst inp.ctl)
    (hri : rdInc ctl = rdInc inp.ctl) : exec (.phyStep { inp with ctl := ctl }) s
      = .next { takeStep inp s with inp := { inp with ctl := ctl } } := by
  obtain ⟨wrDq, wrDm, wrDqs, rdDq⟩ := takeStep_groups inp ctl s
  obtain ⟨wrDq', wrDm', wrDqs', rdDq'⟩ := takeStep_groups inp inp.ctl s
  have word : stepWord { inp with ctl := ctl } s = stepWord inp s := takeStep_withCtl_strobeWord hsw
  rw [hwr, hwi] at wrDq wrDm wrDqs
  rw [hrr, hri] at rdDq
  rw [word] at wrDqs
  rw [exec_phyStep shaped, takeStep_withCtl_of_strobeWord hen hsw, wrDq.trans wrDq'.symm, wrDm.trans wrDm'.symm,
    wrDqs.trans wrDqs'.symm, rdDq.trans rdDq'.symm]

/-! ### Inputs without effect -/

/-- Settles O52: in each case the controls of R213 and the strobe word are the same functions. -/
theorem controlInputsWithoutEffect : Obligations.ControlInputsWithoutEffect := by
  intro s t inp h
  obtain ⟨shaped, rfl⟩ := exec_phyStep_next.1 h
  refine ⟨fun hen v => ?_, fun hsel a b c d => ?_, fun hrr hri hwr hwi v hv => ?_⟩
  · refine exec_phyStep_withCtl inp { inp.ctl with wlevelStrobe := v } s shaped rfl (fun pre post => ?_) rfl rfl rfl rfl
    simp [strobeWordOf, hen]
  · refine exec_phyStep_withCtl inp { inp.ctl with rdBsRst := a, rdBsInc := b, wrBsRst := c, wrBsInc := d } s shaped
      rfl (fun _ _ => rfl) ?_ ?_ ?_ ?_ <;>
      funext y <;> simp [wrRst, wrInc, rdRst, rdInc, selected, hsel y]
  · have shaped' : In.shaped s.cfg.R s.cfg.N { inp with ctl := { inp.ctl with dlySel := v } } = true := by
      have width : Ctl.shaped s.cfg.R s.cfg.N { inp.ctl with dlySel := v } = inp.ctl.shaped s.cfg.R s.cfg.N := by
        simp only [Ctl.shaped, hv]
      obtain ⟨length, phases, ctl, pad⟩ := shaped_iff.1 shaped
      exact shaped_iff.2 ⟨length, phases, width.trans ctl, pad⟩
    refine exec_phyStep_withCtl inp { inp.ctl with dlySel := v } s shaped' rfl (fun _ _ => rfl) ?_ ?_ ?_ ?_ <;>
      funext y <;> simp [wrRst, wrInc, rdRst, rdInc, hrr, hri, hwr, hwi]

/-- Settles O53: no effect reads the phase offsets, and without the wrapper the block reads `dq_i` alone. -/
theorem inputsThatNoRuleReads : Obligations.InputsThatNoRuleReads := by
  intro s t inp h
  obtain ⟨shaped, rfl⟩ := exec_phyStep_next.1 h
  refine ⟨fun rd wr hrd hwr => ?_, fun hw dmiI dqsI => ?_⟩
  · have shaped' : In.shaped s.cfg.R s.cfg.N { inp with ctl := { inp.ctl with rdPhase := rd, wrPhase := wr } }
        = true := by
      obtain ⟨length, phases, ctl, pad⟩ := shaped_iff.1 shaped
      have sel : inp.ctl.dlySel.length = s.cfg.N / 8 := by
        simp only [Ctl.shaped, Bool.and_eq_true, decide_eq_true_eq] at ctl; exact ctl.2
      exact shaped_iff.2 ⟨length, phases, by simp [Ctl.shaped, hrd, hwr, sel], pad⟩
    exact exec_phyStep_withCtl inp { inp.ctl with rdPhase := rd, wrPhase := wr } s shaped' rfl (fun _ _ => rfl) rfl rfl
      rfl rfl
  · intro inp' shaped'
    have pads : ∀ i : In, padInputs { s with inp := i } = i.pad := fun i => if_neg (by simp [hw])
    rw [exec_phyStep shaped', takeStep_of_not_wrapped inp hw, takeStep_of_not_wrapped inp' hw]
    simp only [advance, regsNext, pads]
    rfl

/-- Settles O55: `outOf` reads the input of the step in `dqs_oe` alone. -/
theorem outputsDependOnStateAlone : Obligations.OutputsDependOnStateAlone := by
  intro s t t' inp inp' h h'
  obtain ⟨-, rfl⟩ := exec_phyStep_next.1 h
  obtain ⟨-, rfl⟩ := exec_phyStep_next.1 h'
  have frame : (takeStep inp' s).out = { (takeStep inp s).out with
      pad := { (takeStep inp s).out.pad with dqsOe := (takeStep inp' s).out.pad.dqsOe } } := by
    simp only [takeStep_out, outOf_deserialize]; rfl
  refine ⟨frame, by rw [takeStep_out, outOf_deserialize]; rfl, fun hen hwr => ?_⟩
  have preamble : preambleOf s.settings.wrtap (wrEnAny inp') s.regs.wrLine
      = preambleOf s.settings.wrtap (wrEnAny inp) s.regs.wrLine := by
    rw [preambleOf_eq, preambleOf_eq]
    split_ifs with h0
    · exact congrArg (· && _) (hwr h0).symm
    · rfl
  have enable : (takeStep inp' s).out.pad.dqsOe = (takeStep inp s).out.pad.dqsOe := by
    rw [takeStep_out_dqsOe, takeStep_out_dqsOe, hen, preamble]
  rw [frame, enable]

/-! ### The reset flag -/

theorem eq_cleared_of_mem {W sReset : Nat} {x : Nat → Bits} {rst inc : Nat → Bool} {ts : List Transcoder}
    {i : Transcoder} (hr : ∀ k, rst k = true) (hi : i ∈ transcodeAll W sReset x rst inc ts) :
    i = ⟨zeros (2 * W), sReset⟩ := by
  obtain ⟨k, hk⟩ := List.mem_iff_getElem?.1 hi
  rw [getElem?_transcodeAll, hr] at hk
  obtain ⟨t, -, rfl⟩ := Option.map_eq_some_iff.1 hk
  rfl

/-- Settles O49: every transcoder has `rst = 1`, and no output and no other register reads the flag. -/
theorem resetFlagClearsTheTranscodersOnly : Obligations.ResetFlagClearsTheTranscodersOnly := by
  intro s inp hs hwf
  obtain ⟨shaped, named⟩ := names_iff.1 hwf
  have flag : inp.ctl.rst = true := by
    have fields := Laws.RowSelection.stepRow_fields inp.ctl
    rwa [named] at fields
  obtain ⟨out, outer, wrap⟩ :=
    takeStep_withCtl_outputs (inp := inp) (ctl := { inp.ctl with rst := false }) (s := s) rfl
  refine ⟨_, _, (exec_ctlRst flag).trans (exec_phyStep shaped), exec_phyStep shaped, fun i hi => ?_, out.symm,
    outer.symm, wrap.symm, ?_⟩
  · have wrFlag : ∀ y, wrRst inp.ctl y = true := fun y => by rw [wrRst, flag, Bool.true_or]
    have rdFlag : ∀ y, rdRst inp.ctl y = true := fun y => by rw [rdRst, flag, Bool.true_or]
    obtain ⟨wrDq, wrDm, wrDqs, rdDq⟩ := takeStep_groups inp inp.ctl s
    rw [wrDq, wrDm, wrDqs, rdDq] at hi
    simp only [List.mem_append] at hi
    rcases hi with ((hi | hi) | hi) | hi
    · exact eq_cleared_of_mem (fun _ => wrFlag _) hi
    · exact eq_cleared_of_mem wrFlag hi
    · exact eq_cleared_of_mem wrFlag hi
    · exact eq_cleared_of_mem (fun _ => rdFlag _) hi
  · rw [takeStep_withCtl_of_wlevelEn (inp := inp) (ctl := { inp.ctl with rst := false }) rfl]
    exact ⟨rfl, rfl, rfl, rfl, rfl, rfl⟩

/-! ### The bitslip pulses -/

/-- What the pulses of one direction make of a transcoder of byte lane `y` (R206, R213). -/
def pulsed (W sReset : Nat) (ctl : Ctl) (reset inc : Bool) (y : Nat) (i : Transcoder) : Transcoder :=
  if selected ctl y && reset then ⟨zeros (2 * W), sReset⟩
  else if selected ctl y && inc && !ctl.rst then { i with rot := (i.rot + 1) % W }
  else i

/-- A step with pulses is the step without them, and then what the pulses do. -/
theorem transcode_eq_pulsed (W sReset : Nat) (x : Bits) (ctl : Ctl) (reset inc : Bool) (y : Nat) (i : Transcoder) :
    transcode W sReset x (ctl.rst || (selected ctl y && reset)) (selected ctl y && inc) i
      = pulsed W sReset ctl reset inc y (transcode W sReset x ctl.rst false i) := by
  unfold pulsed
  cases selected ctl y <;> cases ctl.rst <;> cases reset <;> cases inc <;> rfl

theorem getElem?_transcodeAll_pulsed (W sReset : Nat) (x : Nat → Bits) (ctl : Ctl) (reset inc : Bool)
    (lane : Nat → Nat) (ts : List Transcoder) (k : Nat) :
    (transcodeAll W sReset x (fun k => ctl.rst || (selected ctl (lane k) && reset))
        (fun k => selected ctl (lane k) && inc) ts)[k]?
      = ((transcodeAll W sReset x (fun _ => ctl.rst) (fun _ => false) ts)[k]?).map
          (pulsed W sReset ctl reset inc (lane k)) := by
  rw [getElem?_transcodeAll, getElem?_transcodeAll, Option.map_map]
  exact congrArg (Option.map · _) (funext fun i => transcode_eq_pulsed ..)

/-- A step of a group without reset and increment moves no rotation. -/
theorem map_rot_transcodeAll {W sReset : Nat} {x : Nat → Bits} {rst : Bool} (hr : rst = false)
    (ts : List Transcoder) :
    (transcodeAll W sReset x (fun _ => rst) (fun _ => false) ts).map Transcoder.rot = ts.map Transcoder.rot := by
  subst hr
  refine List.ext_getElem? fun k => ?_
  rw [List.getElem?_map, List.getElem?_map, getElem?_transcodeAll, Option.map_map]
  rfl

/-- The control record with the four pulses 0. -/
def withoutPulses (ctl : Ctl) : Ctl :=
  { ctl with rdBsRst := false, rdBsInc := false, wrBsRst := false, wrBsInc := false }

theorem controls_withoutPulses (ctl : Ctl) :
    wrRst (withoutPulses ctl) = (fun _ => ctl.rst) ∧ wrInc (withoutPulses ctl) = (fun _ => false)
      ∧ rdRst (withoutPulses ctl) = (fun _ => ctl.rst) ∧ rdInc (withoutPulses ctl) = (fun _ => false) := by
  refine ⟨?_, ?_, ?_, ?_⟩ <;> funext y <;> simp [wrRst, wrInc, rdRst, rdInc, withoutPulses]

/-- Settles O50: the groups of the two steps are given by `takeStep_groups`, and the rest is the frame. -/
theorem bitslipPulsesActOnSelectedLanes : Obligations.BitslipPulsesActOnSelectedLanes := by
  intro s inp hs shaped ctl still cleared pulse
  obtain ⟨wr, wi, rr, ri⟩ := controls_withoutPulses inp.ctl
  obtain ⟨wrDq, wrDm, wrDqs, rdDq⟩ := takeStep_groups inp inp.ctl s
  obtain ⟨wrDq', wrDm', wrDqs', rdDq'⟩ := takeStep_groups inp (withoutPulses inp.ctl) s
  have word : stepWord { inp with ctl := withoutPulses inp.ctl } s = stepWord inp s :=
    takeStep_withCtl_strobeWord fun _ _ => rfl
  rw [wr, wi] at wrDq' wrDm' wrDqs'
  rw [rr, ri] at rdDq'
  rw [word] at wrDqs'
  refine ⟨takeStep inp s, takeStep { inp with ctl := withoutPulses inp.ctl } s, exec_phyStep shaped,
    exec_phyStep shaped, fun h => (exec_ctlRdBsRst h).trans (exec_phyStep shaped),
    fun h => (exec_ctlRdBsInc h).trans (exec_phyStep shaped), fun h => (exec_ctlWrBsRst h).trans (exec_phyStep shaped),
    fun h => (exec_ctlWrBsInc h).trans (exec_phyStep shaped), fun b => ?_, fun b => ?_, fun y => ?_, fun y => ?_,
    fun h => ⟨?_, ?_, ?_, ?_⟩, takeStep_withCtl_of_strobeWord (inp := still) (ctl := inp.ctl) rfl fun _ _ => rfl⟩
  · rw [rdDq']
    exact (congrArg (·[b]?) rdDq).trans (getElem?_transcodeAll_pulsed _ _ _ inp.ctl _ _ (· / 8) _ b)
  · rw [wrDq']
    exact (congrArg (·[b]?) wrDq).trans (getElem?_transcodeAll_pulsed _ _ _ inp.ctl _ _ (· / 8) _ b)
  · rw [wrDm']
    exact (congrArg (·[y]?) wrDm).trans (getElem?_transcodeAll_pulsed _ _ _ inp.ctl _ _ id _ y)
  · rw [wrDqs']
    exact (congrArg (·[y]?) wrDqs).trans (getElem?_transcodeAll_pulsed _ _ _ inp.ctl _ _ id _ y)
  · rw [rdDq', map_rot_transcodeAll h]
  · rw [wrDq', map_rot_transcodeAll h]
  · rw [wrDm', map_rot_transcodeAll h]
  · rw [wrDqs', map_rot_transcodeAll h]

/-! ### Write-levelling -/

/-- Settles O51: the controls of the other groups do not read `wlevelEn`, so the frame leaves `dqs_oe`, its queue, the
strobe word and the strobe group. -/
theorem writeLevellingChangesTwoThings : Obligations.WriteLevellingChangesTwoThings := by
  intro s inp hs shaped hen
  obtain ⟨-, -, -, -, -, -, -, -, wrDqs, -⟩ := hs.regs
  have enable : (takeStep inp s).out.pad.dqsOe = true := by
    rw [takeStep_out_dqsOe, hen, dqsOeOf]; simp
  have word : (takeStep inp s).wires.strobeWord
      = if inp.ctl.wlevelStrobe then s.cfg.patWlStrobe else s.cfg.patWlIdle := by
    rw [takeStep_wires_strobeWord, strobeWordOf, if_pos hen]
  refine ⟨_, _, exec_phyStep shaped, (exec_ctlWlevelEn hen).trans (exec_phyStep shaped),
    fun hst => (exec_ctlWlevelStrobe hen hst).trans (exec_phyStep shaped), exec_phyStep shaped, enable, word, ?_,
    fun hw => ?_, fun hw => takeStep_outer_of_not_wrapped inp hw, ?_⟩
  · rw [takeStep_regs_wrDqs_eq]
    exact wrDqsNext_groupTranscodes inp (by rw [(hs.takeStep shaped).strobeWord, takeStep_cfg]) wrDqs
  · obtain ⟨outer, serq⟩ := takeStep_outer_dqsOe inp hw
    rw [outer, serq, enable]
    exact ⟨rfl, rfl⟩
  · obtain ⟨wrDq, wrDm, -, rdDq⟩ := takeStep_groups { inp with ctl := { inp.ctl with wlevelEn := false } } inp.ctl s
    obtain ⟨wrDq', wrDm', -, rdDq'⟩ :=
      takeStep_groups { inp with ctl := { inp.ctl with wlevelEn := false } } { inp.ctl with wlevelEn := false } s
    refine (takeStep_withCtl { inp with ctl := { inp.ctl with wlevelEn := false } } inp.ctl s).trans ?_
    rw [wrDq.trans wrDq'.symm, wrDm.trans wrDm'.symm, rdDq.trans rdDq'.symm, ← enable]

end Sys2Proof.Machine
end

section
/-! How a run forgets where it started (R42): two runs of one block on the same records, register by register. -/

namespace Sys2Proof.Machine

/-! ### The arbiter -/

theorem historyFrom_eq_of_le {mode : ArbHistory} {V : Nat → Bool} {a b : Bool × Bool × Bool} {n m : Nat}
    (h : historyFrom mode V a n = historyFrom mode V b n) (hm : n ≤ m) :
    historyFrom mode V a m = historyFrom mode V b m := by
  induction m, hm using Nat.le_induction with
  | base => exact h
  | succ m _ ih => rw [historyFrom, historyFrom, ih]

/-- The raw history after three slots holds the validity of those slots only. -/
theorem historyFrom_raw {m : Nat} (V : Nat → Bool) (a b : Bool × Bool × Bool) (hm : 3 ≤ m) :
    historyFrom .raw V a m = historyFrom .raw V b m :=
  historyFrom_eq_of_le (n := 3) rfl hm

/-- Three slots without a command leave no bit in the filtered history. -/
theorem historyFrom_filtered_of_quiet {V : Nat → Bool} {n : Nat} (quiet : ∀ d < 3, V (n + d) = false)
    (a : Bool × Bool × Bool) : historyFrom .filtered V a (n + 3) = (false, false, false) := by
  have last := quiet 2 (by decide)
  have middle := quiet 1 (by decide)
  have oldest := quiet 0 (by decide)
  simp only [historyFrom, pushSlot, last, middle, show V n = false from oldest, Bool.false_and]

section
variable {arb arb' : Arbiter} (h : historyOf arb = historyOf arb')
include h

theorem histWindow_congr (mode : ArbHistory) (inp : In) :
    histWindow mode arb inp = histWindow mode arb' inp := by
  obtain ⟨vh0, older⟩ := Prod.mk.inj h
  obtain ⟨vh1, vh2⟩ := Prod.mk.inj older
  rw [histWindow, histWindow, vh0, vh1, vh2]

/-- The rows that a step spills come from the step's own slots: the rows spilled before lie below them (R172). -/
theorem spilledOf_arbiterNext_congr {c : Cfg} (hR : 3 ≤ c.R) (inp : In) :
    spilledOf (arbiterNext c arb inp) = spilledOf (arbiterNext c arb' inp) := by
  have row : ∀ contrib, ∀ j < 3, (busWindow c.R arb contrib).getD (c.R + j) 0
      = (busWindow c.R arb' contrib).getD (c.R + j) 0 := fun contrib j hj => by
    obtain ⟨m, hm⟩ := Nat.exists_eq_add_of_le' (hR.trans (Nat.le_add_right c.R j))
    rw [getD_busWindow _ _ _ (by omega), getD_busWindow _ _ _ (by omega), hm]
    rfl
  simp only [spilledOf, arbiterNext, histWindow_congr h]
  exact congr (congrArg _ (row _ 0 (by decide))) (congr (congrArg _ (row _ 1 (by decide))) (row _ 2 (by decide)))

/-- The finished window is made of the history, the spilled rows and the step's slots (R172). -/
theorem outw_arbiterNext_congr (hspill : spilledOf arb = spilledOf arb') (c : Cfg) (inp : In) :
    (arbiterNext c arb inp).outw = (arbiterNext c arb' inp).outw := by
  obtain ⟨spill0, later⟩ := Prod.mk.inj hspill
  obtain ⟨spill1, spill2⟩ := Prod.mk.inj later
  have rows : spillRow arb = spillRow arb' := funext fun
    | 0 => spill0
    | 1 => spill1
    | 2 => spill2
    | _ + 3 => rfl
  simp only [arbiterNext, histWindow_congr h, busWindow, rows]

end

/-- The history bits that the arbiter holds are those of all slots so far (R167, R172). -/
theorem IsRun.history {ins : Nat → In} {states : Nat → State} (h : IsRun ins states) (t : Nat) :
    historyOf (states t).regs.arb = historyFrom (states 0).cfg.arbHistory (slotValid (states 0).cfg.R ins)
      (historyOf (states 0).regs.arb) ((states 0).cfg.R * t) := by
  induction t with
  | zero => rfl
  | succ t ih => rw [h.arb]; exact historyAt_histWindow (h.shaped t) ih le_rfl

/-! ### The transcoder buffers -/

theorem buf_transcode (W sReset : Nat) (x : Bits) (rst inc : Bool) (t : Transcoder) :
    (transcode W sReset x rst inc t).buf = if rst then zeros (2 * W) else slice t.buf W W ++ x := by
  cases rst <;> cases inc <;> rfl

/-- The newer word after a step is the step's own. -/
theorem newer_transcode {W : Nat} {t : Transcoder} (ht : t.Fits W) (sReset : Nat) (x : Bits) (rst inc : Bool) :
    slice (transcode W sReset x rst inc t).buf W W = if rst then slice (zeros (2 * W)) W W else x.take W := by
  have older : (slice t.buf W W).length = W := by
    rw [slice, List.length_take, List.length_drop, ht.1]; omega
  rw [buf_transcode]
  cases rst with
  | true => rfl
  | false =>
    show ((slice t.buf W W ++ x).drop W).take W = x.take W
    rw [List.drop_left' older]

theorem buf_transcode_twice {W : Nat} {t u : Transcoder} (ht : t.Fits W) (hu : u.Fits W) (sReset : Nat)
    (x y : Bits) (rst rst' inc inc' : Bool) :
    (transcode W sReset y rst' inc' (transcode W sReset x rst inc t)).buf
      = (transcode W sReset y rst' inc' (transcode W sReset x rst inc u)).buf := by
  rw [buf_transcode, newer_transcode ht, ← newer_transcode hu sReset x rst inc, ← buf_transcode]

/-- Two steps fill the buffers of a group with their own words, whatever the buffers held (R203). -/
theorem buffers_transcodeAll_twice {n W : Nat} {ts us : List Transcoder} (ht : Group n W ts) (hu : Group n W us)
    (sReset : Nat) (x y : Nat → Bits) (rst rst' inc inc' : Nat → Bool) :
    (transcodeAll W sReset y rst' inc' (transcodeAll W sReset x rst inc ts)).map Transcoder.buf
      = (transcodeAll W sReset y rst' inc' (transcodeAll W sReset x rst inc us)).map Transcoder.buf := by
  refine List.ext_getElem? fun k => ?_
  simp only [List.getElem?_map, getElem?_transcodeAll, Option.map_map]
  rcases Nat.lt_or_ge k n with hk | hk
  · have inside : k < ts.length := hk.trans_eq ht.1.symm
    have inside' : k < us.length := hk.trans_eq hu.1.symm
    rw [List.getElem?_eq_getElem inside, List.getElem?_eq_getElem inside']
    exact congrArg some (buf_transcode_twice (ht.2 _ (List.getElem_mem inside)) (hu.2 _ (List.getElem_mem inside')) ..)
  · rw [List.getElem?_eq_none (ht.1.trans_le hk), List.getElem?_eq_none (hu.1.trans_le hk)]

/-! ### The wrapper's input queues -/

/-- Two queues of `n` values that take the same two values in every step agree once `n` values have entered. -/
theorem queue_eq_of_entering_eq {α : Type} {n : Nat} {q r entering : Nat → List α}
    (hq : ∀ t, q (t + 1) = queueAfter (q t) (entering t)) (hr : ∀ t, r (t + 1) = queueAfter (r t) (entering t))
    (lq : ∀ t, (q t).length = n) (lr : ∀ t, (r t).length = n) {t : Nat} (ht : n ≤ 2 * t) : q t = r t := by
  have entered : ∀ t, (q t).drop (n - 2 * t) = (r t).drop (n - 2 * t) := fun t => by
    induction t with
    | zero => rw [List.drop_of_length_le (by simp [lq]), List.drop_of_length_le (by simp [lr])]
    | succ t ih =>
      have split : 2 + (n - 2 * (t + 1)) = (n - 2 * t) + (2 + (n - 2 * (t + 1)) - (n - 2 * t)) := by omega
      rw [hq, hr, queueAfter, queueAfter, List.drop_drop, List.drop_drop, split, ← List.drop_drop, ← List.drop_drop,
        List.drop_append_of_le_length ((Nat.sub_le ..).trans_eq (lq t).symm),
        List.drop_append_of_le_length ((Nat.sub_le ..).trans_eq (lr t).symm), ih]
  simpa [Nat.sub_eq_zero_of_le ht] using entered t

theorem padInLanes_injective {α : Type} {p p' : PadInLanes α} (hdq : p.dqI.length = p'.dqI.length)
    (hdm : p.dmiI.length = p'.dmiI.length) (h : padInLanes p = padInLanes p') : p = p' := by
  obtain ⟨data, dqsI⟩ := List.append_inj h (by simp [hdq, hdm])
  obtain ⟨dqI, dmiI⟩ := List.append_inj data hdq
  exact congr (congr (congrArg PadInLanes.mk dqI) dmiI) dqsI

/-- Every input lane has its queue of `RH_DES` half-words (R253). -/
theorem length_getD_padInLanes_queues {c : Cfg} {q : WrapQueues} (h : q.Fits c) {k : Nat}
    (hk : k < c.N + 2 * c.NB) : ((padInLanes q.desq).getD k []).length = c.rhDes := by
  have hlt : k < (padInLanes q.desq).length := (length_padInLanes_queues h).symm ▸ hk
  obtain ⟨-, -, -, -, -, -, -, -, -, -, -, -, dqI, dmiI, dqsI⟩ := h
  rw [List.getD_eq_getElem _ _ hlt]
  have lane : (padInLanes q.desq)[k] ∈ q.desq.dqI ++ q.desq.dmiI ++ q.desq.dqsI := List.getElem_mem hlt
  rw [List.mem_append, List.mem_append] at lane
  rcases lane with (data | mask) | strobe
  · exact (dqI.2 _ data).1
  · exact (dmiI.2 _ mask).1
  · exact (dqsI.2 _ strobe).1

/-! ### What a step of a run makes of each register -/

section
variable {ins : Nat → In} {states : Nat → State} (h : IsRun ins states)
include h

theorem IsRun.laneRegs (t : Nat) : (states (t + 1)).regs.ckeReg = (ins t).phases.map Phase.cke
    ∧ (states (t + 1)).regs.odtReg = (ins t).phases.map Phase.odt
    ∧ (states (t + 1)).regs.rstnReg = (ins t).phases.map Phase.resetN := by
  rw [(h.step t).1]
  simp

theorem IsRun.wrDq (t : Nat) :
    (states (t + 1)).regs.wrDq = wrDqNext (states 0).cfg (ins t) (states t).regs.wrDq := by
  rw [(h.step t).1, takeStep_regs_wrDq, (h.constants t).1]

theorem IsRun.wrDm (t : Nat) :
    (states (t + 1)).regs.wrDm = wrDmNext (states 0).cfg (ins t) (states t).regs.wrDm := by
  rw [(h.step t).1, takeStep_regs_wrDm, (h.constants t).1]

theorem IsRun.wrDqs (t : Nat) : (states (t + 1)).regs.wrDqs
    = wrDqsNext (states 0).cfg (ins t) (states (t + 1)).wires.strobeWord (states t).regs.wrDqs := by
  rw [(h.step t).1, takeStep_regs_wrDqs_eq, (h.constants t).1]

theorem IsRun.rdDq (t : Nat) : (states (t + 1)).regs.rdDq = rdDqNext (states 0).cfg (ins t)
    (if (states 0).cfg.wrapped then (states (t + 1)).wires.padIn else (ins t).pad) (states t).regs.rdDq := by
  rw [(h.step t).1, takeStep_regs_rdDq_eq, (h.constants t).1]

theorem IsRun.strobeWord (t : Nat) : (states (t + 1)).wires.strobeWord
    = strobeWordOf (states 0).cfg (ins t).ctl
        (preambleOf (states 0).settings.wrtap (wrEnAny (ins t)) (states t).regs.wrLine)
        (postambleOf (states 0).settings.wrtap (states t).regs.wrLine) := by
  rw [(h.step t).1, takeStep_wires_strobeWord, (h.constants t).1, (h.constants t).2]

theorem IsRun.padIn (hw : (states 0).cfg.wrapped = true) (t : Nat) :
    (states (t + 1)).wires.padIn = padInZip desWord (states t).wrap.desq (ins t).pad := by
  rw [(h.step t).1, takeStep_padIn (by rw [(h.constants t).1]; exact hw)]

theorem IsRun.regsFit (h0 : (states 0).Inv) (t : Nat) :
    (states t).regs.Fits (states 0).cfg (states 0).settings := by
  have fits := (h.inv h0 t).regs
  rwa [(h.constants t).1, (h.constants t).2] at fits

end

/-! ### Two runs on the same records -/

section
variable {ins : Nat → In} {a b : Nat → State} (ha : IsRun ins a) (hb : IsRun ins b)
  (ha0 : (a 0).Inv) (hb0 : (b 0).Inv) (hcfg : (a 0).cfg = (b 0).cfg)

include ha0 hb0 hcfg in
/-- The settings are determined by the configuration (R133). -/
theorem settings_eq_of_cfg_eq : (a 0).settings = (b 0).settings := by
  have resolved := ha0.resolved
  rw [hcfg] at resolved
  exact Except.ok.inj (resolved.symm.trans hb0.resolved)

include ha hb ha0 hb0 hcfg

theorem rdLine_forgotten {t : Nat} (ht : (a 0).settings.readLatency ≤ t) :
    (a t).regs.rdLine = (b t).regs.rdLine := by
  have same := congrArg Settings.readLatency (settings_eq_of_cfg_eq ha0 hb0 hcfg)
  obtain ⟨length, -⟩ := ha.regsFit ha0 t
  obtain ⟨length', -⟩ := hb.regsFit hb0 t
  refine bits_ext (by rw [length, length', same]) fun k hk => ?_
  rw [ha.bitAt_rdLine ha0 (by omega), hb.bitAt_rdLine hb0 (by omega), if_pos (by omega), if_pos (by omega)]

theorem wrLine_forgotten {t : Nat} (ht : (a 0).settings.wrtap + 2 ≤ t) :
    (a t).regs.wrLine = (b t).regs.wrLine := by
  have same := congrArg Settings.wrtap (settings_eq_of_cfg_eq ha0 hb0 hcfg)
  obtain ⟨-, length, -⟩ := ha.regsFit ha0 t
  obtain ⟨-, length', -⟩ := hb.regsFit hb0 t
  refine bits_ext (by rw [length, length', same]) fun k hk => ?_
  rw [ha.bitAt_wrLine ha0 (by omega), hb.bitAt_wrLine hb0 (by omega), if_pos (by omega), if_pos (by omega)]

omit ha0 hb0 in
theorem history_forgotten {m n : Nat} (hm : m ≤ (a 0).cfg.R * n)
    (h : ∀ x y, historyFrom (a 0).cfg.arbHistory (slotValid (a 0).cfg.R ins) x m
      = historyFrom (a 0).cfg.arbHistory (slotValid (a 0).cfg.R ins) y m) :
    historyOf (a n).regs.arb = historyOf (b n).regs.arb := by
  rw [ha.history, hb.history, ← hcfg]
  exact historyFrom_eq_of_le (h _ _) hm

omit hb0 in
/-- Where the history agrees, the spilled rows agree a step later. -/
theorem spilled_forgotten {t : Nat} (h : historyOf (a t).regs.arb = historyOf (b t).regs.arb) :
    spilledOf (a (t + 1)).regs.arb = spilledOf (b (t + 1)).regs.arb := by
  have hR := wellTyped_ratio ha0.typed
  rw [ha.arb, hb.arb, ← hcfg]
  exact spilledOf_arbiterNext_congr h (by omega) _

omit ha0 hb0 in
/-- Where the history and the spilled rows agree, the finished window agrees a step later. -/
theorem outw_forgotten {t : Nat} (h : historyOf (a t).regs.arb = historyOf (b t).regs.arb)
    (hspill : spilledOf (a t).regs.arb = spilledOf (b t).regs.arb) :
    (a (t + 1)).regs.arb.outw = (b (t + 1)).regs.arb.outw := by
  rw [ha.arb, hb.arb, ← hcfg]
  exact outw_arbiterNext_congr h hspill _ _

theorem wrDq_forgotten (t : Nat) :
    (a (t + 2)).regs.wrDq.map Transcoder.buf = (b (t + 2)).regs.wrDq.map Transcoder.buf := by
  obtain ⟨-, -, -, -, -, -, fits, -⟩ := ha.regsFit ha0 t
  obtain ⟨-, -, -, -, -, -, fits', -⟩ := hb.regsFit hb0 t
  rw [← hcfg] at fits'
  rw [ha.wrDq, ha.wrDq, hb.wrDq, hb.wrDq, ← hcfg]
  exact buffers_transcodeAll_twice fits fits' ..

theorem wrDm_forgotten (t : Nat) :
    (a (t + 2)).regs.wrDm.map Transcoder.buf = (b (t + 2)).regs.wrDm.map Transcoder.buf := by
  obtain ⟨-, -, -, -, -, -, -, fits, -⟩ := ha.regsFit ha0 t
  obtain ⟨-, -, -, -, -, -, -, fits', -⟩ := hb.regsFit hb0 t
  rw [← hcfg] at fits'
  rw [ha.wrDm, ha.wrDm, hb.wrDm, hb.wrDm, ← hcfg]
  exact buffers_transcodeAll_twice fits fits' ..

/-- The strobe buffers agree after two steps with the same strobe words. -/
theorem wrDqs_forgotten {t : Nat} (h1 : (a (t + 1)).wires.strobeWord = (b (t + 1)).wires.strobeWord)
    (h2 : (a (t + 2)).wires.strobeWord = (b (t + 2)).wires.strobeWord) :
    (a (t + 2)).regs.wrDqs.map Transcoder.buf = (b (t + 2)).regs.wrDqs.map Transcoder.buf := by
  obtain ⟨-, -, -, -, -, -, -, -, fits, -⟩ := ha.regsFit ha0 t
  obtain ⟨-, -, -, -, -, -, -, -, fits', -⟩ := hb.regsFit hb0 t
  rw [← hcfg] at fits'
  rw [ha.wrDqs, ha.wrDqs, hb.wrDqs, hb.wrDqs, ← hcfg, ← h1, ← h2]
  exact buffers_transcodeAll_twice fits fits' ..

/-- The strobe words agree as soon as the write-enable lines do. -/
theorem strobeWord_forgotten {t : Nat} (ht : (a 0).settings.wrtap + 2 ≤ t) :
    (a (t + 1)).wires.strobeWord = (b (t + 1)).wires.strobeWord := by
  rw [ha.strobeWord, hb.strobeWord, wrLine_forgotten ha hb ha0 hb0 hcfg ht, hcfg,
    settings_eq_of_cfg_eq ha0 hb0 hcfg]

/-- The read buffers agree after two steps in which the inner block reads the same pad words. -/
theorem rdDq_forgotten {t : Nat}
    (h : (a 0).cfg.wrapped = true → (a (t + 1)).wires.padIn = (b (t + 1)).wires.padIn
      ∧ (a (t + 2)).wires.padIn = (b (t + 2)).wires.padIn) :
    (a (t + 2)).regs.rdDq.map Transcoder.buf = (b (t + 2)).regs.rdDq.map Transcoder.buf := by
  obtain ⟨-, -, -, -, -, -, -, -, -, fits⟩ := ha.regsFit ha0 t
  obtain ⟨-, -, -, -, -, -, -, -, -, fits'⟩ := hb.regsFit hb0 t
  rw [← hcfg] at fits'
  rw [ha.rdDq, ha.rdDq, hb.rdDq, hb.rdDq, ← hcfg]
  cases hw : (a 0).cfg.wrapped with
  | false => exact buffers_transcodeAll_twice fits fits' ..
  | true =>
    obtain ⟨first, second⟩ := h hw
    rw [first, second]
    exact buffers_transcodeAll_twice fits fits' ..

/-- The input queues agree once every value of the start has left them. -/
theorem desq_forgotten (hw : (a 0).cfg.wrapped = true) {t : Nat} (ht : (a 0).cfg.rhDes ≤ 2 * t) :
    (a t).wrap.desq = (b t).wrap.desq := by
  have hw' : (b 0).cfg.wrapped = true := hcfg ▸ hw
  have fits := ha.wrapFits ha0 hw
  have fits' := hb.wrapFits hb0 hw'
  rw [← hcfg] at fits'
  have lane : ∀ k < (a 0).cfg.N + 2 * (a 0).cfg.NB,
      (padInLanes (a t).wrap.desq).getD k [] = (padInLanes (b t).wrap.desq).getD k [] := fun k hk =>
    queue_eq_of_entering_eq (q := fun t => (padInLanes (a t).wrap.desq).getD k [])
      (r := fun t => (padInLanes (b t).wrap.desq).getD k []) (fun t => (ha.inputLane ha0 hw hk t).2)
      (fun t => (hb.inputLane hb0 hw' (hcfg ▸ hk) t).2) (fun t => length_getD_padInLanes_queues (fits t) hk)
      (fun t => length_getD_padInLanes_queues (fits' t) hk) ht
  have count := length_padInLanes_queues (fits t)
  have count' := length_padInLanes_queues (fits' t)
  have lanes : padInLanes (a t).wrap.desq = padInLanes (b t).wrap.desq :=
    List.ext_getElem (count.trans count'.symm) fun k hk hk' => by
      rw [← List.getD_eq_getElem _ [] hk, ← List.getD_eq_getElem _ [] hk', lane k (count ▸ hk)]
  obtain ⟨-, -, -, -, -, -, -, -, -, -, -, -, dqI, dmiI, -⟩ := fits t
  obtain ⟨-, -, -, -, -, -, -, -, -, -, -, -, dqI', dmiI', -⟩ := fits' t
  exact padInLanes_injective (dqI.1.trans dqI'.1.symm) (dmiI.1.trans dmiI'.1.symm) lanes

/-- What the inner block reads agrees as soon as the input queues do. -/
theorem padIn_forgotten (hw : (a 0).cfg.wrapped = true) {t : Nat} (ht : (a 0).cfg.rhDes ≤ 2 * t) :
    (a (t + 1)).wires.padIn = (b (t + 1)).wires.padIn := by
  rw [ha.padIn hw, hb.padIn (hcfg ▸ hw), desq_forgotten ha hb ha0 hb0 hcfg hw ht]

end

/-- Settles O57: each register by the lemma that names it; `R ≥ 4` slots pass in a step. -/
theorem initialValuesAreForgotten : Obligations.InitialValuesAreForgotten := by
  intro ins a b ha hb ha0 hb0 hcfg c st buffers t
  have hR : 4 ≤ c.R := wellTyped_ratio ha0.typed
  refine ⟨rdLine_forgotten ha hb ha0 hb0 hcfg, wrLine_forgotten ha hb ha0 hb0 hcfg, fun ht => ?_, fun hraw => ?_,
    fun hfiltered n quiet hn => ?_, fun ht => ?_, wrDqs_forgotten ha hb ha0 hb0 hcfg, fun ht => ?_, fun hw ht => ?_,
    fun hw => ⟨desq_forgotten ha hb ha0 hb0 hcfg hw, fun ht => ?_⟩⟩
  · obtain ⟨u, rfl⟩ := Nat.exists_eq_add_of_le' ht
    obtain ⟨cke, odt, rstn⟩ := ha.laneRegs u
    obtain ⟨cke', odt', rstn'⟩ := hb.laneRegs u
    exact ⟨cke.trans cke'.symm, odt.trans odt'.symm, rstn.trans rstn'.symm⟩
  · have history : ∀ n, 1 ≤ n → historyOf (a n).regs.arb = historyOf (b n).regs.arb := fun n hn =>
      history_forgotten ha hb hcfg (m := 3) (le_trans (by omega) (Nat.le_mul_of_pos_right c.R hn)) fun x y => by
        rw [hraw]; exact historyFrom_raw _ x y le_rfl
    have spilled : ∀ n, 2 ≤ n → spilledOf (a n).regs.arb = spilledOf (b n).regs.arb := fun n hn => by
      obtain ⟨u, rfl⟩ := Nat.exists_eq_add_of_le' hn
      exact spilled_forgotten ha hb ha0 hcfg (history (u + 1) (by omega))
    refine ⟨history t, spilled t, fun ht => ?_⟩
    obtain ⟨u, rfl⟩ := Nat.exists_eq_add_of_le' ht
    exact outw_forgotten ha hb hcfg (history (u + 2) (by omega)) (spilled (u + 2) (by omega))
  · have history : ∀ u, t ≤ u → historyOf (a u).regs.arb = historyOf (b u).regs.arb := fun u hu =>
      history_forgotten ha hb hcfg (hn.trans (Nat.mul_le_mul_left c.R hu)) fun x y => by
        rw [hfiltered, historyFrom_filtered_of_quiet quiet, historyFrom_filtered_of_quiet quiet]
    have spilled := spilled_forgotten ha hb ha0 hcfg (history t le_rfl)
    exact ⟨history t le_rfl, spilled, outw_forgotten ha hb hcfg (history (t + 1) (by omega)) spilled⟩
  · obtain ⟨u, rfl⟩ := Nat.exists_eq_add_of_le' ht
    exact ⟨wrDq_forgotten ha hb ha0 hb0 hcfg u, wrDm_forgotten ha hb ha0 hb0 hcfg u⟩
  · have late : (a 0).settings.wrtap + 4 ≤ t := ht
    obtain ⟨u, rfl⟩ := Nat.exists_eq_add_of_le' (by omega : 2 ≤ t)
    exact wrDqs_forgotten ha hb ha0 hb0 hcfg (strobeWord_forgotten ha hb ha0 hb0 hcfg (by omega))
      (strobeWord_forgotten ha hb ha0 hb0 hcfg (by omega))
  · obtain ⟨u, rfl⟩ := Nat.exists_eq_add_of_le' ht
    exact rdDq_forgotten ha hb ha0 hb0 hcfg fun wrapped =>
      Bool.noConfusion (wrapped.symm.trans hw)
  · have late : (a 0).cfg.rhDes + 4 ≤ 2 * t := ht
    obtain ⟨u, rfl⟩ := Nat.exists_eq_add_of_le' (by omega : 2 ≤ t)
    exact rdDq_forgotten ha hb ha0 hb0 hcfg fun _ => ⟨padIn_forgotten ha hb ha0 hb0 hcfg hw (by omega),
      padIn_forgotten ha hb ha0 hb0 hcfg hw (by omega)⟩

end Sys2Proof.Machine
end
